-- ==== Sys2Proof/Word.lean ====
section
/-! DEFINITION. The word types of the core (R10: every value is an unsigned number of the stated width). -/

namespace Sys2Proof

/-- A 32-bit bus word: a command word, a register value, a packed output word (R14, R90, R155). -/
abbrev Word := BitVec 32

/-- A symbol: SYM_W = 8 bits (R8, R17). -/
abbrev Sym := BitVec 8

/-- A node index, as ROOT, DEC_CURSOR, LEFT, RIGHT and IDX hold it (R22, R40, R93). -/
abbrev NodeIdx := BitVec 9

/-- A counter of FREQ_W <= 32 bits, held in 32 (R8, R38 to R40). -/
abbrev Count := BitVec 32

end Sys2Proof
end

