-- ==== Sys2Proof/Syntax.lean ====
section
/-! DEFINITION. The commands of HUFCMD v1 (30_encoding.md R94): one constructor per row of the opcode table. -/

namespace Sys2Proof

/-- A command with its operands (R92, R93). -/
inductive Instr where
  /-- CLEAR: start a new input (R121). -/
  | clear
  /-- COUNT sym: count one occurrence of a symbol (R123). -/
  | count (sym : Sym)
  /-- BUILD: reduce the forest of leaves to one tree (R126). -/
  | build
  /-- ENC_START: open an encoder session (R153). -/
  | encStart
  /-- ENC_SYM sym: append the code of one symbol (R156). -/
  | encSym (sym : Sym)
  /-- ENC_END: close the encoder session (R160). -/
  | encEnd
  /-- DEC_START: open a decoder session (R182). -/
  | decStart
  /-- DEC_BITS nbits, bits: consume 1 to 16 bits (R185). -/
  | decBits (nbits : BitVec 5) (bits : BitVec 16)
  /-- DEC_END: close the decoder session (R190). -/
  | decEnd
  /-- QUERY_FREQ sym: read one frequency count (R211). -/
  | queryFreq (sym : Sym)
  /-- QUERY_NODE idx: read one node of the tree (R214). -/
  | queryNode (idx : NodeIdx)
  deriving DecidableEq, Repr

end Sys2Proof
end

