-- ==== Sys2Proof/WellFormed.lean ====
section
/-! DEFINITION. Which commands have a legal encoding (30_encoding.md R96). -/

namespace Sys2Proof

/-- NBITS is a count 0..31 of which only 1..16 is legal (R93, R96). -/
abbrev legalChunkLength (nbits : BitVec 5) : Prop := 1 ≤ nbits.toNat ∧ nbits.toNat ≤ 16

/-- The one condition on operands that the fields' widths do not already express: DEC_BITS takes 1 to 16 bits (R96). -/
def Instr.wellFormed : Instr → Bool
  | .clear => true
  | .count _ => true
  | .build => true
  | .encStart => true
  | .encSym _ => true
  | .encEnd => true
  | .decStart => true
  | .decBits nbits _ => decide (legalChunkLength nbits)
  | .decEnd => true
  | .queryFreq _ => true
  | .queryNode _ => true

end Sys2Proof
end

