-- ==== Sys2Proof/Decode.lean ====
section
/-! DEFINITION. Decoding a command word (30_encoding.md R90 to R97), and the encoder written from the same tables. -/

namespace Sys2Proof

/-- The defined opcodes, OP = 0x0 to 0xA in order (R94). -/
inductive Opcode where
  | clear | count | build | encStart | encSym | encEnd | decStart | decBits | decEnd | queryFreq | queryNode
  deriving DecidableEq, Repr

/-- The four command formats of R92. -/
inductive Format where
  | n | s | i | b
  deriving DecidableEq, Repr

/-- Why a word is illegal (R97). All three are reported as ILLEGAL_COMMAND. -/
inductive DecodeError where
  /-- OP is one of 0xB to 0xF. -/
  | reservedOpcode
  /-- A reserved bit of the format is not 0. -/
  | reservedBits
  /-- DEC_BITS with NBITS = 0 or 17..31. -/
  | badChunkLength
  deriving DecidableEq, Repr

/-- `OP` is `w[31:28]` in every format (R91). -/
def opField (w : Word) : BitVec 4 := w.extractLsb' 28 4

/-- `SYM = w[7:0]` (R93). -/
def symField (w : Word) : Sym := w.extractLsb' 0 8

/-- `IDX = w[8:0]` (R93). -/
def idxField (w : Word) : NodeIdx := w.extractLsb' 0 9

/-- `NBITS = w[20:16]` (R93). -/
def nbitsField (w : Word) : BitVec 5 := w.extractLsb' 16 5

/-- `BITS = w[15:0]` (R93). -/
def bitsField (w : Word) : BitVec 16 := w.extractLsb' 0 16

/-- The opcode an OP field names; none for the reserved 0xB to 0xF (R94). -/
def Opcode.ofField (op : BitVec 4) : Option Opcode :=
  match op with
  | 0x0#4 => some .clear
  | 0x1#4 => some .count
  | 0x2#4 => some .build
  | 0x3#4 => some .encStart
  | 0x4#4 => some .encSym
  | 0x5#4 => some .encEnd
  | 0x6#4 => some .decStart
  | 0x7#4 => some .decBits
  | 0x8#4 => some .decEnd
  | 0x9#4 => some .queryFreq
  | 0xA#4 => some .queryNode
  | _ => none

/-- The OP column of R94. -/
def Opcode.field : Opcode → BitVec 4
  | .clear => 0x0
  | .count => 0x1
  | .build => 0x2
  | .encStart => 0x3
  | .encSym => 0x4
  | .encEnd => 0x5
  | .decStart => 0x6
  | .decBits => 0x7
  | .decEnd => 0x8
  | .queryFreq => 0x9
  | .queryNode => 0xA

/-- The format column of R94. -/
def Opcode.format : Opcode → Format
  | .clear => .n
  | .count => .s
  | .build => .n
  | .encStart => .n
  | .encSym => .s
  | .encEnd => .n
  | .decStart => .n
  | .decBits => .b
  | .decEnd => .n
  | .queryFreq => .s
  | .queryNode => .i

/-- The `mask` column of R94: a 1 at every bit that must equal `match` (OP and the reserved bits of R92). -/
def Format.mask : Format → Word
  | .n => 0xFFFFFFFF
  | .s => 0xFFFFFF00
  | .i => 0xFFFFFE00
  | .b => 0xFFE00000

/-- The `match` column of R94: the word with every operand field 0. -/
def Opcode.base : Opcode → Word
  | .clear => 0x00000000
  | .count => 0x10000000
  | .build => 0x20000000
  | .encStart => 0x30000000
  | .encSym => 0x40000000
  | .encEnd => 0x50000000
  | .decStart => 0x60000000
  | .decBits => 0x70000000
  | .decEnd => 0x80000000
  | .queryFreq => 0x90000000
  | .queryNode => 0xA0000000

/-- The operands of a word whose opcode is known (R93, R95). -/
def Opcode.operands (op : Opcode) (w : Word) : Instr :=
  match op with
  | .clear => .clear
  | .count => .count (symField w)
  | .build => .build
  | .encStart => .encStart
  | .encSym => .encSym (symField w)
  | .encEnd => .encEnd
  | .decStart => .decStart
  | .decBits => .decBits (nbitsField w) (bitsField w)
  | .decEnd => .decEnd
  | .queryFreq => .queryFreq (symField w)
  | .queryNode => .queryNode (idxField w)

/-- Decode a command word: its opcode, the reserved bits, the chunk length of DEC_BITS, then the operands (R95, R96).
The answer never depends on the state (R99). -/
def decode (w : Word) : Except DecodeError Instr :=
  match Opcode.ofField (opField w) with
  | none => .error .reservedOpcode
  | some op =>
    if w &&& op.format.mask ≠ op.base then .error .reservedBits
    else if (op.operands w).wellFormed then .ok (op.operands w)
    else .error .badChunkLength

/-- Legality as R96 words it: OP is 0x0..0xA, `w AND mask = match` for that row, and for OP 0x7 `1 <= w[20:16] <= 16`. -/
def legalWord (w : Word) : Bool :=
  match Opcode.ofField (opField w) with
  | none => false
  | some op =>
    decide (w &&& op.format.mask = op.base) && (op != .decBits || decide (legalChunkLength (nbitsField w)))

/-- A format N word: OP and 28 zero bits (R92). -/
def wordN (op : BitVec 4) : Word := op ++ 0#28

/-- A format S word: OP, 20 zero bits, SYM (R92). -/
def wordS (op : BitVec 4) (sym : Sym) : Word := op ++ 0#20 ++ sym

/-- A format I word: OP, 19 zero bits, IDX (R92). -/
def wordI (op : BitVec 4) (idx : NodeIdx) : Word := op ++ 0#19 ++ idx

/-- A format B word: OP, 7 zero bits, NBITS, BITS (R92). -/
def wordB (op : BitVec 4) (nbits : BitVec 5) (bits : BitVec 16) : Word := op ++ 0#7 ++ nbits ++ bits

/-- The word of a command (R92, R94). -/
def encode : Instr → Word
  | .clear => wordN 0x0
  | .count sym => wordS 0x1 sym
  | .build => wordN 0x2
  | .encStart => wordN 0x3
  | .encSym sym => wordS 0x4 sym
  | .encEnd => wordN 0x5
  | .decStart => wordN 0x6
  | .decBits nbits bits => wordB 0x7 nbits bits
  | .decEnd => wordN 0x8
  | .queryFreq sym => wordS 0x9 sym
  | .queryNode idx => wordI 0xA idx

/-- The instruction the decoder reads from a table word: every command is one 32-bit word (R90), bits above `nbits` are 0
(log 14). -/
def decodeTableWord (nbits w : Nat) : Option Instr :=
  (decode (BitVec.ofNat 32 (w % 2 ^ nbits))).toOption

end Sys2Proof
end

