-- ==== Sys2Proof/Config.lean ====
section
/-! DEFINITION. The implementation parameters of 00_scope.md R8 and the values the spec leaves free. -/

namespace Sys2Proof

/-- The parameters a model takes (R8, R60, R64). They are fixed for a run: no step writes them. They stand in `State` so
that every claim quantifies over them (log 1). -/
structure Params where
  /-- FREQ_W, the width of each frequency counter, of TOTAL and of node frequencies. -/
  freqW : Nat
  /-- ENC_DEPTH, the words the encoder output FIFO holds. -/
  encDepth : Nat
  /-- DEC_DEPTH, the symbols the decoder output FIFO holds. -/
  decDepth : Nat
  /-- BASE, the host address of the register window (R60): the core itself addresses registers by offset alone. -/
  base : Nat
  /-- HOST_LANES (R64): byte lane `i` of a platform's narrower bus carries byte `hostLanes[i]` of the word. No behaviour
  of the core depends on it (U15). -/
  hostLanes : Vector (Fin 4) 4
  deriving DecidableEq, Repr

/-- The default parameters of R8. BASE and HOST_LANES have no default in the spec: DESIGN CHOICE, log 12. -/
def Params.default : Params :=
  { freqW := 32, encDepth := 16, decDepth := 32, base := 0, hostLanes := #v[0, 1, 2, 3] }

/-- The legal ranges of R8; a value outside is not a configuration of this hardware and a model refuses it (U4). -/
abbrev Params.Legal (p : Params) : Prop :=
  (1 ≤ p.freqW ∧ p.freqW ≤ 32) ∧ (8 ≤ p.encDepth ∧ p.encDepth ≤ 65535) ∧ (16 ≤ p.decDepth ∧ p.decDepth ≤ 65535)

/-- What a register read returns while BUSY = 1 where R68 says "any 32-bit value" (U1): a free value, one for each draw
(log 6). It has no body: no proof can see its value. -/
opaque Config.busyRead : Nat → Word

end Sys2Proof
end

