-- ==== Sys2Proof/Machine/State.lean ====
section
/-! DEFINITION. The state of the core (10_state.md R22) as plain data, the reasons a step can stop, and the state after
reset (70_reset_and_hazards.md R260). -/

namespace Sys2Proof.Machine

/-- The builder phase (R32). -/
inductive Phase where
  /-- The frequency table accepts COUNT and no tree exists. -/
  | count
  /-- BUILD has run: the tree exists, possibly empty. -/
  | built
  deriving DecidableEq, Repr

/-- A session state (R33). The value 3 is never held (log 21). -/
inductive Session where
  /-- No session is open. -/
  | idle
  /-- A session is open and accepts its data commands. -/
  | active
  /-- The session ended with an error and accepts nothing but its START. -/
  | failed
  deriving DecidableEq, Repr

/-- The result codes 0 to 10 of R230; 11 to 15 are never written (log 21). -/
inductive ResultCode where
  | ok
  | unknownSymbol
  | malformedEncoding
  | truncatedEncoding
  | emptyTreeDecode
  | illegalCommand
  | phaseError
  | outputFull
  | freqOverflow
  | sessionFailed
  | badIndex
  deriving DecidableEq, Repr

/-- The units that have sessions (R2, R249). -/
inductive CodecUnit where
  | encoder
  | decoder
  deriving DecidableEq, Repr

/-- One entry of the node store (R40). -/
structure Node where
  /-- LEAF: 1 for a leaf, 0 for an internal node. -/
  leaf : Bool
  /-- SYM: a leaf's symbol, 0 for an internal node. -/
  sym : Sym
  /-- FREQ: a leaf's count, or the sum of the children's FREQ. -/
  freq : Count
  /-- LEFT: the left child's index, 0 for a leaf. -/
  left : NodeIdx
  /-- RIGHT: the right child's index, 0 for a leaf. -/
  right : NodeIdx
  deriving DecidableEq, Repr

/-- The sixteen registers of the window (R23). -/
inductive Reg where
  | id
  | config
  | depths
  | cmd
  | status
  | errInfo
  | treeInfo
  | total
  | encData
  | encBitcntLo
  | encBitcntHi
  | decData
  | levels
  | rdata0
  | rdata1
  /-- Offset 0x3C (R25). -/
  | reserved
  deriving DecidableEq, Repr

/-- What the environment does next (R7, R14, R67, R260, R275). `size` is in bytes; only 4 has a meaning (R62). -/
inductive Event where
  /-- `MemRead(off, size)`: a host bus read. -/
  | read (off size : Nat)
  /-- `MemWrite(off, size, v)`: a host bus write. -/
  | write (off size : Nat) (v : Word)
  /-- The device's turn: it takes its Complete step if a command is latched. -/
  | complete
  /-- The reset input is asserted. -/
  | reset
  deriving DecidableEq, Repr

/-- The state: the device state of R22 (whole), the parameters of R8, and the model's own record of the environment. -/
structure State where
  /-- The parameters of R8; no step writes them (log 1). -/
  params : Params
  /-- PHASE (R32). -/
  phase : Phase
  /-- freq[0..255] (R38). -/
  freq : Vector Count 256
  /-- TOTAL (R39). -/
  total : Count
  /-- NLEAF (R41). -/
  nleaf : NodeIdx
  /-- ROOT (R41). -/
  root : NodeIdx
  /-- The node store (R40): the entries that hold a value, entry `i` at place `i`. An entry from the list's length on
  holds no value (R22, R40, log 8). -/
  node : List Node
  /-- ENC_STATE (R33). -/
  encState : Session
  /-- ENC_ERR (R34); `ok` is its value 0. -/
  encErr : ResultCode
  /-- ENC_ACC (R42). -/
  encAcc : Word
  /-- ENC_ACCN (R42). -/
  encAccn : BitVec 5
  /-- ENC_BITCNT (R42). -/
  encBitcnt : BitVec 64
  /-- ENC_FIFO (R42), head first. -/
  encFifo : List Word
  /-- DEC_STATE (R33). -/
  decState : Session
  /-- DEC_ERR (R34); `ok` is its value 0. -/
  decErr : ResultCode
  /-- DEC_CURSOR (R43). -/
  decCursor : NodeIdx
  /-- DEC_POS (R43). -/
  decPos : BitVec 64
  /-- DEC_FIFO (R43), head first. -/
  decFifo : List Sym
  /-- RESULT (R34). -/
  result : ResultCode
  /-- ERR_INFO (R35). -/
  errInfo : Word
  /-- RDATA0 (R37). -/
  rdata0 : Word
  /-- RDATA1 (R37). -/
  rdata1 : Word
  /-- BUSY and PENDING (R44): the latched command word while BUSY = 1; while BUSY = 0 PENDING has no value (U6, log 7). -/
  pending : Option Word
  /-- OVERRUN (R44). -/
  overrun : Bool
  /-- The model's own: what the environment does next, first event first (log 3). -/
  events : List Event
  /-- The model's own: the values the host has read, oldest first (R274, log 5). -/
  reads : List Word
  /-- The model's own: how many free values reads have drawn (R68, log 6). -/
  draws : Nat
  deriving DecidableEq, Repr

/-- BUSY: a command is latched and not yet complete (R44). -/
abbrev State.busy (s : State) : Bool := s.pending.isSome

/-- Why the machine stops with a fault. The spec gives the core no trap (R231): both are the model's own, raised only in
states no run reaches. -/
inductive Fault where
  /-- The decoder's walk (DEC_BITS) or QUERY_NODE reads a node-store entry that holds no value. R40 says no rule reads one;
  safe: the model stops where the spec gives no value (log 8). -/
  | undefinedNode
  /-- ENC_SYM: the search finds no path from ROOT to the symbol's leaf. R133 says there always is one after BUILD; safe:
  the model stops where the spec defines no code (log 9). -/
  | noPath
  deriving DecidableEq, Repr

/-- What the model gives no meaning (R240). -/
inductive Refusal where
  /-- An instruction without a meaning; no arm of `exec` raises it now. Safe: the model stops. -/
  | notModelled (mnemonic : String)
  /-- The step, in a state whose parameters are outside R8's ranges (R8, U4). Safe: the spec refuses it. -/
  | illegalConfiguration
  /-- A host access of a width other than 32 bits (R62, U2). Safe: the spec refuses it. -/
  | accessWidth
  /-- A host access at an offset that is not a multiple of 4 (R62, U2). Safe: the spec refuses it. -/
  | misaligned
  /-- A host access at offset 0x40 or beyond (R63, U3). Safe: the spec refuses it. -/
  | outsideWindow
  deriving DecidableEq, Repr

/-- The state after reset, with the default parameters (R260, R263): the spec gives every value of the device state. -/
def State.reset : State :=
  { params := Params.default
    phase := .count
    freq := Vector.replicate 256 0
    total := 0
    nleaf := 0
    root := 0
    node := []
    encState := .idle
    encErr := .ok
    encAcc := 0
    encAccn := 0
    encBitcnt := 0
    encFifo := []
    decState := .idle
    decErr := .ok
    decCursor := 0
    decPos := 0
    decFifo := []
    result := .ok
    errInfo := 0
    rdata0 := 0
    rdata1 := 0
    pending := none
    overrun := false
    events := []
    reads := []
    draws := 0 }

end Sys2Proof.Machine
end

