-- ==== Sys2Proof/Machine/Operands.lean ====
section
/-! DEFINITION. What commands read: the frequency table, node indices and codes, the bits of a chunk and of a word. -/

namespace Sys2Proof.Machine

/-- MAX_TOTAL = 2^FREQ_W - 1 (R8). -/
def maxTotal (p : Params) : Nat := 2 ^ p.freqW - 1

/-- The sum of two counters as FREQ_W bits hold it (R22, R38, log 10). No run makes it wrap (R39, R123, R130). -/
def addCount (p : Params) (a b : Count) : Count := BitVec.ofNat 32 ((a.toNat + b.toNat) % 2 ^ p.freqW)

/-- `freq[s]` (R38). -/
def freqAt (freq : Vector Count 256) (sym : Sym) : Count := freq[sym.toNat]'sym.isLt

/-- `freq[s] <- v` (R123). -/
def setFreq (freq : Vector Count 256) (sym : Sym) (v : Count) : Vector Count 256 := freq.set sym.toNat v sym.isLt

/-- The 256 symbols in ascending order of value (R8, R128). -/
def allSymbols : List Sym := (List.range 256).map (BitVec.ofNat 8)

/-- `P`: the symbols with `freq[s] > 0` in ascending order of value (R128). -/
def presentSymbols (freq : Vector Count 256) : List Sym := allSymbols.filter fun sym => freqAt freq sym != 0

/-- `leafidx(s)`: the number of symbols `t < s` with `freq[t] > 0` (R16, R128). -/
def leafIdx (freq : Vector Count 256) (sym : Sym) : Nat :=
  ((presentSymbols freq).filter fun t => decide (t.toNat < sym.toNat)).length

/-- "Symbol `s` has a leaf": PHASE = BUILT and `freq[s] > 0` (R49, R158). -/
def hasLeaf (s : State) (sym : Sym) : Bool := s.phase = .built && freqAt s.freq sym != 0

/-- "Tree empty": PHASE = BUILT and NLEAF = 0 (R41, R49). -/
def treeEmpty (s : State) : Bool := s.phase = .built && s.nleaf = 0

/-- NNODE: 0 if NLEAF = 0, otherwise 2*NLEAF - 1 (R16, R49). -/
def nnode (s : State) : Nat := if s.nleaf = 0 then 0 else 2 * s.nleaf.toNat - 1

/-- The longest search `path` makes: a tree of at most 256 leaves has depth at most 255 (R9, R130), so a path visits at
most 256 nodes (log 9). -/
def maxPathNodes : Nat := 256

/-- `path(n, t)` of R151, as the source's depth-first search: the bits from node `n` down to node `t`, left (0) before
right (1), none where `t` is not under `n`. `fuel` bounds how many nodes it may visit on one path. -/
def findPath (node : List Node) (t : NodeIdx) : Nat → NodeIdx → Option (List Bool)
  | 0, _ => none
  | fuel + 1, n =>
    if n = t then some []
    else
      match node[n.toNat]? with
      | none => none
      | some nd =>
        if nd.leaf then none
        else
          match findPath node t fuel nd.left with
          | some p => some (false :: p)
          | none => (findPath node t fuel nd.right).map (true :: ·)

/-- `Code(s)` (R151): the single bit 0 in a one-leaf tree (R162), else the path from ROOT to the symbol's leaf. -/
def codeOf (s : State) (sym : Sym) : Option (List Bool) :=
  if s.nleaf = 1 then some [false]
  else findPath s.node (BitVec.ofNat 9 (leafIdx s.freq sym)) maxPathNodes s.root

/-- The words an ENC_SYM completes: `(ENC_ACCN + len(c)) div 32` (R157). -/
def wordsCompleted (s : State) (code : List Bool) : Nat := (s.encAccn.toNat + code.length) / 32

/-- The chunk of DEC_BITS: bit `k` is `BITS[15 - k]`, for `k = 0 .. NBITS-1` (R93, R184). -/
def chunkBits (nbits : BitVec 5) (bits : BitVec 16) : List Bool :=
  (List.range nbits.toNat).map fun k => bits.getLsbD (15 - k)

/-- The bits of a packed output word, from bit 31 down to bit 0 (R155, R161). -/
def wordBits (w : Word) : List Bool := (List.range 32).map fun k => w.getLsbD (31 - k)

/-- `v[i] <- b` in a 32-bit word (R11, R155). -/
def setBit (v : Word) (i : Nat) (b : Bool) : Word :=
  if b then v ||| BitVec.twoPow 32 i else v &&& ~~~BitVec.twoPow 32 i

/-- The bits an encoder session holds, in emission order: the words in ENC_FIFO, then the ENC_ACCN bits of ENC_ACC
(R42, R155, R161). -/
def encodedBits (s : State) : List Bool := s.encFifo.flatMap wordBits ++ (wordBits s.encAcc).take s.encAccn.toNat

end Sys2Proof.Machine
end

