-- ==== Sys2Proof/Machine/Flags.lean ====
section
/-! DEFINITION. The status fields and the register views: every register but CMD is a function of the state and the
parameters (10_state.md R26). -/

namespace Sys2Proof.Machine

/-- PHASE as a bit: COUNT = 0, BUILT = 1 (R22, R31). -/
def Phase.bits : Phase → BitVec 1
  | .count => 0
  | .built => 1

/-- A session state as two bits: IDLE = 0, ACTIVE = 1, FAILED = 2 (R22, R31). -/
def Session.bits : Session → BitVec 2
  | .idle => 0
  | .active => 1
  | .failed => 2

/-- The numbers of R230. -/
def ResultCode.bits : ResultCode → BitVec 4
  | .ok => 0
  | .unknownSymbol => 1
  | .malformedEncoding => 2
  | .truncatedEncoding => 3
  | .emptyTreeDecode => 4
  | .illegalCommand => 5
  | .phaseError => 6
  | .outputFull => 7
  | .freqOverflow => 8
  | .sessionFailed => 9
  | .badIndex => 10

/-- Codes 5 to 10: a reject changes nothing but RESULT (R230, R233). -/
def ResultCode.isReject (c : ResultCode) : Bool := decide (5 ≤ c.bits.toNat)

/-- Codes 1 to 4: the source's four error kinds, which end their unit's session (R230, R234). -/
def ResultCode.isFailure (c : ResultCode) : Bool := decide (1 ≤ c.bits.toNat ∧ c.bits.toNat ≤ 4)

/-- The unit whose session a failure code ends (R230). -/
def ResultCode.failingUnit : ResultCode → Option CodecUnit
  | .unknownSymbol => some .encoder
  | .malformedEncoding | .truncatedEncoding | .emptyTreeDecode => some .decoder
  | .ok | .illegalCommand | .phaseError | .outputFull | .freqOverflow | .sessionFailed | .badIndex => none

/-- ID: the constant 0x48554631 (R27). -/
def idWord : Word := 0x48554631

/-- CONFIG: OUT_W = 32, FREQ_W, SYM_W = 8 (R28). -/
def configWord (p : Params) : Word := 0#8 ++ 32#8 ++ BitVec.ofNat 8 p.freqW ++ 8#8

/-- DEPTHS: DEC_DEPTH above ENC_DEPTH (R29). -/
def depthsWord (p : Params) : Word := BitVec.ofNat 16 p.decDepth ++ BitVec.ofNat 16 p.encDepth

/-- STATUS (R31). -/
def statusWord (s : State) : Word :=
  0#12 ++ s.decErr.bits ++ s.encErr.bits ++ s.result.bits ++ 0#1 ++ BitVec.ofBool s.overrun ++ s.decState.bits ++
    s.encState.bits ++ s.phase.bits ++ BitVec.ofBool s.busy

/-- The bits of STATUS that are neither BUSY, OVERRUN nor reserved (R31): any value while BUSY = 1 (R68). -/
def statusOpenMask : Word := 0x000FFF3E

/-- STATUS while BUSY = 1: bit 0 reads 1, bit 6 reads OVERRUN, reserved bits read 0, every other field is the free value
(R68). -/
def statusWordBusy (s : State) (free : Word) : Word :=
  (free &&& statusOpenMask) ||| (if s.overrun then 0x00000040 else 0) ||| 0x00000001

/-- TREE_INFO: ROOT and NLEAF (R36). -/
def treeInfoWord (s : State) : Word := 0#7 ++ s.root ++ 0#7 ++ s.nleaf

/-- DEC_DATA with a symbol at the FIFO's head: VALID = 1 and SYM (R37). -/
def decDataWord (sym : Sym) : Word := 1#1 ++ 0#23 ++ sym

/-- LEVELS: DEC_LEVEL above ENC_LEVEL (R37). -/
def levelsWord (s : State) : Word := BitVec.ofNat 16 s.decFifo.length ++ BitVec.ofNat 16 s.encFifo.length

/-- RDATA1 of QUERY_NODE: LEAF, five zero bits, RIGHT, LEFT, SYM (R213). -/
def nodeWord (nd : Node) : Word := BitVec.ofBool nd.leaf ++ 0#5 ++ nd.right ++ nd.left ++ nd.sym

/-- The byte offset of a register (R23). -/
def Reg.offset : Reg → Nat
  | .id => 0x00
  | .config => 0x04
  | .depths => 0x08
  | .cmd => 0x0C
  | .status => 0x10
  | .errInfo => 0x14
  | .treeInfo => 0x18
  | .total => 0x1C
  | .encData => 0x20
  | .encBitcntLo => 0x24
  | .encBitcntHi => 0x28
  | .decData => 0x2C
  | .levels => 0x30
  | .rdata0 => 0x34
  | .rdata1 => 0x38
  | .reserved => 0x3C

/-- The registers in the order of R23. -/
def Reg.all : List Reg :=
  [.id, .config, .depths, .cmd, .status, .errInfo, .treeInfo, .total, .encData, .encBitcntLo, .encBitcntHi, .decData,
    .levels, .rdata0, .rdata1, .reserved]

/-- The register at a byte offset of the window (R23, R60). -/
def Reg.ofOffset (off : Nat) : Option Reg := Reg.all.find? fun r => r.offset = off

end Sys2Proof.Machine
end

