-- ==== Sys2Proof/Machine/Ops.lean ====
section
/-! DEFINITION. The operations the commands share: how a command ends (00_scope.md R15), sessions, FIFOs, the encoder's
packing and the decoder's walk. -/

namespace Sys2Proof.Machine

/-! ### How a command ends (R15, R230) -/

/-- `st.RESULT <- c`. -/
def State.withResult (s : State) (c : ResultCode) : State := { s with result := c }

/-- `ok()` (R15). -/
def finishOk (s : State) : Host.Outcome State Fault Refusal := .next (s.withResult .ok)

/-- `reject(code)`: RESULT and nothing else (R15, R233). -/
def reject (c : ResultCode) (s : State) : Host.Outcome State Fault Refusal := .next (s.withResult c)

/-- `fail(unit, code, info)`, the hardware's "trap entry" (R15, R234): RESULT, the unit's session state and error field,
and ERR_INFO; every change made before stays. -/
def State.failSession (s : State) (u : CodecUnit) (c : ResultCode) (info : Word) : State :=
  match u with
  | .encoder => { s with result := c, encState := .failed, encErr := c, errInfo := info }
  | .decoder => { s with result := c, decState := .failed, decErr := c, errInfo := info }

/-! ### Sessions (R33, R153, R182, R237) -/

/-- The session state of a unit (R33). -/
def State.session (s : State) : CodecUnit → Session
  | .encoder => s.encState
  | .decoder => s.decState

/-- The phase and session checks of a data or END command, in the order of R232 (items 2 and 3): the reject they lead to,
none where the session is open. -/
def sessionCheck (u : CodecUnit) (s : State) : Option ResultCode :=
  if s.phase = .count then some .phaseError
  else
    match s.session u with
    | .idle => some .phaseError
    | .failed => some .sessionFailed
    | .active => none

/-- What ENC_START does to the encoder (R153): a new session, and the way out of FAILED (R237). -/
def State.openEncoder (s : State) : State :=
  { s with encState := .active, encErr := .ok, encAcc := 0, encAccn := 0, encBitcnt := 0, encFifo := [] }

/-- What DEC_START does to the decoder (R182): a new session, and the way out of FAILED (R237). -/
def State.openDecoder (s : State) : State :=
  { s with decState := .active, decErr := .ok, decCursor := s.root, decPos := 0, decFifo := [] }

/-- What CLEAR does before `ok()` (R121): every field of R22 to its reset value but BUSY, PENDING, OVERRUN and RESULT. -/
def State.cleared (s : State) : State :=
  { s with
    phase := .count
    freq := Vector.replicate 256 0
    total := 0
    nleaf := 0
    root := 0
    node := []
    encState := .idle
    encErr := .ok
    encAcc := 0
    encAccn := 0
    encBitcnt := 0
    encFifo := []
    decState := .idle
    decErr := .ok
    decCursor := 0
    decPos := 0
    decFifo := []
    errInfo := 0
    rdata0 := 0
    rdata1 := 0 }

/-! ### The encoder's packing (R155, R156) -/

/-- `append_bit(b)` (R155): the bit goes to `ENC_ACC[31 - ENC_ACCN]`; a 32nd bit completes the word. -/
def appendBit (s : State) (b : Bool) : State :=
  if s.encAccn = 31 then
    { s with encFifo := s.encFifo ++ [setBit s.encAcc (31 - s.encAccn.toNat) b], encAcc := 0, encAccn := 0 }
  else { s with encAcc := setBit s.encAcc (31 - s.encAccn.toNat) b, encAccn := s.encAccn + 1 }

/-- `for b in c, first to last: append_bit(b)` (R156). -/
def appendBits (s : State) (code : List Bool) : State := code.foldl appendBit s

/-- Append a code and count its bits, modulo 2^64 (R156). -/
def emitCode (s : State) (code : List Bool) : State :=
  { appendBits s code with encBitcnt := s.encBitcnt + BitVec.ofNat 64 code.length }

/-- What ENC_END does to a held partial word (R160): it is pushed, its unused low bits 0. -/
def flushWord (s : State) : State :=
  if s.encAccn = 0 then s else { s with encFifo := s.encFifo ++ [s.encAcc], encAcc := 0, encAccn := 0 }

/-! ### The decoder's walk (R187) -/

/-- The outcome of one bit: CONTINUE, STOP after a failure, or a node entry that holds no value (log 8). -/
inductive BitOutcome where
  | more (s : State)
  | stop (s : State)
  | undefinedNode
  deriving DecidableEq, Repr

/-- One bit is consumed (R187). -/
def State.bitTaken (s : State) : State := { s with decPos := s.decPos + 1 }

/-- One symbol is emitted (R187). -/
def State.pushSymbol (s : State) (sym : Sym) : State := { s with decFifo := s.decFifo ++ [sym] }

/-- `dec_bit(b)` (R187). -/
def decBit (b : Bool) (s : State) : BitOutcome :=
  match s.node[s.decCursor.toNat]? with
  | none => .undefinedNode
  | some c =>
    if c.leaf then
      if b then .stop (s.failSession .decoder .malformedEncoding (s.decPos.setWidth 32))
      else .more (s.pushSymbol c.sym).bitTaken
    else
      let m := if b then c.right else c.left
      match s.node[m.toNat]? with
      | none => .undefinedNode
      | some d =>
        if d.leaf then .more { (s.pushSymbol d.sym).bitTaken with decCursor := s.root }
        else .more { s.bitTaken with decCursor := m }

/-- The bits of a chunk in order; the bits after a failing one are discarded (R185). -/
def decChunk : List Bool → State → Host.Outcome State Fault Refusal
  | [], s => finishOk s
  | b :: bs, s =>
    match decBit b s with
    | .more s' => decChunk bs s'
    | .stop s' => .next s'
    | .undefinedNode => .fault .undefinedNode

end Sys2Proof.Machine
end

