-- ==== Sys2Proof/Machine/Bus.lean ====
section
/-! DEFINITION. The host's bus accesses (20_memory.md R62 to R70). -/

namespace Sys2Proof.Machine

/-- The register an access reaches, or why the model refuses it: only 32-bit accesses at multiples of 4 below 0x40 have a
meaning (R62, R63, R240; the order of the three checks is log 15). -/
def accessedReg (off size : Nat) : Except Refusal Reg :=
  if size ≠ 4 then .error .accessWidth
  else if off % 4 ≠ 0 then .error .misaligned
  else
    match Reg.ofOffset off with
    | none => .error .outsideWindow
    | some r => .ok r

/-- `MemRead` while BUSY = 0 (R65): the value, and the state with the FIFO's head removed where the register pops. -/
def readIdle (r : Reg) (s : State) : Word × State :=
  match r with
  | .id => (idWord, s)
  | .config => (configWord s.params, s)
  | .depths => (depthsWord s.params, s)
  | .cmd => (0, s)
  | .status => (statusWord s, s)
  | .errInfo => (s.errInfo, s)
  | .treeInfo => (treeInfoWord s, s)
  | .total => (s.total, s)
  | .encData =>
    match s.encFifo with
    | [] => (0, s)
    | w :: ws => (w, { s with encFifo := ws })
  | .encBitcntLo => (s.encBitcnt.extractLsb' 0 32, s)
  | .encBitcntHi => (s.encBitcnt.extractLsb' 32 32, s)
  | .decData =>
    match s.decFifo with
    | [] => (0, s)
    | sym :: syms => (decDataWord sym, { s with decFifo := syms })
  | .levels => (levelsWord s, s)
  | .rdata0 => (s.rdata0, s)
  | .rdata1 => (s.rdata1, s)
  | .reserved => (0, s)

/-- A value read while BUSY = 1 that R68 leaves open: the free value of this draw, and the next draw is another (log 6). -/
def drawRead (s : State) : Word × State := (Config.busyRead s.draws, { s with draws := s.draws + 1 })

/-- `MemRead` while BUSY = 1 (R68): the constants, BUSY and OVERRUN, else any value; nothing pops. -/
def readBusy (r : Reg) (s : State) : Word × State :=
  match r with
  | .id => (idWord, s)
  | .config => (configWord s.params, s)
  | .depths => (depthsWord s.params, s)
  | .cmd => (0, s)
  | .reserved => (0, s)
  | .status => (statusWordBusy s (drawRead s).1, (drawRead s).2)
  | .errInfo | .treeInfo | .total | .encData | .encBitcntLo | .encBitcntHi | .decData | .levels | .rdata0 | .rdata1 =>
    drawRead s

/-- `MemRead(off, 4)` of a register in any state (R65, R68). -/
def readReg (r : Reg) (s : State) : Word × State := if s.busy then readBusy r s else readIdle r s

/-- The host has read a value (R274: part of the observation of a run; log 5). -/
def State.hostGot (s : State) (v : Word) : State := { s with reads := s.reads ++ [v] }

/-- A CMD write while BUSY = 0 latches the word and sets BUSY (R66). -/
def State.latch (s : State) (w : Word) : State := { s with pending := some w }

/-- `MemWrite(off, 4, v)` of a register: CMD latches (R66), or is dropped with OVERRUN while BUSY = 1 (R69); any other
register keeps its value (R70). -/
def writeReg (r : Reg) (v : Word) (s : State) : State :=
  match r with
  | .cmd => if s.busy then { s with overrun := true } else s.latch v
  | .id | .config | .depths | .status | .errInfo | .treeInfo | .total | .encData | .encBitcntLo | .encBitcntHi | .decData
  | .levels | .rdata0 | .rdata1 | .reserved => s

/-- A host bus read. -/
def hostRead (off size : Nat) (s : State) : Host.Outcome State Fault Refusal :=
  match accessedReg off size with
  | .error e => .refused e
  | .ok r => .next ((readReg r s).2.hostGot (readReg r s).1)

/-- A host bus write. -/
def hostWrite (off size : Nat) (v : Word) (s : State) : Host.Outcome State Fault Refusal :=
  match accessedReg off size with
  | .error e => .refused e
  | .ok r => .next (writeReg r v s)

/-- The reset input (R260): every field of R22 to its reset value, a command in progress abandoned. The parameters stay, and
so do the model's records of the environment (log 11). -/
def resetDevice (s : State) : State :=
  { State.reset with params := s.params, events := s.events, reads := s.reads, draws := s.draws }

/-- The host address of a register: the core addresses registers by offset alone, BASE is the platform's (R60). -/
def hostAddress (p : Params) (r : Reg) : Nat := p.base + r.offset

/-- The byte of a word that lane `i` of a platform's byte-addressed bus carries (R64, D28); byte 0 is `w[7:0]`. -/
def laneByte (p : Params) (w : Word) (i : Fin 4) : BitVec 8 := w.extractLsb' (8 * (p.hostLanes[i]).val) 8

end Sys2Proof.Machine
end

