-- ==== Sys2Proof/Machine/Tree.lean ====
section
/-! DEFINITION. The forest reduction of BUILD (40_builder.md R128 to R132): the working set, the priority queue's
extraction order, the node store it leaves. -/

namespace Sys2Proof.Machine

/-- A member of the working set: a node index with the FREQ of that node, its key (R131). -/
structure Item where
  freq : Count
  idx : Nat
  deriving DecidableEq, Repr

/-- The order of the keys `(node[i].FREQ, i)`: first by FREQ, then by index, smaller first (R131). -/
def Item.before (a b : Item) : Bool :=
  decide (a.freq.toNat < b.freq.toNat ∨ (a.freq.toNat = b.freq.toNat ∧ a.idx < b.idx))

/-- The member with the smallest key (R131). -/
def minItem : Item → List Item → Item
  | x, [] => x
  | x, y :: ys => minItem (if y.before x then y else x) ys

/-- `extract_min(W)` (R131): the member with the smallest key, and the others. -/
def extractMin : List Item → Option (Item × List Item)
  | [] => none
  | x :: xs => some (minItem x xs, (x :: xs).erase (minItem x xs))

/-- The leaf node of a symbol (R40, R128). -/
def leafNode (freq : Vector Count 256) (sym : Sym) : Node :=
  { leaf := true, sym := sym, freq := freqAt freq sym, left := 0, right := 0 }

/-- `seed_leaves()` (R128): one leaf per symbol with `freq[s] > 0`, in ascending order of symbol value. -/
def seedLeaves (freq : Vector Count 256) : List Node := (presentSymbols freq).map (leafNode freq)

/-- The internal node one merge makes: the first extracted is LEFT, the second RIGHT, FREQ is the sum (R130, R132). -/
def mergeNode (p : Params) (a b : Item) : Node :=
  { leaf := false, sym := 0, freq := addCount p a.freq b.freq, left := BitVec.ofNat 9 a.idx,
    right := BitVec.ofNat 9 b.idx }

/-- `reduce_forest()` (R130): while more than one member is left, merge the two smallest. `next` is the length of the
store. Each pass removes two members and adds one, so `fuel` = the number of leaves is enough. -/
def reduceForest (p : Params) : Nat → List Item → List Node → List Node
  | 0, _, node => node
  | fuel + 1, w, node =>
    match extractMin w with
    | none => node
    | some (a, w1) =>
      match extractMin w1 with
      | none => node
      | some (b, w2) =>
        reduceForest p fuel (w2 ++ [{ freq := addCount p a.freq b.freq, idx := node.length }])
          (node ++ [mergeNode p a b])

/-- The working set a list of leaves starts with: `{0, 1, ..., L-1}`, each with its key (R130). -/
def seedItems : Nat → List Node → List Item
  | _, [] => []
  | i, nd :: nds => { freq := nd.freq, idx := i } :: seedItems (i + 1) nds

/-- The node store BUILD leaves (R128 to R130). -/
def buildNodes (p : Params) (freq : Vector Count 256) : List Node :=
  reduceForest p (seedLeaves freq).length (seedItems 0 (seedLeaves freq)) (seedLeaves freq)

/-- L, the number of symbols with `freq[s] > 0` (R128). -/
def leafCount (freq : Vector Count 256) : Nat := (presentSymbols freq).length

/-- ROOT after BUILD: `next - 1` for L >= 2 (R130), 0 for L <= 1 (R129). -/
def buildRoot (p : Params) (freq : Vector Count 256) : NodeIdx :=
  if leafCount freq ≤ 1 then 0 else BitVec.ofNat 9 ((buildNodes p freq).length - 1)

/-- What BUILD writes (R126): the node store, NLEAF, ROOT and PHASE. -/
def State.builtTree (s : State) : State :=
  { s with
    node := buildNodes s.params s.freq
    nleaf := BitVec.ofNat 9 (leafCount s.freq)
    root := buildRoot s.params s.freq
    phase := .built }

end Sys2Proof.Machine
end

