-- ==== Sys2Proof/Machine/Builder.lean ====
section
/-! DEFINITION. The tree builder's commands (40_builder.md). -/

namespace Sys2Proof.Machine

/-- CLEAR (R121): accepted in every phase and session state. -/
def execClear (s : State) : Host.Outcome State Fault Refusal := finishOk s.cleared

/-- COUNT sym (R123, R124). -/
def execCount (sym : Sym) (s : State) : Host.Outcome State Fault Refusal :=
  if s.phase = .built then reject .phaseError s
  else if s.total.toNat = maxTotal s.params then reject .freqOverflow s
  else
    finishOk
      { s with
        freq := setFreq s.freq sym (addCount s.params (freqAt s.freq sym) 1)
        total := addCount s.params s.total 1 }

/-- BUILD (R126). -/
def execBuild (s : State) : Host.Outcome State Fault Refusal :=
  if s.phase = .built then reject .phaseError s else finishOk s.builtTree

end Sys2Proof.Machine
end

