-- ==== Sys2Proof/Machine/Decoder.lean ====
section
/-! DEFINITION. The decoder's commands (42_decoder.md). -/

namespace Sys2Proof.Machine

/-- DEC_START (R182): accepted from every decoder state once a tree is built. -/
def execDecStart (s : State) : Host.Outcome State Fault Refusal :=
  if s.phase = .count then reject .phaseError s else finishOk s.openDecoder

/-- DEC_BITS nbits, bits (R185): ILLEGAL_COMMAND for a chunk length R96 does not allow, before anything else (log 16); then
the checks of R232 in order, then the walk. -/
def execDecBits (nbits : BitVec 5) (bits : BitVec 16) (s : State) : Host.Outcome State Fault Refusal :=
  if ¬legalChunkLength nbits then reject .illegalCommand s
  else
    match sessionCheck .decoder s with
    | some c => reject c s
    | none =>
      if s.nleaf = 0 then .next (s.failSession .decoder .emptyTreeDecode (s.decPos.setWidth 32))
      else if s.params.decDepth - s.decFifo.length < nbits.toNat then reject .outputFull s
      else decChunk (chunkBits nbits bits) s

/-- DEC_END (R190): a code in progress is TRUNCATED_ENCODING. -/
def execDecEnd (s : State) : Host.Outcome State Fault Refusal :=
  match sessionCheck .decoder s with
  | some c => reject c s
  | none =>
    if s.decCursor ≠ s.root then .next (s.failSession .decoder .truncatedEncoding (s.decPos.setWidth 32))
    else finishOk { s with decState := .idle }

end Sys2Proof.Machine
end

