-- ==== Sys2Proof/Machine/Encoder.lean ====
section
/-! DEFINITION. The encoder's commands (41_encoder.md). -/

namespace Sys2Proof.Machine

/-- ENC_START (R153): accepted from every encoder state once a tree is built. -/
def execEncStart (s : State) : Host.Outcome State Fault Refusal :=
  if s.phase = .count then reject .phaseError s else finishOk s.openEncoder

/-- ENC_SYM sym (R156): the checks of R232 in order, then the code is appended whole or not at all (R157). -/
def execEncSym (sym : Sym) (s : State) : Host.Outcome State Fault Refusal :=
  match sessionCheck .encoder s with
  | some c => reject c s
  | none =>
    if freqAt s.freq sym = 0 then .next (s.failSession .encoder .unknownSymbol (sym.setWidth 32))
    else
      match codeOf s sym with
      | none => .fault .noPath
      | some code =>
        if s.params.encDepth - s.encFifo.length < wordsCompleted s code then reject .outputFull s
        else finishOk (emitCode s code)

/-- ENC_END (R160): a partial word needs one free entry. -/
def execEncEnd (s : State) : Host.Outcome State Fault Refusal :=
  match sessionCheck .encoder s with
  | some c => reject c s
  | none =>
    if s.encAccn ≠ 0 ∧ s.params.encDepth - s.encFifo.length < 1 then reject .outputFull s
    else finishOk { flushWord s with encState := .idle }

end Sys2Proof.Machine
end

