-- ==== Sys2Proof/Machine/Inspect.lean ====
section
/-! DEFINITION. The inspection commands (43_inspect.md). -/

namespace Sys2Proof.Machine

/-- QUERY_FREQ sym (R211): accepted in both phases and every session state. -/
def execQueryFreq (sym : Sym) (s : State) : Host.Outcome State Fault Refusal :=
  finishOk { s with rdata0 := freqAt s.freq sym, rdata1 := 0 }

/-- QUERY_NODE idx (R214): only indices below NNODE name defined nodes (R215). -/
def execQueryNode (idx : NodeIdx) (s : State) : Host.Outcome State Fault Refusal :=
  if s.phase = .count then reject .phaseError s
  else if nnode s ≤ idx.toNat then reject .badIndex s
  else
    match s.node[idx.toNat]? with
    | none => .fault .undefinedNode
    | some nd => finishOk { s with rdata0 := nd.freq, rdata1 := nodeWord nd }

end Sys2Proof.Machine
end

