-- ==== Sys2Proof/Machine/Dispatch.lean ====
section
/-! DEFINITION. Dispatch of a command (30_encoding.md R95): one arm per constructor of Instr. -/

namespace Sys2Proof.Machine

def exec (i : Instr) (s : State) : Host.Outcome State Fault Refusal :=
  match i with
  | .clear => Sys2Proof.Machine.execClear s
  | .count sym => Sys2Proof.Machine.execCount sym s
  | .build => Sys2Proof.Machine.execBuild s
  | .encStart => Sys2Proof.Machine.execEncStart s
  | .encSym sym => Sys2Proof.Machine.execEncSym sym s
  | .encEnd => Sys2Proof.Machine.execEncEnd s
  | .decStart => Sys2Proof.Machine.execDecStart s
  | .decBits nbits bits => Sys2Proof.Machine.execDecBits nbits bits s
  | .decEnd => Sys2Proof.Machine.execDecEnd s
  | .queryFreq sym => Sys2Proof.Machine.execQueryFreq sym s
  | .queryNode idx => Sys2Proof.Machine.execQueryNode idx s

end Sys2Proof.Machine
end

