-- ==== Sys2Proof/Machine/Device.lean ====
section
/-! DEFINITION. The device's Complete step (20_memory.md R67, 30_encoding.md R95) and what each event does. -/

namespace Sys2Proof.Machine

/-- `st.BUSY <- 0`: no command is latched, and PENDING is no longer read (R44, R48, R67). -/
def State.unlatch (s : State) : State := { s with pending := none }

/-- What follows the outcome of a command: a completed command clears BUSY (R67). -/
def thenUnlatch : Host.Outcome State Fault Refusal → Host.Outcome State Fault Refusal
  | .next s => .next s.unlatch
  | .fault f => .fault f
  | .refused r => .refused r

/-- `execute(w)` (R95): an illegal word is rejected with ILLEGAL_COMMAND (R97), a legal one dispatches to its command. -/
def execute (w : Word) (s : State) : Host.Outcome State Fault Refusal :=
  match decode w with
  | .error _ => reject .illegalCommand s
  | .ok i => exec i s

/-- `Complete` (R67), enabled exactly when BUSY = 1. A turn of the device with no command latched changes nothing (log 4). -/
def complete (s : State) : Host.Outcome State Fault Refusal :=
  match s.pending with
  | none => .next s
  | some w => thenUnlatch (execute w s)

/-- One event of the environment. -/
def handleEvent (e : Event) (s : State) : Host.Outcome State Fault Refusal :=
  match e with
  | .read off size => hostRead off size s
  | .write off size v => hostWrite off size v s
  | .complete => complete s
  | .reset => .next (resetDevice s)

/-- What moves next: the first event; where the environment has nothing more to do the device completes a latched command
(weak fairness, R272) or holds its state (R247) (log 4). -/
def takeStep (s : State) : Host.Outcome State Fault Refusal :=
  match s.events with
  | [] => complete s
  | e :: es => handleEvent e { s with events := es }

/-- Place a command word where the very next step executes it: latched, and the device's turn (log 13). -/
def placeCommand (s : State) (w : Word) : State := { s with pending := some w, events := .complete :: s.events }

end Sys2Proof.Machine
end

