-- ==== Sys2Proof/Machine/Step.lean ====
section
/-! DEFINITION. One step of the machine, and the placing of a command word for the next step. -/

namespace Sys2Proof.Machine

/-- One step: refused outside the legal configurations (R8, U4), else what moves next. -/
def step (s : State) : Host.Outcome State Fault Refusal :=
  if s.params.Legal then takeStep s else .refused .illegalConfiguration

/-- `s` with the command word `w` (of `nbits` bits, the bits above 0) latched, so that the next step executes it: the core
fetches nothing, it executes what a CMD write latched (R21, R66; log 13). -/
def State.withFetchWord (s : State) (nbits w : Nat) : State := placeCommand s (BitVec.ofNat 32 (w % 2 ^ nbits))

end Sys2Proof.Machine
end

