-- ==== Sys2Proof/Machine/HostProgram.lean ====
section
/-! DEFINITION. The host's side: command syntax (30_encoding.md R101), host-program forms (R102), pseudo-commands (R103) and
the recipe that feeds encoder output to the decoder (42_decoder.md R194). The core does not depend on it. -/

namespace Sys2Proof.Machine

/-- A number as an operand of `w` bits; out of range is an assembly error (R101). -/
def operand (w n : Nat) : Option (BitVec w) := if n < 2 ^ w then some (BitVec.ofNat w n) else none

/-- A character literal `'c'` stands for the ASCII code of `c` (R101); a character above 127 has none (log 22). -/
def charSym (c : Char) : Option Sym := if c.toNat < 128 then some (BitVec.ofNat 8 c.toNat) else none

/-- A command written as its mnemonic and its operands as numbers; none is an assembly error (R101, log 20). -/
def assemble (mnemonic : String) (operands : List Nat) : Option Instr :=
  match mnemonic, operands with
  | "CLEAR", [] => some .clear
  | "COUNT", [sym] => (operand 8 sym).map .count
  | "BUILD", [] => some .build
  | "ENC_START", [] => some .encStart
  | "ENC_SYM", [sym] => (operand 8 sym).map .encSym
  | "ENC_END", [] => some .encEnd
  | "DEC_START", [] => some .decStart
  | "DEC_BITS", [nbits, bits] =>
    if 1 ≤ nbits ∧ nbits ≤ 16 then (operand 16 bits).map (.decBits (BitVec.ofNat 5 nbits)) else none
  | "DEC_END", [] => some .decEnd
  | "QUERY_FREQ", [sym] => (operand 8 sym).map .queryFreq
  | "QUERY_NODE", [idx] => (operand 9 idx).map .queryNode
  | _, _ => none

/-- Bits placed from bit 15 downward with zeros below (R101). -/
def packChunk : Nat → List Bool → BitVec 16
  | _, [] => 0
  | 0, _ => 0
  | k + 1, b :: bs => (if b then BitVec.twoPow 16 k else 0) ||| packChunk k bs

/-- `DEC_BITS "b0b1..."`: a string of 1 to 16 bits (R101). -/
def chunkCommand (bs : List Bool) : Option Instr :=
  if 1 ≤ bs.length ∧ bs.length ≤ 16 then some (.decBits (BitVec.ofNat 5 bs.length) (packChunk 16 bs)) else none

/-- A bit sequence cut into chunks of 16, the last holding the remaining 1..16 bits (R103). -/
def chunks : Nat → List Bool → List (List Bool)
  | 0, _ => []
  | fuel + 1, bs => if bs = [] then [] else bs.take 16 :: chunks fuel (bs.drop 16)

/-- `WR REG, value` (R102). -/
def wr (r : Reg) (v : Word) : Event := .write r.offset 4 v

/-- `RD REG` (R102). -/
def rd (r : Reg) : Event := .read r.offset 4

/-- A command on its own line: `WR CMD, <its encoding>` and `WAIT` (R102). WAIT is written as the device's turn and the read
of STATUS that then returns BUSY = 0 (log 20). -/
def issue (i : Instr) : List Event := [wr .cmd (encode i), .complete, rd .status]

/-- `LOAD "text"`, the source's Build (R103). -/
def loadCommands (text : List Sym) : List Instr := .clear :: (text.map .count ++ [.build])

/-- `ENCODE "text"`, the source's Encode (R103). -/
def encodeCommands (text : List Sym) : List Instr := .encStart :: (text.map .encSym ++ [.encEnd])

/-- `DECODE "bitstring"`, the source's Decode (R103). -/
def decodeCommands (bits : List Bool) : List Instr :=
  .decStart :: ((chunks bits.length bits).filterMap chunkCommand ++ [.decEnd])

/-- `DRAIN_ENC`: LEVELS, then ENC_DATA as many times as `LEVELS[15:0]` says (R103). -/
def drainEnc (levels : Word) : List Event :=
  rd .levels :: List.replicate (levels.extractLsb' 0 16).toNat (rd .encData)

/-- `DRAIN_DEC`: LEVELS, then DEC_DATA as many times as `LEVELS[31:16]` says (R103). -/
def drainDec (levels : Word) : List Event :=
  rd .levels :: List.replicate (levels.extractLsb' 16 16).toNat (rd .decData)

/-- The BitSequence of a closed session (R161): the words in pop order, each from bit 31 down, the first `n` bits. -/
def readBack (n : Nat) (words : List Word) : List Bool := (words.flatMap wordBits).take n

/-- `w[31:16]`. -/
def upperHalf (w : Word) : BitVec 16 := w.extractLsb' 16 16

/-- `w[15:0]`. -/
def lowerHalf (w : Word) : BitVec 16 := w.extractLsb' 0 16

/-- Feeding `n` encoder bits packed in words to the decoder (R194). -/
def feedCommands : Nat → List Word → List Instr
  | _, [] => []
  | n, w :: ws =>
    if 32 ≤ n then .decBits 16 (upperHalf w) :: .decBits 16 (lowerHalf w) :: feedCommands (n - 32) ws
    else if n = 0 then []
    else if n ≤ 16 then [.decBits (BitVec.ofNat 5 n) (upperHalf w)]
    else [.decBits 16 (upperHalf w), .decBits (BitVec.ofNat 5 (n - 16)) (lowerHalf w)]

/-- The bits a command carries (R93): those of DEC_BITS, none of any other. -/
def commandBits : Instr → List Bool
  | .decBits nbits bits => chunkBits nbits bits
  | .clear | .count _ | .build | .encStart | .encSym _ | .encEnd | .decStart | .decEnd | .queryFreq _ | .queryNode _ => []

/-! ### The written forms (R10, R101, R102, R103), as characters -/

/-- The value of one digit (R10): 0 to 9, then A to F in either case. -/
def digitValue (c : Char) : Option Nat :=
  if 48 ≤ c.toNat ∧ c.toNat ≤ 57 then some (c.toNat - 48)
  else if 65 ≤ c.toNat ∧ c.toNat ≤ 70 then some (c.toNat - 55)
  else if 97 ≤ c.toNat ∧ c.toNat ≤ 102 then some (c.toNat - 87)
  else none

/-- Digits in a base, the most significant first, after the value read so far. -/
def digitsValue (base : Nat) : List Char → Nat → Option Nat
  | [], acc => some acc
  | c :: cs, acc =>
    match digitValue c with
    | none => none
    | some d => if d < base then digitsValue base cs (acc * base + d) else none

/-- A number (R10): `0x` prefixes hexadecimal, `0b` binary, other numerals are decimal. -/
def numeral : List Char → Option Nat
  | '0' :: 'x' :: c :: cs => digitsValue 16 (c :: cs) 0
  | '0' :: 'b' :: c :: cs => digitsValue 2 (c :: cs) 0
  | c :: cs => digitsValue 10 (c :: cs) 0
  | [] => none

/-- Text without the spaces around it. -/
def trimmed (cs : List Char) : List Char := ((cs.dropWhile (· = ' ')).reverse.dropWhile (· = ' ')).reverse

/-- The operand `sym`: a number 0..255, or a character literal (R101). -/
def symOperand : List Char → Option Sym
  | ['\'', c, '\''] => charSym c
  | cs => (numeral cs).bind (operand 8)

/-- A string between double quotes. The spec gives no escape: a text with a double quote inside it is no string here
(DESIGN CHOICE, log 22). -/
def quoted : List Char → Option (List Char)
  | '"' :: cs =>
    match cs.reverse with
    | '"' :: rs => if '"' ∈ rs then none else some rs.reverse
    | _ => none
  | _ => none

/-- A string of the characters 0 and 1, the first bit on the left (R12, R101). -/
def bitString (cs : List Char) : Option (List Bool) :=
  if cs.all fun c => c = '0' || c = '1' then some (cs.map (· = '1')) else none

/-- The two parts of a text at its first comma, and none where it has no comma. -/
def atComma (cs : List Char) : Option (List Char × List Char) :=
  match cs.dropWhile (· ≠ ',') with
  | [] => none
  | _ :: rest => some (trimmed (cs.takeWhile (· ≠ ',')), trimmed rest)

/-- The first word of a line and the rest of it. -/
def firstWord (cs : List Char) : String × List Char :=
  (String.ofList ((trimmed cs).takeWhile (· ≠ ' ')), trimmed ((trimmed cs).dropWhile (· ≠ ' ')))

/-- A command as it is written (R101): the mnemonic, then its operands; none is an assembly error. -/
def assembleText (line : List Char) : Option Instr :=
  match firstWord line with
  | ("COUNT", rest) => (symOperand rest).map .count
  | ("ENC_SYM", rest) => (symOperand rest).map .encSym
  | ("QUERY_FREQ", rest) => (symOperand rest).map .queryFreq
  | ("QUERY_NODE", rest) => ((numeral rest).bind (operand 9)).map .queryNode
  | ("DEC_BITS", rest) =>
    match quoted rest with
    | some cs => (bitString cs).bind chunkCommand
    | none => (atComma rest).bind fun p =>
        (numeral p.1).bind fun nbits => (numeral p.2).bind fun bits => assemble "DEC_BITS" [nbits, bits]
  | (mnemonic, []) => assemble mnemonic []
  | (_, _ :: _) => none

/-- The names of R23; offset 0x3C has none. -/
def Reg.ofName : String → Option Reg
  | "ID" => some .id
  | "CONFIG" => some .config
  | "DEPTHS" => some .depths
  | "CMD" => some .cmd
  | "STATUS" => some .status
  | "ERR_INFO" => some .errInfo
  | "TREE_INFO" => some .treeInfo
  | "TOTAL" => some .total
  | "ENC_DATA" => some .encData
  | "ENC_BITCNT_LO" => some .encBitcntLo
  | "ENC_BITCNT_HI" => some .encBitcntHi
  | "DEC_DATA" => some .decData
  | "LEVELS" => some .levels
  | "RDATA0" => some .rdata0
  | "RDATA1" => some .rdata1
  | _ => none

/-- The lines of a host program (R102, R103). -/
inductive HostLine where
  /-- `WR REG, value`. -/
  | wr (r : Reg) (v : Word)
  /-- `RD REG`. -/
  | rd (r : Reg)
  /-- `WAIT`. -/
  | wait
  /-- A command on its own line. -/
  | command (i : Instr)
  /-- `LOAD "text"`. -/
  | load (text : List Sym)
  /-- `ENCODE "text"`. -/
  | encode (text : List Sym)
  /-- `DECODE "bitstring"`. -/
  | decode (bits : List Bool)
  /-- `DRAIN_ENC`. -/
  | drainEnc
  /-- `DRAIN_DEC`. -/
  | drainDec
  deriving DecidableEq, Repr

/-- "Each byte `b` of `text`" (R103): the spec names no character encoding, and the model takes ASCII codes, as R101 does for
a literal; a text with a character above 127 is no text here (DESIGN CHOICE, log 22). -/
def textSyms (cs : List Char) : Option (List Sym) := cs.mapM charSym

/-- A line of a host program as it is written (R102, R103); none is an error. -/
def parseLine (line : List Char) : Option HostLine :=
  match firstWord line with
  | ("WR", rest) => (atComma rest).bind fun p =>
      (Reg.ofName (String.ofList p.1)).bind fun r => ((numeral p.2).bind (operand 32)).map (.wr r)
  | ("RD", rest) => (Reg.ofName (String.ofList rest)).map .rd
  | ("LOAD", rest) => ((quoted rest).bind textSyms).map .load
  | ("ENCODE", rest) => ((quoted rest).bind textSyms).map .encode
  | ("DECODE", rest) => ((quoted rest).bind bitString).map .decode
  | ("WAIT", []) => some .wait
  | ("DRAIN_ENC", []) => some .drainEnc
  | ("DRAIN_DEC", []) => some .drainDec
  | _ => (assembleText line).map .command

/-- `WAIT` where the host reads STATUS `n` times before the device's turn (R102, log 20). -/
def waitRounds (n : Nat) : List Event := List.replicate n (rd .status) ++ [.complete, rd .status]

/-- The events of a line whose reads of STATUS meet BUSY = 0 at once. `levels` is what a drain's read of LEVELS returns:
it says how many reads follow (R103). -/
def lineEvents (levels : Word) : HostLine → List Event
  | .wr r v => [Sys2Proof.Machine.wr r v]
  | .rd r => [Sys2Proof.Machine.rd r]
  | .wait => waitRounds 0
  | .command i => issue i
  | .load text => (loadCommands text).flatMap issue
  | .encode text => (encodeCommands text).flatMap issue
  | .decode bits => (decodeCommands bits).flatMap issue
  | .drainEnc => Sys2Proof.Machine.drainEnc levels
  | .drainDec => Sys2Proof.Machine.drainDec levels

/-- What the host does after a command that ended with OUTPUT_FULL (R103): it drains the command's FIFO and writes the same
command again. `levels` is what the drain's read of LEVELS returns. -/
def drainAndRetry (levels : Word) (i : Instr) : List Event :=
  match i with
  | .encSym _ | .encEnd => drainEnc levels ++ issue i
  | .decBits _ _ => drainDec levels ++ issue i
  | .clear | .count _ | .build | .encStart | .decStart | .decEnd | .queryFreq _ | .queryNode _ => issue i

end Sys2Proof.Machine
end

