-- ==== Sys2Proof/Safety.lean ====
section
/-! DEFINITION. What every reachable state satisfies, and the end of a run, in the terms claims use. -/

namespace Sys2Proof.Machine

/-- The sum over `s` of `freq[s]` (R39). -/
def countSum (freq : Vector Count 256) : Nat := (freq.toList.map BitVec.toNat).sum

/-- TOTAL is the sum of the counts and at most MAX_TOTAL (R39). -/
abbrev CountsInv (s : State) : Prop := countSum s.freq = s.total.toNat ∧ s.total.toNat ≤ maxTotal s.params

/-- In COUNT phase there is no tree (R41); in BUILT phase the node store, NLEAF and ROOT are what BUILD makes of the
frequency table, which nothing has written since (R38, R40, R41). -/
abbrev TreeInv (s : State) : Prop :=
  (s.phase = .count → s.node = [] ∧ s.nleaf = 0 ∧ s.root = 0) ∧
  (s.phase = .built →
    s.node = buildNodes s.params s.freq ∧ s.nleaf = BitVec.ofNat 9 (leafCount s.freq) ∧
      s.root = buildRoot s.params s.freq)

/-- In COUNT phase no session is open or failed and both FIFOs are empty (R126, R153, R182). -/
abbrev PhaseInv (s : State) : Prop :=
  s.phase = .count → s.encState = .idle ∧ s.decState = .idle ∧ s.encFifo = [] ∧ s.decFifo = []

/-- The encoder (R34, R42, R160): ENC_ERR is 1 exactly while FAILED and else 0, ENC_FIFO has at most ENC_DEPTH words, the
unused low bits of ENC_ACC are 0, no partial word is held while IDLE, and within a session ENC_ACCN is ENC_BITCNT mod 32. -/
abbrev EncInv (s : State) : Prop :=
  s.encErr = (if s.encState = .failed then .unknownSymbol else .ok) ∧
  s.encFifo.length ≤ s.params.encDepth ∧
  s.encAcc.toNat % 2 ^ (32 - s.encAccn.toNat) = 0 ∧
  (s.encState = .idle → s.encAccn = 0) ∧
  (s.encState ≠ .idle → s.encBitcnt.toNat % 32 = s.encAccn.toNat)

/-- DEC_CURSOR names ROOT or an internal node (R181, R189). -/
abbrev CursorInv (s : State) : Prop :=
  s.decCursor = s.root ∨ (s.node[s.decCursor.toNat]?.any fun nd => !nd.leaf) = true

/-- The decoder (R34, R43, R181, R192): DEC_ERR is 2, 3 or 4 exactly while FAILED and else 0, DEC_FIFO has at most DEC_DEPTH
symbols, within a session the cursor names ROOT or an internal node, and a session on the empty tree has consumed no bit. -/
abbrev DecInv (s : State) : Prop :=
  (s.decState ≠ .failed → s.decErr = .ok) ∧
  (s.decState = .failed →
    s.decErr = .malformedEncoding ∨ s.decErr = .truncatedEncoding ∨ s.decErr = .emptyTreeDecode) ∧
  s.decFifo.length ≤ s.params.decDepth ∧
  (s.decState ≠ .idle → CursorInv s) ∧
  (s.decState ≠ .idle → s.nleaf = 0 → s.decPos = 0)

/-- The invariant of the machine: it holds at reset and every step keeps it. -/
abbrev Inv (s : State) : Prop :=
  s.params.Legal ∧ CountsInv s ∧ TreeInv s ∧ PhaseInv s ∧ EncInv s ∧ DecInv s

/-- The device executes `i` in this step: it is latched (R66), and it is the device's turn (R67, R272). -/
abbrev Executes (s : State) (i : Instr) : Prop :=
  (∃ w, s.pending = some w ∧ decode w = .ok i) ∧ (s.events = [] ∨ ∃ es, s.events = .complete :: es)

/-- The reset input is asserted in this step (R260). -/
abbrev Resets (s : State) : Prop := ∃ es, s.events = .reset :: es

/-- The state after a list of commands, each of which ends with RESULT = OK; none where one of them does not (R103). -/
def runOk : List Instr → State → Option State
  | [], s => some s
  | i :: is, s =>
    match exec i s with
    | .next t => if t.result = .ok then runOk is t else none
    | .fault _ => none
    | .refused _ => none

/-- The events that are the host's accesses (R14, R275). -/
def Event.isAccess : Event → Bool
  | .read _ _ => true
  | .write _ _ _ => true
  | .complete => false
  | .reset => false

/-- A run is over (R274): the host has made its last access and BUSY = 0. Device turns or a reset may still be listed: they
belong to no run. -/
abbrev RunOver (s : State) : Prop := s.events.any Event.isAccess = false ∧ s.busy = false

/-- The end of the run from `s` (R274): the first state, `s` itself or one of the `k` after it, where the run is over; none
where there is none, a run that is not over or stops. -/
def endOfRun : Nat → State → Option State
  | 0, s => if RunOver s then some s else none
  | k + 1, s =>
    if RunOver s then some s
    else
      match step s with
      | .next t => endOfRun k t
      | .fault _ => none
      | .refused _ => none

/-- The device state alone: the fields of R22 and the parameters, without the model's own record of the environment. -/
def State.device (s : State) : State := { s with events := [], reads := [], draws := 0 }

/-- What is observed of a run (R274). -/
structure Observation where
  /-- The device state. -/
  device : State
  /-- The values the host read, oldest first. -/
  reads : List Word
  deriving DecidableEq, Repr

/-- The observation in a state (R274). -/
def observe (s : State) : Observation := { device := s.device, reads := s.reads }

/-- The observation of the run from `s`, if it ends within `k` steps (R274). -/
def observedRun (k : Nat) (s : State) : Option Observation := (endOfRun k s).map observe

/-- An access that has no meaning: another width than 32 bits, a misaligned offset, an offset of 0x40 or beyond (R240). -/
abbrev Event.Refused : Event → Prop
  | .read off size => size ≠ 4 ∨ off % 4 ≠ 0 ∨ 0x40 ≤ off
  | .write off size _ => size ≠ 4 ∨ off % 4 ≠ 0 ∨ 0x40 ≤ off
  | .complete => False
  | .reset => False

/-- The node index a bit sequence leads to from node `n`, each bit through an internal node: 0 left, 1 right (R12, R151). -/
def walk (node : List Node) : List Bool → NodeIdx → Option NodeIdx
  | [], n => some n
  | b :: bs, n =>
    match node[n.toNat]? with
    | none => none
    | some nd => if nd.leaf then none else walk node bs (if b then nd.right else nd.left)

/-- The source's decoder (R181) on a tree alone: "move cursor to right child if bit is true, left child if false; if the
resulting cursor has no children (is a leaf), emit its Symbol and reset cursor to tree.root". It answers the cursor and the
symbols emitted. -/
def sourceWalk (node : List Node) (root : NodeIdx) : List Bool → NodeIdx → Option (NodeIdx × List Sym)
  | [], cur => some (cur, [])
  | b :: bs, cur =>
    match walk node [b] cur with
    | none => none
    | some m =>
      match node[m.toNat]? with
      | none => none
      | some nd =>
        if nd.leaf then (sourceWalk node root bs root).map fun r => (r.1, nd.sym :: r.2)
        else sourceWalk node root bs m

/-- Node `j` is the child of no node below place `i` of the store: when node `i` is made, `j` is in the working set exactly
when it is below `i` and has no parent yet (R130). -/
abbrev Parentless (node : List Node) (i j : Nat) : Prop :=
  ∀ k nd, k < i → node[k]? = some nd → nd.leaf = false → nd.left.toNat ≠ j ∧ nd.right.toNat ≠ j

/-- The key `(node[j].FREQ, j)` is smaller than `(node[k].FREQ, k)` (R131). -/
abbrev KeyBefore (node : List Node) (j k : Nat) : Prop :=
  ∀ x y, node[j]? = some x → node[k]? = some y →
    x.freq.toNat < y.freq.toNat ∨ (x.freq.toNat = y.freq.toNat ∧ j < k)

end Sys2Proof.Machine
end

