-- ==== Sys2Proof/Certificates/Slice0/Obligations.lean ====
section
/-! DEFINITION. The statements for the provers, from the numbered rules of spec/. -/

open Sys2Proof Sys2Proof.Machine

/-! ### Numbers the rules give, written out -/

/-- The numbers of the result codes (R230). -/
def Sys2Proof.Statements.codeNumber : ResultCode → Nat
  | .ok => 0
  | .unknownSymbol => 1
  | .malformedEncoding => 2
  | .truncatedEncoding => 3
  | .emptyTreeDecode => 4
  | .illegalCommand => 5
  | .phaseError => 6
  | .outputFull => 7
  | .freqOverflow => 8
  | .sessionFailed => 9
  | .badIndex => 10

/-- IDLE = 0, ACTIVE = 1, FAILED = 2 (R31). -/
def Sys2Proof.Statements.sessionNumber : Session → Nat
  | .idle => 0
  | .active => 1
  | .failed => 2

/-- The fields of a STATUS word read in state `s` while BUSY = 0 (R31). -/
def Sys2Proof.Statements.StatusFields (s : State) (v : Word) : Prop :=
  v.getLsbD 0 = false ∧ v.getLsbD 1 = decide (s.phase = .built) ∧
    (v.extractLsb' 2 2).toNat = Sys2Proof.Statements.sessionNumber s.encState ∧
    (v.extractLsb' 4 2).toNat = Sys2Proof.Statements.sessionNumber s.decState ∧ v.getLsbD 6 = s.overrun ∧
    v.getLsbD 7 = false ∧ (v.extractLsb' 8 4).toNat = Sys2Proof.Statements.codeNumber s.result ∧
    (v.extractLsb' 12 4).toNat = Sys2Proof.Statements.codeNumber s.encErr ∧
    (v.extractLsb' 16 4).toNat = Sys2Proof.Statements.codeNumber s.decErr ∧ v.extractLsb' 20 12 = 0#12

/-- The symbols with `freq[s] > 0` in ascending order of value: `P` of R128. -/
def Sys2Proof.Statements.counted (s : State) : List Sym :=
  ((List.range 256).map (BitVec.ofNat 8)).filter fun sym => decide (freqAt s.freq sym ≠ 0)

/-- The rows of R94 in opcode order: `match`, `mask`. -/
def Sys2Proof.Statements.opcodeMap : List (Word × Word) :=
  [(0x00000000, 0xFFFFFFFF), (0x10000000, 0xFFFFFF00), (0x20000000, 0xFFFFFFFF), (0x30000000, 0xFFFFFFFF),
    (0x40000000, 0xFFFFFF00), (0x50000000, 0xFFFFFFFF), (0x60000000, 0xFFFFFFFF), (0x70000000, 0xFFE00000),
    (0x80000000, 0xFFFFFFFF), (0x90000000, 0xFFFFFF00), (0xA0000000, 0xFFFFFE00)]

/-- A host that reads DEC_DATA some number of times before each command (each read takes the head of DEC_FIFO, R65): the result of
every command, the symbols read, the last state. -/
def Sys2Proof.Statements.runReading : List (Nat × Instr) → State → Option (List ResultCode × List Sym × State)
  | [], s => some ([], [], s)
  | (k, i) :: rest, s =>
    match exec i { s with decFifo := s.decFifo.drop k } with
    | .next t =>
      (Sys2Proof.Statements.runReading rest t).map fun r => (t.result :: r.1, s.decFifo.take k ++ r.2.1, r.2.2)
    | .fault _ => none
    | .refused _ => none

/-- A host that reads ENC_DATA some number of times before each command (each read takes the head of ENC_FIFO, R65): the result of
every command, the words read, the last state. -/
def Sys2Proof.Statements.runReadingWords : List (Nat × Instr) → State → Option (List ResultCode × List Word × State)
  | [], s => some ([], [], s)
  | (k, i) :: rest, s =>
    match exec i { s with encFifo := s.encFifo.drop k } with
    | .next t =>
      (Sys2Proof.Statements.runReadingWords rest t).map fun r => (t.result :: r.1, s.encFifo.take k ++ r.2.1, r.2.2)
    | .fault _ => none
    | .refused _ => none

open Sys2Proof.Statements

/-! ### Encoding (30_encoding.md) -/

/-- Encoding a command with a legal encoding and decoding the word gives the command back (R92 to R96). -/
def Obligations.DecodeOfEncodeIsTheCommand : Prop :=
  ∀ i : Instr, i.wellFormed = true → decode (encode i) = .ok i

/-- A word that decodes is the one word of its command: no bit of it is dropped (R92, R96; D6: every legal word is unique). -/
def Obligations.EncodeOfDecodeIsTheWord : Prop :=
  ∀ (w : Word) (i : Instr), decode w = .ok i → i.wellFormed = true ∧ encode i = w

/-- R96: which words are legal, with the table of R94 written out. -/
def Obligations.LegalWordsAreThoseOfTheOpcodeMap : Prop :=
  ∀ w : Word,
    (∃ i, decode w = .ok i) ↔
      (w.extractLsb' 28 4).toNat ≤ 0xA ∧
      (∃ r, opcodeMap[(w.extractLsb' 28 4).toNat]? = some r ∧ w &&& r.2 = r.1) ∧
      ((w.extractLsb' 28 4).toNat = 0x7 → 1 ≤ (w.extractLsb' 16 5).toNat ∧ (w.extractLsb' 16 5).toNat ≤ 16)

/-- R97: a reserved opcode, a non-zero reserved bit, an NBITS of 0 or 17..31 make a word illegal, in every state and before
any other condition; RESULT becomes 5 and nothing else changes. -/
def Obligations.IllegalWordsAreRejected : Prop :=
  codeNumber .illegalCommand = 5 ∧ ResultCode.illegalCommand.bits = 5 ∧
  ∀ (w : Word) (s : State),
    (0xB ≤ (w.extractLsb' 28 4).toNat ∨
      (∃ r, opcodeMap[(w.extractLsb' 28 4).toNat]? = some r ∧ w &&& (r.2 &&& 0x0FFFFFFF) ≠ 0) ∨
      ((w.extractLsb' 28 4).toNat = 0x7 ∧
        ((w.extractLsb' 16 5).toNat = 0 ∨ 17 ≤ (w.extractLsb' 16 5).toNat))) →
    execute w s = .next { s with result := .illegalCommand }

/-- R93: bit `k` of a chunk is `BITS[15 - k]`, and the bits below the chunk may hold any value. -/
def Obligations.BitsBelowTheChunkAreIgnored : Prop :=
  ∀ (nbits : BitVec 5) (b b' : BitVec 16) (s : State),
    (∀ k, k < nbits.toNat → b.getLsbD (15 - k) = b'.getLsbD (15 - k)) →
    exec (.decBits nbits b) s = exec (.decBits nbits b') s

/-- Words written out from the opcode map and the vectors decode to the commands they stand for. -/
def Obligations.WordsOfTheOpcodeMapDecode : Prop :=
  decode 0x00000000 = .ok .clear ∧ decode 0x10000061 = .ok (.count 0x61) ∧ decode 0x4000007A = .ok (.encSym 0x7A) ∧
    decode 0x700BA1E0 = .ok (.decBits 11 0xA1E0) ∧ decode 0xA0000003 = .ok (.queryNode 3) ∧
    decode 0x70000000 = .error .badChunkLength ∧ decode 0xB0000000 = .error .reservedOpcode ∧
    decode 0x10000100 = .error .reservedBits

/-! ### The step and the host port (20_memory.md) -/

/-- R67, R95, R97, R247: on the device's turn a latched word, legal or not, is executed, and then BUSY is clear; a word that
decodes executes as its command, an illegal one sets RESULT and nothing else; no word is refused. With no command latched the
turn changes nothing. -/
def Obligations.StepExecutesTheLatchedCommand : Prop :=
  ∀ (s : State) (es : List Event),
    s.params.Legal → (s.events = .complete :: es ∨ (s.events = [] ∧ es = [])) →
    (∀ w, s.pending = some w →
      (∀ t, execute w { s with events := es } = .next t → step s = .next { t with pending := none }) ∧
      (∀ f, execute w { s with events := es } = .fault f → step s = .fault f) ∧
      (∀ r, execute w { s with events := es } ≠ .refused r) ∧
      (∀ i, decode w = .ok i → execute w { s with events := es } = exec i { s with events := es }) ∧
      ((∀ i, decode w ≠ .ok i) →
        step s = .next { s with events := es, pending := none, result := .illegalCommand })) ∧
    (s.pending = none → step s = .next { s with events := es })

/-- A word placed for the next step is executed by it, as a latched command is (R66, R67). -/
def Obligations.PlacedWordIsExecutedNext : Prop :=
  ∀ (s : State) (w : Word) (i : Instr) (t : State),
    s.params.Legal → decode w = .ok i → exec i { s with pending := some w } = .next t →
    step (s.withFetchWord 32 w.toNat) = .next { t with pending := none }

/-- R66: a CMD write while BUSY = 0 latches the word and sets BUSY; nothing else of the device changes. -/
def Obligations.CmdWriteLatchesTheWord : Prop :=
  ∀ (s : State) (w : Word) (es : List Event),
    s.params.Legal → s.busy = false → s.events = .write 0x0C 4 w :: es →
    step s = .next { s with events := es, pending := some w } ∧
      ({ s with events := es, pending := some w } : State).busy = true

/-- R69: a CMD write while BUSY = 1 is dropped: PENDING keeps the command in progress and OVERRUN is set. -/
def Obligations.CmdWriteWhileBusyIsDropped : Prop :=
  ∀ (s : State) (w : Word) (es : List Event),
    s.params.Legal → s.busy = true → s.events = .write 0x0C 4 w :: es →
    step s = .next { s with events := es, overrun := true }

/-- R70: a write to any other offset of the window changes no state, whether BUSY is 0 or 1. -/
def Obligations.OtherWritesChangeNothing : Prop :=
  ∀ (s : State) (off : Nat) (v : Word) (es : List Event),
    s.params.Legal → off < 0x40 → off % 4 = 0 → off ≠ 0x0C → s.events = .write off 4 v :: es →
    step s = .next { s with events := es }

/-- R65: what a read of each register returns while BUSY = 0, and what it changes. -/
def Obligations.ReadsWhileIdleReturnTheRegisters : Prop :=
  ∀ (s : State) (off : Nat) (es : List Event),
    s.params.Legal → s.busy = false → s.events = .read off 4 :: es →
    (off = 0x00 → step s = .next { s with events := es, reads := s.reads ++ [0x48554631] }) ∧
    (off = 0x04 → step s = .next
      { s with events := es, reads := s.reads ++ [0#8 ++ 32#8 ++ BitVec.ofNat 8 s.params.freqW ++ 8#8] }) ∧
    (off = 0x08 → step s = .next
      { s with
        events := es, reads := s.reads ++ [BitVec.ofNat 16 s.params.decDepth ++ BitVec.ofNat 16 s.params.encDepth] }) ∧
    (off = 0x0C → step s = .next { s with events := es, reads := s.reads ++ [0] }) ∧
    (off = 0x10 → ∃ v, step s = .next { s with events := es, reads := s.reads ++ [v] } ∧ StatusFields s v) ∧
    (off = 0x14 → step s = .next { s with events := es, reads := s.reads ++ [s.errInfo] }) ∧
    (off = 0x18 → step s = .next { s with events := es, reads := s.reads ++ [0#7 ++ s.root ++ 0#7 ++ s.nleaf] }) ∧
    (off = 0x1C → step s = .next { s with events := es, reads := s.reads ++ [s.total] }) ∧
    (off = 0x20 → s.encFifo = [] → step s = .next { s with events := es, reads := s.reads ++ [0] }) ∧
    (off = 0x20 → ∀ w ws, s.encFifo = w :: ws →
      step s = .next { s with events := es, reads := s.reads ++ [w], encFifo := ws }) ∧
    (off = 0x24 → step s = .next { s with events := es, reads := s.reads ++ [s.encBitcnt.extractLsb' 0 32] }) ∧
    (off = 0x28 → step s = .next { s with events := es, reads := s.reads ++ [s.encBitcnt.extractLsb' 32 32] }) ∧
    (off = 0x2C → s.decFifo = [] → step s = .next { s with events := es, reads := s.reads ++ [0] }) ∧
    (off = 0x2C → ∀ sym syms, s.decFifo = sym :: syms →
      step s = .next { s with events := es, reads := s.reads ++ [1#1 ++ 0#23 ++ sym], decFifo := syms }) ∧
    (off = 0x30 → step s = .next
      { s with
        events := es, reads := s.reads ++ [BitVec.ofNat 16 s.decFifo.length ++ BitVec.ofNat 16 s.encFifo.length] }) ∧
    (off = 0x34 → step s = .next { s with events := es, reads := s.reads ++ [s.rdata0] }) ∧
    (off = 0x38 → step s = .next { s with events := es, reads := s.reads ++ [s.rdata1] }) ∧
    (off = 0x3C → step s = .next { s with events := es, reads := s.reads ++ [0] })

/-- R68: a read while BUSY = 1 returns the constants, BUSY, OVERRUN and the reserved zeros, any value elsewhere, and changes no
device state: nothing pops. It holds for every value the free draws may have. -/
def Obligations.ReadsWhileBusyChangeNothing : Prop :=
  ∀ (s : State) (off : Nat) (es : List Event),
    s.params.Legal → s.busy = true → off < 0x40 → off % 4 = 0 → s.events = .read off 4 :: es →
    ∃ v d, step s = .next { s with events := es, reads := s.reads ++ [v], draws := d } ∧
      (off = 0x00 → v = 0x48554631) ∧
      (off = 0x04 → v = 0#8 ++ 32#8 ++ BitVec.ofNat 8 s.params.freqW ++ 8#8) ∧
      (off = 0x08 → v = BitVec.ofNat 16 s.params.decDepth ++ BitVec.ofNat 16 s.params.encDepth) ∧
      (off = 0x0C → v = 0) ∧ (off = 0x3C → v = 0) ∧
      (off = 0x10 → v.getLsbD 0 = true ∧ v.getLsbD 6 = s.overrun ∧ v.getLsbD 7 = false ∧ v.extractLsb' 20 12 = 0#12)

/-- R240: a step is refused for exactly three reasons: a configuration with a parameter outside its range, an access of a width
other than 32 bits or at an offset that is not a multiple of 4, an access at offset 0x40 or beyond. -/
def Obligations.RefusalsAreExactlyThoseOfTheSpec : Prop :=
  ∀ s : State,
    (∃ r, step s = .refused r) ↔
      ¬((1 ≤ s.params.freqW ∧ s.params.freqW ≤ 32) ∧ (8 ≤ s.params.encDepth ∧ s.params.encDepth ≤ 65535) ∧
        (16 ≤ s.params.decDepth ∧ s.params.decDepth ≤ 65535)) ∨
      ∃ es off size, (s.events = .read off size :: es ∨ ∃ v, s.events = .write off size v :: es) ∧
        (size ≠ 4 ∨ off % 4 ≠ 0 ∨ 0x40 ≤ off)

/-- R67, R272: in a state that meets the invariant a latched command completes in one Complete step, which the device takes on
its turn or where the environment has nothing more to do; then BUSY = 0. -/
def Obligations.LatchedCommandCompletesInOneStep : Prop :=
  ∀ s : State, Inv s → s.busy = true → (s.events = [] ∨ ∃ es, s.events = .complete :: es) →
    ∃ t, step s = .next t ∧ t.busy = false

/-- R44, R239: OVERRUN is sticky: only the reset input clears it, and only a CMD write while BUSY = 1 sets it. -/
def Obligations.OverrunIsSticky : Prop :=
  ∀ s t : State, step s = .next t →
    (s.overrun = true → t.overrun = false → ∃ es, s.events = .reset :: es) ∧
    (s.overrun = false → t.overrun = true → s.busy = true ∧ ∃ w es, s.events = .write 0x0C 4 w :: es)

/-! ### Reset (70_reset_and_hazards.md) -/

/-- R260: asserting the reset input, in any state, sets every field of R22 to its reset value; a command in progress is
abandoned. The parameters and the model's records of the environment stay. -/
def Obligations.ResetInputGivesTheResetState : Prop :=
  (∀ (s : State) (es : List Event), s.params.Legal → s.events = .reset :: es →
    step s = .next { State.reset with params := s.params, events := es, reads := s.reads, draws := s.draws }) ∧
  State.reset.phase = .count ∧ (∀ sym, freqAt State.reset.freq sym = 0) ∧ State.reset.total = 0 ∧
  State.reset.nleaf = 0 ∧ State.reset.root = 0 ∧ (∀ i : Nat, State.reset.node[i]? = none) ∧
  State.reset.encState = .idle ∧ State.reset.encErr = .ok ∧ State.reset.encAcc = 0 ∧ State.reset.encAccn = 0 ∧
  State.reset.encBitcnt = 0 ∧ State.reset.encFifo = [] ∧ State.reset.decState = .idle ∧ State.reset.decErr = .ok ∧
  State.reset.decCursor = 0 ∧ State.reset.decPos = 0 ∧ State.reset.decFifo = [] ∧ State.reset.result = .ok ∧
  State.reset.errInfo = 0 ∧ State.reset.rdata0 = 0 ∧ State.reset.rdata1 = 0 ∧ State.reset.busy = false ∧
  State.reset.pending = none ∧ State.reset.overrun = false

/-- R261: the register values after reset, for the default parameters; CONFIG and DEPTHS in general. -/
def Obligations.RegisterValuesAfterReset : Prop :=
  (∀ p : Params, p.Legal →
    step { State.reset with params := p, events := [.read 0x04 4] } = .next
      { State.reset with params := p, reads := [0#8 ++ 32#8 ++ BitVec.ofNat 8 p.freqW ++ 8#8] } ∧
    step { State.reset with params := p, events := [.read 0x08 4] } = .next
      { State.reset with params := p, reads := [BitVec.ofNat 16 p.decDepth ++ BitVec.ofNat 16 p.encDepth] }) ∧
  ∀ r ∈ ([(0x00, 0x48554631), (0x04, 0x00202008), (0x08, 0x00200010), (0x10, 0), (0x14, 0), (0x18, 0), (0x1C, 0),
      (0x20, 0), (0x24, 0), (0x28, 0), (0x2C, 0), (0x30, 0), (0x34, 0), (0x38, 0)] : List (Nat × Word)),
    step { State.reset with events := [.read r.1 4] } = .next { State.reset with reads := [r.2] }

/-! ### Invariants -/

/-- The reset state meets the invariant. -/
def Obligations.ResetStateMeetsTheInvariant : Prop := Inv State.reset

/-- Every step keeps the invariant: the counts sum to TOTAL (R39), the node store is the tree of the frequency table (R38, R40,
R41), the error fields agree with the session states (R34), the FIFOs keep their bounds (R22), the unused bits of ENC_ACC are
0 (R42), the cursor names ROOT or an internal node (R181). -/
def Obligations.EveryStepKeepsTheInvariant : Prop := ∀ s t : State, Inv s → step s = .next t → Inv t

/-- From the invariant no step faults: no rule reads a node-store entry that holds no value (R40, R215), and every counted
symbol has a code (R133). -/
def Obligations.NoStepFaultsUnderTheInvariant : Prop := ∀ (s : State) (f : Fault), Inv s → step s ≠ .fault f

/-! ### Rules about every command (60_exceptions.md) -/

/-- R233: a command that ends with one of the codes 5 to 10 changes no state except RESULT. -/
def Obligations.RejectedCommandsChangeOnlyResult : Prop :=
  ∀ (w : Word) (s t : State), execute w s = .next t → 5 ≤ codeNumber t.result → codeNumber t.result ≤ 10 →
    t = { s with result := t.result }

/-- R234, R230: what a command that ends with one of the codes 1 to 4 records: RESULT, the unit's session state and error field,
ERR_INFO. DEC_BITS that fails at bit `k`, a 1, keeps what the `k` bits before it did: what DEC_BITS of those `k` bits alone
does. The others have changed nothing before. -/
def Obligations.FailedCommandsRecordTheFailure : Prop :=
  ∀ (w : Word) (s t : State), execute w s = .next t →
    (codeNumber t.result = 1 → ∃ sym, decode w = .ok (.encSym sym) ∧
      t = { s with
            result := .unknownSymbol, encState := .failed, encErr := .unknownSymbol, errInfo := sym.setWidth 32 }) ∧
    (codeNumber t.result = 2 → ∃ nbits bits cur syms, ∃ k : Nat, decode w = .ok (.decBits nbits bits) ∧
      k < nbits.toNat ∧ bits.getLsbD (15 - k) = true ∧
      (k = 0 → cur = s.decCursor ∧ syms = []) ∧
      (1 ≤ k → exec (.decBits (BitVec.ofNat 5 k) bits) s = .next
        { s with
          decCursor := cur, decPos := s.decPos + BitVec.ofNat 64 k, decFifo := s.decFifo ++ syms, result := .ok }) ∧
      t = { s with
            decCursor := cur, decPos := s.decPos + BitVec.ofNat 64 k, decFifo := s.decFifo ++ syms
            result := .malformedEncoding, decState := .failed, decErr := .malformedEncoding
            errInfo := (s.decPos + BitVec.ofNat 64 k).setWidth 32 }) ∧
    (codeNumber t.result = 3 → decode w = .ok .decEnd ∧
      t = { s with
            result := .truncatedEncoding, decState := .failed, decErr := .truncatedEncoding
            errInfo := s.decPos.setWidth 32 }) ∧
    (codeNumber t.result = 4 → (∃ nbits bits, decode w = .ok (.decBits nbits bits)) ∧
      t = { s with
            result := .emptyTreeDecode, decState := .failed, decErr := .emptyTreeDecode
            errInfo := s.decPos.setWidth 32 })

/-- R236: while a unit's session state is FAILED, its data and END commands are rejected with SESSION_FAILED and change nothing
else (with a tree built, which R232 checks first). -/
def Obligations.FailedSessionsRejectTheirCommands : Prop :=
  ∀ s : State, s.phase = .built →
    (s.encState = .failed →
      (∀ sym, exec (.encSym sym) s = .next { s with result := .sessionFailed }) ∧
      exec .encEnd s = .next { s with result := .sessionFailed }) ∧
    (s.decState = .failed →
      (∀ nbits bits, 1 ≤ nbits.toNat → nbits.toNat ≤ 16 →
        exec (.decBits nbits bits) s = .next { s with result := .sessionFailed }) ∧
      exec .decEnd s = .next { s with result := .sessionFailed })

/-- R237: a session leaves FAILED only by its unit's START, by CLEAR or by reset. -/
def Obligations.FailedIsLeftOnlyByStartClearOrReset : Prop :=
  ∀ s t : State, step s = .next t →
    (s.encState = .failed → t.encState ≠ .failed → Executes s .encStart ∨ Executes s .clear ∨ Resets s) ∧
    (s.decState = .failed → t.decState ≠ .failed → Executes s .decStart ∨ Executes s .clear ∨ Resets s)

/-- R32: only BUILD moves COUNT to BUILT; only CLEAR and reset move BUILT to COUNT. -/
def Obligations.PhaseMovesOnlyByBuildClearOrReset : Prop :=
  ∀ s t : State, step s = .next t →
    (s.phase = .count → t.phase = .built → Executes s .build) ∧
    (s.phase = .built → t.phase = .count → Executes s .clear ∨ Resets s)

/-- R38: only COUNT, CLEAR and reset write the frequency table and TOTAL; in BUILT phase COUNT does not either. -/
def Obligations.FrequencyTableIsWrittenOnlyByCountClearReset : Prop :=
  ∀ s t : State, step s = .next t → t.freq ≠ s.freq ∨ t.total ≠ s.total →
    (s.phase = .count ∧ ∃ sym, Executes s (.count sym)) ∨ Executes s .clear ∨ Resets s

/-- R154, R183: no encoder command touches the tree, the frequency table or the decoder; no decoder command writes the tree, the
frequency table or any encoder state. The whole frame of the codec's commands: what they may write is listed. -/
def Obligations.CodecCommandsNeverWriteTheTree : Prop :=
  ∀ (i : Instr) (s t : State), exec i s = .next t →
    ((i = .encStart ∨ i = .encEnd ∨ ∃ sym, i = .encSym sym) →
      t = { s with
            encState := t.encState, encErr := t.encErr, encAcc := t.encAcc, encAccn := t.encAccn
            encBitcnt := t.encBitcnt, encFifo := t.encFifo, result := t.result, errInfo := t.errInfo }) ∧
    ((i = .decStart ∨ i = .decEnd ∨ ∃ nbits bits, i = .decBits nbits bits) →
      t = { s with
            decState := t.decState, decErr := t.decErr, decCursor := t.decCursor, decPos := t.decPos
            decFifo := t.decFifo, result := t.result, errInfo := t.errInfo })

/-- R249: the two sessions do not interact: whatever the decoder's state, an encoder command does the same to everything else and
leaves that state alone, and the other way round. -/
def Obligations.SessionsDoNotInteract : Prop :=
  ∀ (i : Instr) (s t : State), exec i s = .next t →
    ((i = .encStart ∨ i = .encEnd ∨ ∃ sym, i = .encSym sym) → ∀ st er cur pos fifo,
      exec i { s with decState := st, decErr := er, decCursor := cur, decPos := pos, decFifo := fifo } =
        .next { t with decState := st, decErr := er, decCursor := cur, decPos := pos, decFifo := fifo }) ∧
    ((i = .decStart ∨ i = .decEnd ∨ ∃ nbits bits, i = .decBits nbits bits) → ∀ st er acc accn cnt fifo,
      exec i
          { s with
            encState := st, encErr := er, encAcc := acc, encAccn := accn, encBitcnt := cnt, encFifo := fifo } =
        .next
          { t with
            encState := st, encErr := er, encAcc := acc, encAccn := accn, encBitcnt := cnt, encFifo := fifo })

/-- R216: RDATA0 and RDATA1 are written only by QUERY_FREQ and QUERY_NODE ending OK, by CLEAR and by reset. -/
def Obligations.RdataIsWrittenOnlyByQueriesClearReset : Prop :=
  ∀ s t : State, step s = .next t → t.rdata0 ≠ s.rdata0 ∨ t.rdata1 ≠ s.rdata1 →
    (((∃ sym, Executes s (.queryFreq sym)) ∨ ∃ idx, Executes s (.queryNode idx)) ∧ t.result = .ok) ∨
      Executes s .clear ∨ Resets s

/-- R35: only a failing command (codes 1 to 4), CLEAR and reset write ERR_INFO; a START does not clear it. -/
def Obligations.ErrInfoIsWrittenOnlyByFailClearReset : Prop :=
  ∀ s t : State, step s = .next t → t.errInfo ≠ s.errInfo →
    (∃ i, Executes s i ∧ 1 ≤ codeNumber t.result ∧ codeNumber t.result ≤ 4) ∨ Executes s .clear ∨ Resets s

/-! ### The tree builder (40_builder.md) -/

/-- R121: CLEAR, in every phase and session state, sets every field of R22 to its reset value but BUSY, PENDING and OVERRUN, and
ends OK. Right after reset it changes nothing. A word with OP 0x0 and a reserved bit set clears nothing. -/
def Obligations.ClearGivesTheResetValues : Prop :=
  encode .clear = 0x00000000 ∧
  (∀ (w : Word) (s : State), w.extractLsb' 28 4 = 0x0 → w ≠ 0x00000000 →
    execute w s = .next { s with result := .illegalCommand }) ∧
  (∀ s : State, exec .clear s = .next
    { State.reset with
      params := s.params, pending := s.pending, overrun := s.overrun, events := s.events, reads := s.reads
      draws := s.draws }) ∧
  exec .clear State.reset = .next State.reset

/-- R123, R124: COUNT sym: its word, its two rejects, and its effect where it is accepted: `freq[s]` and TOTAL are one more, no
addition wraps, every other count and field is unchanged. -/
def Obligations.CountCommand : Prop :=
  (∀ sym : Sym, encode (.count sym) = 0x10000000 ||| sym.setWidth 32) ∧
  (∀ (sym : Sym) (s : State), s.phase = .built → exec (.count sym) s = .next { s with result := .phaseError }) ∧
  (∀ (sym : Sym) (s : State), s.phase = .count → s.total.toNat = 2 ^ s.params.freqW - 1 →
    exec (.count sym) s = .next { s with result := .freqOverflow }) ∧
  ∀ (sym : Sym) (s : State), s.params.Legal → CountsInv s → s.phase = .count →
    s.total.toNat ≠ 2 ^ s.params.freqW - 1 →
    ∃ f, exec (.count sym) s = .next { s with freq := f, total := s.total + 1, result := .ok } ∧
      (freqAt f sym).toNat = (freqAt s.freq sym).toNat + 1 ∧ (s.total + 1).toNat = s.total.toNat + 1 ∧
      ∀ x, x ≠ sym → freqAt f x = freqAt s.freq x

/-- R125: the state after accepted COUNT commands depends only on how many there were of each symbol, and the tree BUILD makes
depends only on the frequency table. -/
def Obligations.OrderOfCountsDoesNotMatter : Prop :=
  (∀ (l l' : List Sym) (s : State), l.Perm l' → runOk (l.map .count) s = runOk (l'.map .count) s) ∧
  ∀ s s' : State, s.phase = .count → s'.phase = .count → s.params = s'.params → s.freq = s'.freq →
    ∃ t t', exec .build s = .next t ∧ exec .build s' = .next t' ∧ t.node = t'.node ∧ t.nleaf = t'.nleaf ∧
      t.root = t'.root

/-- R126, R129, R130: BUILD: its word, its reject, and where it runs: it ends OK in BUILT phase with NLEAF = L, ROOT and NNODE as
R129 and R130 say, and only the tree, PHASE and RESULT are written. -/
def Obligations.BuildCommand : Prop :=
  encode .build = 0x20000000 ∧
  (∀ s : State, s.phase = .built → exec .build s = .next { s with result := .phaseError }) ∧
  ∀ s : State, s.phase = .count →
    ∃ node nleaf root,
      exec .build s = .next
        { s with node := node, nleaf := nleaf, root := root, phase := .built, result := .ok } ∧
      nleaf.toNat = (counted s).length ∧
      root.toNat = (if (counted s).length ≤ 1 then 0 else 2 * (counted s).length - 2) ∧
      node.length = (if (counted s).length = 0 then 0 else 2 * (counted s).length - 1)

/-- R128: BUILD seeds one leaf per counted symbol, in ascending order of symbol value, at the indices 0 .. L-1; NLEAF is L; the
leaf of a symbol stands at the number of counted symbols below it. -/
def Obligations.LeavesStandInSymbolOrder : Prop :=
  ∀ s t : State, s.phase = .count → exec .build s = .next t →
    t.nleaf.toNat = (counted s).length ∧
    t.node.take (counted s).length =
      ((counted s).map fun p =>
        ({ leaf := true, sym := p, freq := freqAt s.freq p, left := 0, right := 0 } : Node)) ∧
    ∀ sym, freqAt s.freq sym ≠ 0 →
      ∃ nd, t.node[((counted s).filter fun x => decide (x.toNat < sym.toNat)).length]? = some nd ∧ nd.sym = sym

/-- R130, R131, R132: every internal node is what one merge makes: of the nodes below it that had no parent yet, LEFT is the one
with the smallest key (FREQ, index), RIGHT the next, and FREQ is their sum. -/
def Obligations.InternalNodesMergeTheTwoSmallest : Prop :=
  ∀ (s : State) (i : Nat) (nd : Node), Inv s → s.phase = .built → s.nleaf.toNat ≤ i → s.node[i]? = some nd →
    nd.leaf = false ∧ nd.sym = 0 ∧ nd.left.toNat < i ∧ nd.right.toNat < i ∧ nd.left ≠ nd.right ∧
    Parentless s.node i nd.left.toNat ∧ Parentless s.node i nd.right.toNat ∧
    KeyBefore s.node nd.left.toNat nd.right.toNat ∧
    (∀ j, j < i → j ≠ nd.left.toNat → j ≠ nd.right.toNat → Parentless s.node i j →
      KeyBefore s.node nd.left.toNat j ∧ KeyBefore s.node nd.right.toNat j) ∧
    ∃ x y, s.node[nd.left.toNat]? = some x ∧ s.node[nd.right.toNat]? = some y ∧
      nd.freq.toNat = x.freq.toNat + y.freq.toNat

/-- R131: the priority queue removes and answers the member with the smallest key (FREQ, index), compared first by FREQ and then
by index; a working set that is not empty has one. -/
def Obligations.ExtractMinTakesTheSmallestKey : Prop :=
  (∀ (w rest : List Item) (m : Item), extractMin w = some (m, rest) →
    (m :: rest).Perm w ∧
    ∀ x ∈ w, m.freq.toNat < x.freq.toNat ∨ (m.freq.toNat = x.freq.toNat ∧ m.idx ≤ x.idx)) ∧
  ∀ w : List Item, w ≠ [] → ∃ m rest, extractMin w = some (m, rest)

/-- R47: the source's tree invariants in BUILT phase: every leaf's symbol is unique; one leaf per symbol with `freq[s] > 0`; L - 1
internal nodes, none for L <= 1, each with exactly two children; the leaf frequencies sum to TOTAL; each leaf's FREQ is
`freq[SYM]`. -/
def Obligations.BuiltTreeMeetsTheSourcesInvariants : Prop :=
  ∀ s : State, Inv s → s.phase = .built →
    ((s.node.filter fun nd => nd.leaf).map Node.sym).Nodup ∧
    (∀ sym, sym ∈ (s.node.filter fun nd => nd.leaf).map Node.sym ↔ freqAt s.freq sym ≠ 0) ∧
    (s.node.filter fun nd => !nd.leaf).length =
      (if (counted s).length ≤ 1 then 0 else (counted s).length - 1) ∧
    (∀ nd ∈ s.node, nd.leaf = false →
      nd.left.toNat < s.node.length ∧ nd.right.toNat < s.node.length ∧ nd.left ≠ nd.right) ∧
    ((s.node.filter fun nd => nd.leaf).map fun nd => nd.freq.toNat).sum = s.total.toNat ∧
    ∀ nd ∈ s.node, nd.leaf = true → nd.freq = freqAt s.freq nd.sym

/-- R130: the root is the last node made, and its FREQ is TOTAL (R39, R127). -/
def Obligations.RootFrequencyIsTheTotal : Prop :=
  ∀ s : State, Inv s → s.phase = .built → s.nleaf ≠ 0 →
    s.root.toNat + 1 = s.node.length ∧ ∃ nd, s.node[s.root.toNat]? = some nd ∧ nd.freq = s.total

/-- R133: every symbol with `freq[s] > 0` has exactly one leaf, reached from ROOT by exactly one path. -/
def Obligations.EveryCountedSymbolHasExactlyOnePath : Prop :=
  ∀ (s : State) (sym : Sym), Inv s → s.phase = .built → freqAt s.freq sym ≠ 0 →
    ∃ p n nd, walk s.node p s.root = some n ∧ s.node[n.toNat]? = some nd ∧ nd.leaf = true ∧ nd.sym = sym ∧
      ∀ p' n' nd', walk s.node p' s.root = some n' → s.node[n'.toNat]? = some nd' → nd'.leaf = true → nd'.sym = sym →
        p' = p ∧ n' = n

/-- R133: for L >= 2 the codes are prefix-free. -/
def Obligations.CodesArePrefixFree : Prop :=
  ∀ (s : State) (a b : Sym) (ca cb : List Bool), Inv s → s.phase = .built → 2 ≤ s.nleaf.toNat →
    freqAt s.freq a ≠ 0 → freqAt s.freq b ≠ 0 → a ≠ b → codeOf s a = some ca → codeOf s b = some cb → ¬ca.IsPrefix cb

/-! ### The encoder (41_encoder.md) -/

/-- R151, R152, R162: the code of a counted symbol: the single bit 0 in a one-leaf tree, else the path from ROOT to the symbol's
leaf, of 1 to NLEAF - 1 bits, at most MAX_CODE_LEN = 255. -/
def Obligations.CodesAreThePathsAndTheirLengthsAreBounded : Prop :=
  ∀ (s : State) (sym : Sym), Inv s → s.phase = .built → freqAt s.freq sym ≠ 0 →
    ∃ c, codeOf s sym = some c ∧ (s.nleaf = 1 → c = [false]) ∧
      (2 ≤ s.nleaf.toNat →
        (∃ n nd, walk s.node c s.root = some n ∧ s.node[n.toNat]? = some nd ∧ nd.leaf = true ∧ nd.sym = sym) ∧
        1 ≤ c.length ∧ c.length ≤ s.nleaf.toNat - 1 ∧ s.nleaf.toNat - 1 ≤ 255)

/-- R153: ENC_START: its word, PHASE_ERROR without a tree, otherwise a new session from every encoder state; words still in
ENC_FIFO are discarded, ERR_INFO is not cleared. -/
def Obligations.EncStartCommand : Prop :=
  encode .encStart = 0x30000000 ∧
  (∀ s : State, s.phase = .count → exec .encStart s = .next { s with result := .phaseError }) ∧
  ∀ s : State, s.phase = .built → exec .encStart s = .next
    { s with
      encState := .active, encErr := .ok, encAcc := 0, encAccn := 0, encBitcnt := 0, encFifo := [], result := .ok }

/-- R155, R156: ENC_SYM, where its code and the space for it are there, ends OK and appends the code, first bit first, to what
the session holds; ENC_BITCNT counts it modulo 2^64; words already in ENC_FIFO stay; nothing else but RESULT changes. -/
def Obligations.EncSymAppendsTheCode : Prop :=
  ∀ (sym : Sym) (s : State) (c : List Bool), s.phase = .built → s.encState = .active → freqAt s.freq sym ≠ 0 →
    codeOf s sym = some c → (s.encAccn.toNat + c.length) / 32 ≤ s.params.encDepth - s.encFifo.length →
    ∃ acc accn fifo,
      exec (.encSym sym) s = .next
        { s with
          encAcc := acc, encAccn := accn, encFifo := s.encFifo ++ fifo
          encBitcnt := s.encBitcnt + BitVec.ofNat 64 c.length, result := .ok } ∧
      (s.encFifo ++ fifo).flatMap wordBits ++ (wordBits acc).take accn.toNat =
        s.encFifo.flatMap wordBits ++ (wordBits s.encAcc).take s.encAccn.toNat ++ c ∧
      fifo.length = (s.encAccn.toNat + c.length) / 32 ∧ accn.toNat = (s.encAccn.toNat + c.length) % 32

/-- R156, R232: when ENC_SYM does not append, in the order of the checks: PHASE_ERROR, SESSION_FAILED, the failure UNKNOWN_SYMBOL,
OUTPUT_FULL; its word. -/
def Obligations.EncSymRejectsAndFails : Prop :=
  (∀ sym : Sym, encode (.encSym sym) = 0x40000000 ||| sym.setWidth 32) ∧
  ∀ (sym : Sym) (s : State),
    (s.phase = .count → exec (.encSym sym) s = .next { s with result := .phaseError }) ∧
    (s.phase = .built → s.encState = .idle → exec (.encSym sym) s = .next { s with result := .phaseError }) ∧
    (s.phase = .built → s.encState = .failed → exec (.encSym sym) s = .next { s with result := .sessionFailed }) ∧
    (s.phase = .built → s.encState = .active → freqAt s.freq sym = 0 →
      exec (.encSym sym) s = .next
        { s with
          result := .unknownSymbol, encState := .failed, encErr := .unknownSymbol, errInfo := sym.setWidth 32 }) ∧
    (s.phase = .built → s.encState = .active → freqAt s.freq sym ≠ 0 → ∀ c, codeOf s sym = some c →
      s.params.encDepth - s.encFifo.length < (s.encAccn.toNat + c.length) / 32 →
      exec (.encSym sym) s = .next { s with result := .outputFull })

/-- R157, R9: one ENC_SYM completes at most 8 words, so into an empty encoder FIFO it always has room: a counted symbol is then
encoded. -/
def Obligations.EncSymIntoAnEmptyFifoHasRoom : Prop :=
  ∀ (sym : Sym) (s : State), Inv s → s.phase = .built → s.encState = .active → freqAt s.freq sym ≠ 0 →
    (∀ c, codeOf s sym = some c → (s.encAccn.toNat + c.length) / 32 ≤ 8) ∧
    (s.encFifo = [] → ∃ t, exec (.encSym sym) s = .next t ∧ t.result = .ok)

/-- R160: ENC_END: its word, its rejects in the order of R232, and where it is accepted: a held partial word is pushed, its unused
low bits 0, and the session is closed; where ENC_BITCNT is a multiple of 32 nothing is pushed. -/
def Obligations.EncEndCommand : Prop :=
  encode .encEnd = 0x50000000 ∧
  ∀ s : State,
    (s.phase = .count → exec .encEnd s = .next { s with result := .phaseError }) ∧
    (s.phase = .built → s.encState = .idle → exec .encEnd s = .next { s with result := .phaseError }) ∧
    (s.phase = .built → s.encState = .failed → exec .encEnd s = .next { s with result := .sessionFailed }) ∧
    (s.phase = .built → s.encState = .active → s.encAccn ≠ 0 → s.params.encDepth - s.encFifo.length < 1 →
      exec .encEnd s = .next { s with result := .outputFull }) ∧
    (s.phase = .built → s.encState = .active → s.encAccn = 0 →
      exec .encEnd s = .next { s with encState := .idle, result := .ok }) ∧
    (s.phase = .built → s.encState = .active → s.encAccn ≠ 0 → 1 ≤ s.params.encDepth - s.encFifo.length →
      exec .encEnd s = .next
        { s with
          encFifo := s.encFifo ++ [s.encAcc], encAcc := 0, encAccn := 0, encState := .idle, result := .ok }) ∧
    (Inv s → s.encState = .active →
      (s.encBitcnt.toNat % 32 = 0 ↔ s.encAccn = 0) ∧
      ∀ j, j < 32 - s.encAccn.toNat → s.encAcc.getLsbD j = false)

/-- R159, whatever the host reads from ENC_DATA between the commands: after ENC_START and ENC_SYM `s1` .. `sn` all with result OK,
the bits of the words read, of those in ENC_FIFO and of the partial word are `Code(s1) ++ ... ++ Code(sn)`, and ENC_BITCNT is
its length modulo 2^64. After an ENC_END with result OK the words read and those in ENC_FIFO hold the whole sequence, and where
ENC_BITCNT has not wrapped their first ENC_BITCNT bits are it (R160, R161). -/
def Obligations.EncoderOutputLaw : Prop :=
  ∀ (syms : List (Nat × Sym)) (s t : State) (res : List ResultCode) (out : List Word),
    runReadingWords ((0, .encStart) :: syms.map fun c => (c.1, .encSym c.2)) s = some (res, out, t) →
    (∀ r ∈ res, r = .ok) →
    ∃ codes : List (List Bool), (syms.map fun c => codeOf s c.2) = codes.map some ∧
      (out ++ t.encFifo).flatMap wordBits ++ (wordBits t.encAcc).take t.encAccn.toNat = codes.flatten ∧
      t.encBitcnt = BitVec.ofNat 64 (codes.map List.length).sum ∧
      t.encBitcnt.toNat = (codes.map List.length).sum % 2 ^ 64 ∧
      ∀ (k : Nat) (out' : List Word) (u : State), runReadingWords [(k, .encEnd)] t = some ([.ok], out', u) →
        u.encBitcnt = t.encBitcnt ∧ (out ++ out' ++ u.encFifo).length = (codes.flatten.length + 31) / 32 ∧
        ((out ++ out' ++ u.encFifo).flatMap wordBits).take codes.flatten.length = codes.flatten ∧
        (codes.flatten.length < 2 ^ 64 →
          ((out ++ out' ++ u.encFifo).flatMap wordBits).take u.encBitcnt.toNat = codes.flatten)

/-- R163, R192: on the empty tree both sessions open and close with no output, any ENC_SYM fails with UNKNOWN_SYMBOL, and any
DEC_BITS fails with EMPTY_TREE_DECODE and ERR_INFO = 0. -/
def Obligations.EmptyTreeSessions : Prop :=
  ∀ s : State, Inv s → s.phase = .built → s.nleaf = 0 →
    (∃ t, runOk [.encStart, .encEnd] s = some t ∧ t.encFifo = [] ∧ t.encBitcnt = 0) ∧
    (∃ t, runOk [.decStart, .decEnd] s = some t ∧ t.decFifo = []) ∧
    (s.encState = .active → ∀ sym, exec (.encSym sym) s = .next
      { s with
        result := .unknownSymbol, encState := .failed, encErr := .unknownSymbol, errInfo := sym.setWidth 32 }) ∧
    (s.decState = .active → ∀ nbits bits, 1 ≤ nbits.toNat → nbits.toNat ≤ 16 →
      exec (.decBits nbits bits) s = .next
        { s with result := .emptyTreeDecode, decState := .failed, decErr := .emptyTreeDecode, errInfo := 0 })

/-! ### The decoder (42_decoder.md) -/

/-- R182: DEC_START: its word, PHASE_ERROR without a tree, otherwise a new session from every decoder state with the cursor at
ROOT; unread symbols are discarded, ERR_INFO is not cleared. -/
def Obligations.DecStartCommand : Prop :=
  encode .decStart = 0x60000000 ∧
  (∀ s : State, s.phase = .count → exec .decStart s = .next { s with result := .phaseError }) ∧
  ∀ s : State, s.phase = .built → exec .decStart s = .next
    { s with
      decState := .active, decErr := .ok, decCursor := s.root, decPos := 0, decFifo := [], result := .ok }

/-- R181, R187, R188: in a tree of two leaves or more a DEC_BITS with room is the source's walk from the cursor over the chunk's
bits: it always finds its child, ends OK, consumes all its bits and pushes the symbols the walk emits. -/
def Obligations.DecBitsIsTheSourcesWalk : Prop :=
  ∀ (nbits : BitVec 5) (bits : BitVec 16) (s : State), Inv s → s.phase = .built → s.decState = .active →
    2 ≤ s.nleaf.toNat → 1 ≤ nbits.toNat → nbits.toNat ≤ 16 →
    nbits.toNat ≤ s.params.decDepth - s.decFifo.length →
    ∃ cur syms,
      sourceWalk s.node s.root ((List.range nbits.toNat).map fun k => bits.getLsbD (15 - k)) s.decCursor =
        some (cur, syms) ∧
      exec (.decBits nbits bits) s = .next
        { s with
          decCursor := cur, decPos := s.decPos + nbits.setWidth 64, decFifo := s.decFifo ++ syms, result := .ok }

/-- R187, R188: in a one-leaf tree each bit 0 emits the one symbol, and the first bit 1 fails with MALFORMED_ENCODING: the bits
before it have been applied, it is not counted in DEC_POS, ERR_INFO is its index, the bits after it are discarded. -/
def Obligations.DecBitsOnAOneLeafTree : Prop :=
  ∀ (nbits : BitVec 5) (bits : BitVec 16) (s : State), Inv s → s.phase = .built → s.decState = .active →
    s.nleaf = 1 → 1 ≤ nbits.toNat → nbits.toNat ≤ 16 → nbits.toNat ≤ s.params.decDepth - s.decFifo.length →
    ∃ sym, freqAt s.freq sym ≠ 0 ∧
      ((∀ k, k < nbits.toNat → bits.getLsbD (15 - k) = false) →
        exec (.decBits nbits bits) s = .next
          { s with
            decPos := s.decPos + nbits.setWidth 64, decFifo := s.decFifo ++ List.replicate nbits.toNat sym
            result := .ok }) ∧
      ∀ k, k < nbits.toNat → (∀ j, j < k → bits.getLsbD (15 - j) = false) → bits.getLsbD (15 - k) = true →
        exec (.decBits nbits bits) s = .next
          { s with
            decPos := s.decPos + BitVec.ofNat 64 k, decFifo := s.decFifo ++ List.replicate k sym
            result := .malformedEncoding, decState := .failed, decErr := .malformedEncoding
            errInfo := (s.decPos + BitVec.ofNat 64 k).setWidth 32 }

/-- R185, R186, R232: when DEC_BITS consumes no bit, in the order of the checks: ILLEGAL_COMMAND, PHASE_ERROR, SESSION_FAILED, the
failure EMPTY_TREE_DECODE, OUTPUT_FULL; its word. -/
def Obligations.DecBitsRejectsAndFails : Prop :=
  (∀ (nbits : BitVec 5) (bits : BitVec 16),
    encode (.decBits nbits bits) = 0x70000000 ||| (nbits.setWidth 32 <<< 16) ||| bits.setWidth 32) ∧
  ∀ (nbits : BitVec 5) (bits : BitVec 16) (s : State),
    (nbits.toNat = 0 ∨ 16 < nbits.toNat →
      exec (.decBits nbits bits) s = .next { s with result := .illegalCommand }) ∧
    (1 ≤ nbits.toNat → nbits.toNat ≤ 16 →
      (s.phase = .count → exec (.decBits nbits bits) s = .next { s with result := .phaseError }) ∧
      (s.phase = .built → s.decState = .idle →
        exec (.decBits nbits bits) s = .next { s with result := .phaseError }) ∧
      (s.phase = .built → s.decState = .failed →
        exec (.decBits nbits bits) s = .next { s with result := .sessionFailed }) ∧
      (s.phase = .built → s.decState = .active → s.nleaf = 0 →
        exec (.decBits nbits bits) s = .next
          { s with
            result := .emptyTreeDecode, decState := .failed, decErr := .emptyTreeDecode
            errInfo := s.decPos.setWidth 32 }) ∧
      (s.phase = .built → s.decState = .active → s.nleaf ≠ 0 →
        s.params.decDepth - s.decFifo.length < nbits.toNat →
        exec (.decBits nbits bits) s = .next { s with result := .outputFull }))

/-- R190: DEC_END: its word, its rejects, TRUNCATED_ENCODING where a code is in progress, otherwise the session is closed. -/
def Obligations.DecEndCommand : Prop :=
  encode .decEnd = 0x80000000 ∧
  ∀ s : State,
    (s.phase = .count → exec .decEnd s = .next { s with result := .phaseError }) ∧
    (s.phase = .built → s.decState = .idle → exec .decEnd s = .next { s with result := .phaseError }) ∧
    (s.phase = .built → s.decState = .failed → exec .decEnd s = .next { s with result := .sessionFailed }) ∧
    (s.phase = .built → s.decState = .active → s.decCursor ≠ s.root →
      exec .decEnd s = .next
        { s with
          result := .truncatedEncoding, decState := .failed, decErr := .truncatedEncoding
          errInfo := s.decPos.setWidth 32 }) ∧
    (s.phase = .built → s.decState = .active → s.decCursor = s.root →
      exec .decEnd s = .next { s with decState := .idle, result := .ok })

/-- R191: on one built tree, if the chunks of a decoder session concatenate to `Code(s1) ++ ... ++ Code(sn)` and the FIFO has
room for them, every DEC_BITS and the DEC_END end OK and the symbols pushed are `s1, ..., sn`, in order. -/
def Obligations.RoundTripLaw : Prop :=
  ∀ (syms : List Sym) (codes : List (List Bool)) (chunks : List (BitVec 5 × BitVec 16)) (s : State),
    Inv s → s.phase = .built → (∀ sym ∈ syms, freqAt s.freq sym ≠ 0) → syms.map (codeOf s) = codes.map some →
    (∀ c ∈ chunks, 1 ≤ c.1.toNat ∧ c.1.toNat ≤ 16) →
    chunks.flatMap (fun c => (List.range c.1.toNat).map fun k => c.2.getLsbD (15 - k)) = codes.flatten →
    codes.flatten.length ≤ s.params.decDepth →
    ∃ t, runOk (.decStart :: (chunks.map fun c => .decBits c.1 c.2) ++ [.decEnd]) s = some t ∧ t.decFifo = syms ∧
      t.decPos = BitVec.ofNat 64 codes.flatten.length ∧ t.decState = .idle ∧ t.node = s.node ∧ t.freq = s.freq

/-- R191, whole: on one built tree, whatever the host reads from DEC_DATA between the commands of a decoder session, if the chunks
concatenate to `Code(s1) ++ ... ++ Code(sn)` and no command is rejected with OUTPUT_FULL, then every command ends OK and the symbols
read and still in DEC_FIFO are `s1, ..., sn`, in order. -/
def Obligations.RoundTripLawWithReads : Prop :=
  ∀ (syms out : List Sym) (codes : List (List Bool)) (chunks : List (Nat × BitVec 5 × BitVec 16)) (k : Nat) (s t : State)
    (res : List ResultCode),
    Inv s → s.phase = .built → (∀ sym ∈ syms, freqAt s.freq sym ≠ 0) → syms.map (codeOf s) = codes.map some →
    (∀ c ∈ chunks, 1 ≤ c.2.1.toNat ∧ c.2.1.toNat ≤ 16) →
    chunks.flatMap (fun c => (List.range c.2.1.toNat).map fun j => c.2.2.getLsbD (15 - j)) = codes.flatten →
    runReading ((0, .decStart) :: (chunks.map fun c => (c.1, .decBits c.2.1 c.2.2)) ++ [(k, .decEnd)]) s =
      some (res, out, t) →
    .outputFull ∉ res → (∀ r ∈ res, r = .ok) ∧ out ++ t.decFifo = syms

/-- R194: the chunks of the recipe concatenate to the encoder's BitSequence (R161), and every one is a legal command. -/
def Obligations.FeedRecipeCarriesTheBitSequence : Prop :=
  ∀ (n : Nat) (words : List Word), n ≤ 32 * words.length →
    (feedCommands n words).flatMap commandBits = (words.flatMap wordBits).take n ∧
    ∀ i ∈ feedCommands n words, ∃ nbits bits, i = .decBits nbits bits ∧ 1 ≤ nbits.toNat ∧ nbits.toNat ≤ 16

/-! ### Inspection (43_inspect.md) -/

/-- R211: QUERY_FREQ: its word and its effect, in both phases and every session state. -/
def Obligations.QueryFreqCommand : Prop :=
  (∀ sym : Sym, encode (.queryFreq sym) = 0x90000000 ||| sym.setWidth 32) ∧
  ∀ (sym : Sym) (s : State),
    exec (.queryFreq sym) s = .next { s with rdata0 := freqAt s.freq sym, rdata1 := 0, result := .ok }

/-- R213, R214, R215: QUERY_NODE: its word, its rejects, and the node it reads where the index is below NNODE. -/
def Obligations.QueryNodeCommand : Prop :=
  (∀ idx : NodeIdx, encode (.queryNode idx) = 0xA0000000 ||| idx.setWidth 32) ∧
  ∀ (idx : NodeIdx) (s : State),
    (s.phase = .count → exec (.queryNode idx) s = .next { s with result := .phaseError }) ∧
    (s.phase = .built → (if s.nleaf = 0 then 0 else 2 * s.nleaf.toNat - 1) ≤ idx.toNat →
      exec (.queryNode idx) s = .next { s with result := .badIndex }) ∧
    (Inv s → s.phase = .built → s.nleaf ≠ 0 → idx.toNat < 2 * s.nleaf.toNat - 1 →
      ∃ nd, s.node[idx.toNat]? = some nd ∧
        exec (.queryNode idx) s = .next
          { s with
            rdata0 := nd.freq, rdata1 := BitVec.ofBool nd.leaf ++ 0#5 ++ nd.right ++ nd.left ++ nd.sym
            result := .ok })
end

