-- ==== Sys2Proof/Laws/State.lean ====
section
/-! SUPPORT. One lemma per field per update of State: later proofs unfold no record update. -/

namespace Sys2Proof.Machine

/-! ### `st.RESULT <- c` -/
@[simp] theorem State.withResult_params (s : State) (c : ResultCode) : (s.withResult c).params = s.params := rfl
@[simp] theorem State.withResult_phase (s : State) (c : ResultCode) : (s.withResult c).phase = s.phase := rfl
@[simp] theorem State.withResult_freq (s : State) (c : ResultCode) : (s.withResult c).freq = s.freq := rfl
@[simp] theorem State.withResult_total (s : State) (c : ResultCode) : (s.withResult c).total = s.total := rfl
@[simp] theorem State.withResult_nleaf (s : State) (c : ResultCode) : (s.withResult c).nleaf = s.nleaf := rfl
@[simp] theorem State.withResult_root (s : State) (c : ResultCode) : (s.withResult c).root = s.root := rfl
@[simp] theorem State.withResult_node (s : State) (c : ResultCode) : (s.withResult c).node = s.node := rfl
@[simp] theorem State.withResult_encState (s : State) (c : ResultCode) : (s.withResult c).encState = s.encState := rfl
@[simp] theorem State.withResult_encErr (s : State) (c : ResultCode) : (s.withResult c).encErr = s.encErr := rfl
@[simp] theorem State.withResult_encAcc (s : State) (c : ResultCode) : (s.withResult c).encAcc = s.encAcc := rfl
@[simp] theorem State.withResult_encAccn (s : State) (c : ResultCode) : (s.withResult c).encAccn = s.encAccn := rfl
@[simp] theorem State.withResult_encBitcnt (s : State) (c : ResultCode) : (s.withResult c).encBitcnt = s.encBitcnt := rfl
@[simp] theorem State.withResult_encFifo (s : State) (c : ResultCode) : (s.withResult c).encFifo = s.encFifo := rfl
@[simp] theorem State.withResult_decState (s : State) (c : ResultCode) : (s.withResult c).decState = s.decState := rfl
@[simp] theorem State.withResult_decErr (s : State) (c : ResultCode) : (s.withResult c).decErr = s.decErr := rfl
@[simp] theorem State.withResult_decCursor (s : State) (c : ResultCode) : (s.withResult c).decCursor = s.decCursor := rfl
@[simp] theorem State.withResult_decPos (s : State) (c : ResultCode) : (s.withResult c).decPos = s.decPos := rfl
@[simp] theorem State.withResult_decFifo (s : State) (c : ResultCode) : (s.withResult c).decFifo = s.decFifo := rfl
@[simp] theorem State.withResult_result (s : State) (c : ResultCode) : (s.withResult c).result = c := rfl
@[simp] theorem State.withResult_errInfo (s : State) (c : ResultCode) : (s.withResult c).errInfo = s.errInfo := rfl
@[simp] theorem State.withResult_rdata0 (s : State) (c : ResultCode) : (s.withResult c).rdata0 = s.rdata0 := rfl
@[simp] theorem State.withResult_rdata1 (s : State) (c : ResultCode) : (s.withResult c).rdata1 = s.rdata1 := rfl
@[simp] theorem State.withResult_pending (s : State) (c : ResultCode) : (s.withResult c).pending = s.pending := rfl
@[simp] theorem State.withResult_overrun (s : State) (c : ResultCode) : (s.withResult c).overrun = s.overrun := rfl
@[simp] theorem State.withResult_events (s : State) (c : ResultCode) : (s.withResult c).events = s.events := rfl
@[simp] theorem State.withResult_reads (s : State) (c : ResultCode) : (s.withResult c).reads = s.reads := rfl
@[simp] theorem State.withResult_draws (s : State) (c : ResultCode) : (s.withResult c).draws = s.draws := rfl

/-! ### `fail` of the encoder -/
@[simp] theorem State.failSession_encoder_params (s : State) (c : ResultCode) (info : Word) :
    (s.failSession .encoder c info).params = s.params := rfl
@[simp] theorem State.failSession_encoder_phase (s : State) (c : ResultCode) (info : Word) :
    (s.failSession .encoder c info).phase = s.phase := rfl
@[simp] theorem State.failSession_encoder_freq (s : State) (c : ResultCode) (info : Word) :
    (s.failSession .encoder c info).freq = s.freq := rfl
@[simp] theorem State.failSession_encoder_total (s : State) (c : ResultCode) (info : Word) :
    (s.failSession .encoder c info).total = s.total := rfl
@[simp] theorem State.failSession_encoder_nleaf (s : State) (c : ResultCode) (info : Word) :
    (s.failSession .encoder c info).nleaf = s.nleaf := rfl
@[simp] theorem State.failSession_encoder_root (s : State) (c : ResultCode) (info : Word) :
    (s.failSession .encoder c info).root = s.root := rfl
@[simp] theorem State.failSession_encoder_node (s : State) (c : ResultCode) (info : Word) :
    (s.failSession .encoder c info).node = s.node := rfl
@[simp] theorem State.failSession_encoder_encState (s : State) (c : ResultCode) (info : Word) :
    (s.failSession .encoder c info).encState = .failed := rfl
@[simp] theorem State.failSession_encoder_encErr (s : State) (c : ResultCode) (info : Word) :
    (s.failSession .encoder c info).encErr = c := rfl
@[simp] theorem State.failSession_encoder_encAcc (s : State) (c : ResultCode) (info : Word) :
    (s.failSession .encoder c info).encAcc = s.encAcc := rfl
@[simp] theorem State.failSession_encoder_encAccn (s : State) (c : ResultCode) (info : Word) :
    (s.failSession .encoder c info).encAccn = s.encAccn := rfl
@[simp] theorem State.failSession_encoder_encBitcnt (s : State) (c : ResultCode) (info : Word) :
    (s.failSession .encoder c info).encBitcnt = s.encBitcnt := rfl
@[simp] theorem State.failSession_encoder_encFifo (s : State) (c : ResultCode) (info : Word) :
    (s.failSession .encoder c info).encFifo = s.encFifo := rfl
@[simp] theorem State.failSession_encoder_decState (s : State) (c : ResultCode) (info : Word) :
    (s.failSession .encoder c info).decState = s.decState := rfl
@[simp] theorem State.failSession_encoder_decErr (s : State) (c : ResultCode) (info : Word) :
    (s.failSession .encoder c info).decErr = s.decErr := rfl
@[simp] theorem State.failSession_encoder_decCursor (s : State) (c : ResultCode) (info : Word) :
    (s.failSession .encoder c info).decCursor = s.decCursor := rfl
@[simp] theorem State.failSession_encoder_decPos (s : State) (c : ResultCode) (info : Word) :
    (s.failSession .encoder c info).decPos = s.decPos := rfl
@[simp] theorem State.failSession_encoder_decFifo (s : State) (c : ResultCode) (info : Word) :
    (s.failSession .encoder c info).decFifo = s.decFifo := rfl
@[simp] theorem State.failSession_encoder_result (s : State) (c : ResultCode) (info : Word) :
    (s.failSession .encoder c info).result = c := rfl
@[simp] theorem State.failSession_encoder_errInfo (s : State) (c : ResultCode) (info : Word) :
    (s.failSession .encoder c info).errInfo = info := rfl
@[simp] theorem State.failSession_encoder_rdata0 (s : State) (c : ResultCode) (info : Word) :
    (s.failSession .encoder c info).rdata0 = s.rdata0 := rfl
@[simp] theorem State.failSession_encoder_rdata1 (s : State) (c : ResultCode) (info : Word) :
    (s.failSession .encoder c info).rdata1 = s.rdata1 := rfl
@[simp] theorem State.failSession_encoder_pending (s : State) (c : ResultCode) (info : Word) :
    (s.failSession .encoder c info).pending = s.pending := rfl
@[simp] theorem State.failSession_encoder_overrun (s : State) (c : ResultCode) (info : Word) :
    (s.failSession .encoder c info).overrun = s.overrun := rfl
@[simp] theorem State.failSession_encoder_events (s : State) (c : ResultCode) (info : Word) :
    (s.failSession .encoder c info).events = s.events := rfl
@[simp] theorem State.failSession_encoder_reads (s : State) (c : ResultCode) (info : Word) :
    (s.failSession .encoder c info).reads = s.reads := rfl
@[simp] theorem State.failSession_encoder_draws (s : State) (c : ResultCode) (info : Word) :
    (s.failSession .encoder c info).draws = s.draws := rfl
/-! ### `fail` of the decoder -/
@[simp] theorem State.failSession_decoder_params (s : State) (c : ResultCode) (info : Word) :
    (s.failSession .decoder c info).params = s.params := rfl
@[simp] theorem State.failSession_decoder_phase (s : State) (c : ResultCode) (info : Word) :
    (s.failSession .decoder c info).phase = s.phase := rfl
@[simp] theorem State.failSession_decoder_freq (s : State) (c : ResultCode) (info : Word) :
    (s.failSession .decoder c info).freq = s.freq := rfl
@[simp] theorem State.failSession_decoder_total (s : State) (c : ResultCode) (info : Word) :
    (s.failSession .decoder c info).total = s.total := rfl
@[simp] theorem State.failSession_decoder_nleaf (s : State) (c : ResultCode) (info : Word) :
    (s.failSession .decoder c info).nleaf = s.nleaf := rfl
@[simp] theorem State.failSession_decoder_root (s : State) (c : ResultCode) (info : Word) :
    (s.failSession .decoder c info).root = s.root := rfl
@[simp] theorem State.failSession_decoder_node (s : State) (c : ResultCode) (info : Word) :
    (s.failSession .decoder c info).node = s.node := rfl
@[simp] theorem State.failSession_decoder_encState (s : State) (c : ResultCode) (info : Word) :
    (s.failSession .decoder c info).encState = s.encState := rfl
@[simp] theorem State.failSession_decoder_encErr (s : State) (c : ResultCode) (info : Word) :
    (s.failSession .decoder c info).encErr = s.encErr := rfl
@[simp] theorem State.failSession_decoder_encAcc (s : State) (c : ResultCode) (info : Word) :
    (s.failSession .decoder c info).encAcc = s.encAcc := rfl
@[simp] theorem State.failSession_decoder_encAccn (s : State) (c : ResultCode) (info : Word) :
    (s.failSession .decoder c info).encAccn = s.encAccn := rfl
@[simp] theorem State.failSession_decoder_encBitcnt (s : State) (c : ResultCode) (info : Word) :
    (s.failSession .decoder c info).encBitcnt = s.encBitcnt := rfl
@[simp] theorem State.failSession_decoder_encFifo (s : State) (c : ResultCode) (info : Word) :
    (s.failSession .decoder c info).encFifo = s.encFifo := rfl
@[simp] theorem State.failSession_decoder_decState (s : State) (c : ResultCode) (info : Word) :
    (s.failSession .decoder c info).decState = .failed := rfl
@[simp] theorem State.failSession_decoder_decErr (s : State) (c : ResultCode) (info : Word) :
    (s.failSession .decoder c info).decErr = c := rfl
@[simp] theorem State.failSession_decoder_decCursor (s : State) (c : ResultCode) (info : Word) :
    (s.failSession .decoder c info).decCursor = s.decCursor := rfl
@[simp] theorem State.failSession_decoder_decPos (s : State) (c : ResultCode) (info : Word) :
    (s.failSession .decoder c info).decPos = s.decPos := rfl
@[simp] theorem State.failSession_decoder_decFifo (s : State) (c : ResultCode) (info : Word) :
    (s.failSession .decoder c info).decFifo = s.decFifo := rfl
@[simp] theorem State.failSession_decoder_result (s : State) (c : ResultCode) (info : Word) :
    (s.failSession .decoder c info).result = c := rfl
@[simp] theorem State.failSession_decoder_errInfo (s : State) (c : ResultCode) (info : Word) :
    (s.failSession .decoder c info).errInfo = info := rfl
@[simp] theorem State.failSession_decoder_rdata0 (s : State) (c : ResultCode) (info : Word) :
    (s.failSession .decoder c info).rdata0 = s.rdata0 := rfl
@[simp] theorem State.failSession_decoder_rdata1 (s : State) (c : ResultCode) (info : Word) :
    (s.failSession .decoder c info).rdata1 = s.rdata1 := rfl
@[simp] theorem State.failSession_decoder_pending (s : State) (c : ResultCode) (info : Word) :
    (s.failSession .decoder c info).pending = s.pending := rfl
@[simp] theorem State.failSession_decoder_overrun (s : State) (c : ResultCode) (info : Word) :
    (s.failSession .decoder c info).overrun = s.overrun := rfl
@[simp] theorem State.failSession_decoder_events (s : State) (c : ResultCode) (info : Word) :
    (s.failSession .decoder c info).events = s.events := rfl
@[simp] theorem State.failSession_decoder_reads (s : State) (c : ResultCode) (info : Word) :
    (s.failSession .decoder c info).reads = s.reads := rfl
@[simp] theorem State.failSession_decoder_draws (s : State) (c : ResultCode) (info : Word) :
    (s.failSession .decoder c info).draws = s.draws := rfl
/-! ### ENC_START -/
@[simp] theorem State.openEncoder_params (s : State) : (s.openEncoder).params = s.params := rfl
@[simp] theorem State.openEncoder_phase (s : State) : (s.openEncoder).phase = s.phase := rfl
@[simp] theorem State.openEncoder_freq (s : State) : (s.openEncoder).freq = s.freq := rfl
@[simp] theorem State.openEncoder_total (s : State) : (s.openEncoder).total = s.total := rfl
@[simp] theorem State.openEncoder_nleaf (s : State) : (s.openEncoder).nleaf = s.nleaf := rfl
@[simp] theorem State.openEncoder_root (s : State) : (s.openEncoder).root = s.root := rfl
@[simp] theorem State.openEncoder_node (s : State) : (s.openEncoder).node = s.node := rfl
@[simp] theorem State.openEncoder_encState (s : State) : (s.openEncoder).encState = .active := rfl
@[simp] theorem State.openEncoder_encErr (s : State) : (s.openEncoder).encErr = .ok := rfl
@[simp] theorem State.openEncoder_encAcc (s : State) : (s.openEncoder).encAcc = 0 := rfl
@[simp] theorem State.openEncoder_encAccn (s : State) : (s.openEncoder).encAccn = 0 := rfl
@[simp] theorem State.openEncoder_encBitcnt (s : State) : (s.openEncoder).encBitcnt = 0 := rfl
@[simp] theorem State.openEncoder_encFifo (s : State) : (s.openEncoder).encFifo = [] := rfl
@[simp] theorem State.openEncoder_decState (s : State) : (s.openEncoder).decState = s.decState := rfl
@[simp] theorem State.openEncoder_decErr (s : State) : (s.openEncoder).decErr = s.decErr := rfl
@[simp] theorem State.openEncoder_decCursor (s : State) : (s.openEncoder).decCursor = s.decCursor := rfl
@[simp] theorem State.openEncoder_decPos (s : State) : (s.openEncoder).decPos = s.decPos := rfl
@[simp] theorem State.openEncoder_decFifo (s : State) : (s.openEncoder).decFifo = s.decFifo := rfl
@[simp] theorem State.openEncoder_result (s : State) : (s.openEncoder).result = s.result := rfl
@[simp] theorem State.openEncoder_errInfo (s : State) : (s.openEncoder).errInfo = s.errInfo := rfl
@[simp] theorem State.openEncoder_rdata0 (s : State) : (s.openEncoder).rdata0 = s.rdata0 := rfl
@[simp] theorem State.openEncoder_rdata1 (s : State) : (s.openEncoder).rdata1 = s.rdata1 := rfl
@[simp] theorem State.openEncoder_pending (s : State) : (s.openEncoder).pending = s.pending := rfl
@[simp] theorem State.openEncoder_overrun (s : State) : (s.openEncoder).overrun = s.overrun := rfl
@[simp] theorem State.openEncoder_events (s : State) : (s.openEncoder).events = s.events := rfl
@[simp] theorem State.openEncoder_reads (s : State) : (s.openEncoder).reads = s.reads := rfl
@[simp] theorem State.openEncoder_draws (s : State) : (s.openEncoder).draws = s.draws := rfl

/-! ### DEC_START -/
@[simp] theorem State.openDecoder_params (s : State) : (s.openDecoder).params = s.params := rfl
@[simp] theorem State.openDecoder_phase (s : State) : (s.openDecoder).phase = s.phase := rfl
@[simp] theorem State.openDecoder_freq (s : State) : (s.openDecoder).freq = s.freq := rfl
@[simp] theorem State.openDecoder_total (s : State) : (s.openDecoder).total = s.total := rfl
@[simp] theorem State.openDecoder_nleaf (s : State) : (s.openDecoder).nleaf = s.nleaf := rfl
@[simp] theorem State.openDecoder_root (s : State) : (s.openDecoder).root = s.root := rfl
@[simp] theorem State.openDecoder_node (s : State) : (s.openDecoder).node = s.node := rfl
@[simp] theorem State.openDecoder_encState (s : State) : (s.openDecoder).encState = s.encState := rfl
@[simp] theorem State.openDecoder_encErr (s : State) : (s.openDecoder).encErr = s.encErr := rfl
@[simp] theorem State.openDecoder_encAcc (s : State) : (s.openDecoder).encAcc = s.encAcc := rfl
@[simp] theorem State.openDecoder_encAccn (s : State) : (s.openDecoder).encAccn = s.encAccn := rfl
@[simp] theorem State.openDecoder_encBitcnt (s : State) : (s.openDecoder).encBitcnt = s.encBitcnt := rfl
@[simp] theorem State.openDecoder_encFifo (s : State) : (s.openDecoder).encFifo = s.encFifo := rfl
@[simp] theorem State.openDecoder_decState (s : State) : (s.openDecoder).decState = .active := rfl
@[simp] theorem State.openDecoder_decErr (s : State) : (s.openDecoder).decErr = .ok := rfl
@[simp] theorem State.openDecoder_decCursor (s : State) : (s.openDecoder).decCursor = s.root := rfl
@[simp] theorem State.openDecoder_decPos (s : State) : (s.openDecoder).decPos = 0 := rfl
@[simp] theorem State.openDecoder_decFifo (s : State) : (s.openDecoder).decFifo = [] := rfl
@[simp] theorem State.openDecoder_result (s : State) : (s.openDecoder).result = s.result := rfl
@[simp] theorem State.openDecoder_errInfo (s : State) : (s.openDecoder).errInfo = s.errInfo := rfl
@[simp] theorem State.openDecoder_rdata0 (s : State) : (s.openDecoder).rdata0 = s.rdata0 := rfl
@[simp] theorem State.openDecoder_rdata1 (s : State) : (s.openDecoder).rdata1 = s.rdata1 := rfl
@[simp] theorem State.openDecoder_pending (s : State) : (s.openDecoder).pending = s.pending := rfl
@[simp] theorem State.openDecoder_overrun (s : State) : (s.openDecoder).overrun = s.overrun := rfl
@[simp] theorem State.openDecoder_events (s : State) : (s.openDecoder).events = s.events := rfl
@[simp] theorem State.openDecoder_reads (s : State) : (s.openDecoder).reads = s.reads := rfl
@[simp] theorem State.openDecoder_draws (s : State) : (s.openDecoder).draws = s.draws := rfl

/-! ### BUILD -/
@[simp] theorem State.builtTree_params (s : State) : (s.builtTree).params = s.params := rfl
@[simp] theorem State.builtTree_phase (s : State) : (s.builtTree).phase = .built := rfl
@[simp] theorem State.builtTree_freq (s : State) : (s.builtTree).freq = s.freq := rfl
@[simp] theorem State.builtTree_total (s : State) : (s.builtTree).total = s.total := rfl
@[simp] theorem State.builtTree_nleaf (s : State) : (s.builtTree).nleaf = BitVec.ofNat 9 (leafCount s.freq) := rfl
@[simp] theorem State.builtTree_root (s : State) : (s.builtTree).root = buildRoot s.params s.freq := rfl
@[simp] theorem State.builtTree_node (s : State) : (s.builtTree).node = buildNodes s.params s.freq := rfl
@[simp] theorem State.builtTree_encState (s : State) : (s.builtTree).encState = s.encState := rfl
@[simp] theorem State.builtTree_encErr (s : State) : (s.builtTree).encErr = s.encErr := rfl
@[simp] theorem State.builtTree_encAcc (s : State) : (s.builtTree).encAcc = s.encAcc := rfl
@[simp] theorem State.builtTree_encAccn (s : State) : (s.builtTree).encAccn = s.encAccn := rfl
@[simp] theorem State.builtTree_encBitcnt (s : State) : (s.builtTree).encBitcnt = s.encBitcnt := rfl
@[simp] theorem State.builtTree_encFifo (s : State) : (s.builtTree).encFifo = s.encFifo := rfl
@[simp] theorem State.builtTree_decState (s : State) : (s.builtTree).decState = s.decState := rfl
@[simp] theorem State.builtTree_decErr (s : State) : (s.builtTree).decErr = s.decErr := rfl
@[simp] theorem State.builtTree_decCursor (s : State) : (s.builtTree).decCursor = s.decCursor := rfl
@[simp] theorem State.builtTree_decPos (s : State) : (s.builtTree).decPos = s.decPos := rfl
@[simp] theorem State.builtTree_decFifo (s : State) : (s.builtTree).decFifo = s.decFifo := rfl
@[simp] theorem State.builtTree_result (s : State) : (s.builtTree).result = s.result := rfl
@[simp] theorem State.builtTree_errInfo (s : State) : (s.builtTree).errInfo = s.errInfo := rfl
@[simp] theorem State.builtTree_rdata0 (s : State) : (s.builtTree).rdata0 = s.rdata0 := rfl
@[simp] theorem State.builtTree_rdata1 (s : State) : (s.builtTree).rdata1 = s.rdata1 := rfl
@[simp] theorem State.builtTree_pending (s : State) : (s.builtTree).pending = s.pending := rfl
@[simp] theorem State.builtTree_overrun (s : State) : (s.builtTree).overrun = s.overrun := rfl
@[simp] theorem State.builtTree_events (s : State) : (s.builtTree).events = s.events := rfl
@[simp] theorem State.builtTree_reads (s : State) : (s.builtTree).reads = s.reads := rfl
@[simp] theorem State.builtTree_draws (s : State) : (s.builtTree).draws = s.draws := rfl

/-! ### A bit consumed -/
@[simp] theorem State.bitTaken_params (s : State) : (s.bitTaken).params = s.params := rfl
@[simp] theorem State.bitTaken_phase (s : State) : (s.bitTaken).phase = s.phase := rfl
@[simp] theorem State.bitTaken_freq (s : State) : (s.bitTaken).freq = s.freq := rfl
@[simp] theorem State.bitTaken_total (s : State) : (s.bitTaken).total = s.total := rfl
@[simp] theorem State.bitTaken_nleaf (s : State) : (s.bitTaken).nleaf = s.nleaf := rfl
@[simp] theorem State.bitTaken_root (s : State) : (s.bitTaken).root = s.root := rfl
@[simp] theorem State.bitTaken_node (s : State) : (s.bitTaken).node = s.node := rfl
@[simp] theorem State.bitTaken_encState (s : State) : (s.bitTaken).encState = s.encState := rfl
@[simp] theorem State.bitTaken_encErr (s : State) : (s.bitTaken).encErr = s.encErr := rfl
@[simp] theorem State.bitTaken_encAcc (s : State) : (s.bitTaken).encAcc = s.encAcc := rfl
@[simp] theorem State.bitTaken_encAccn (s : State) : (s.bitTaken).encAccn = s.encAccn := rfl
@[simp] theorem State.bitTaken_encBitcnt (s : State) : (s.bitTaken).encBitcnt = s.encBitcnt := rfl
@[simp] theorem State.bitTaken_encFifo (s : State) : (s.bitTaken).encFifo = s.encFifo := rfl
@[simp] theorem State.bitTaken_decState (s : State) : (s.bitTaken).decState = s.decState := rfl
@[simp] theorem State.bitTaken_decErr (s : State) : (s.bitTaken).decErr = s.decErr := rfl
@[simp] theorem State.bitTaken_decCursor (s : State) : (s.bitTaken).decCursor = s.decCursor := rfl
@[simp] theorem State.bitTaken_decPos (s : State) : (s.bitTaken).decPos = s.decPos + 1 := rfl
@[simp] theorem State.bitTaken_decFifo (s : State) : (s.bitTaken).decFifo = s.decFifo := rfl
@[simp] theorem State.bitTaken_result (s : State) : (s.bitTaken).result = s.result := rfl
@[simp] theorem State.bitTaken_errInfo (s : State) : (s.bitTaken).errInfo = s.errInfo := rfl
@[simp] theorem State.bitTaken_rdata0 (s : State) : (s.bitTaken).rdata0 = s.rdata0 := rfl
@[simp] theorem State.bitTaken_rdata1 (s : State) : (s.bitTaken).rdata1 = s.rdata1 := rfl
@[simp] theorem State.bitTaken_pending (s : State) : (s.bitTaken).pending = s.pending := rfl
@[simp] theorem State.bitTaken_overrun (s : State) : (s.bitTaken).overrun = s.overrun := rfl
@[simp] theorem State.bitTaken_events (s : State) : (s.bitTaken).events = s.events := rfl
@[simp] theorem State.bitTaken_reads (s : State) : (s.bitTaken).reads = s.reads := rfl
@[simp] theorem State.bitTaken_draws (s : State) : (s.bitTaken).draws = s.draws := rfl

/-! ### A symbol emitted -/
@[simp] theorem State.pushSymbol_params (s : State) (sym : Sym) : (s.pushSymbol sym).params = s.params := rfl
@[simp] theorem State.pushSymbol_phase (s : State) (sym : Sym) : (s.pushSymbol sym).phase = s.phase := rfl
@[simp] theorem State.pushSymbol_freq (s : State) (sym : Sym) : (s.pushSymbol sym).freq = s.freq := rfl
@[simp] theorem State.pushSymbol_total (s : State) (sym : Sym) : (s.pushSymbol sym).total = s.total := rfl
@[simp] theorem State.pushSymbol_nleaf (s : State) (sym : Sym) : (s.pushSymbol sym).nleaf = s.nleaf := rfl
@[simp] theorem State.pushSymbol_root (s : State) (sym : Sym) : (s.pushSymbol sym).root = s.root := rfl
@[simp] theorem State.pushSymbol_node (s : State) (sym : Sym) : (s.pushSymbol sym).node = s.node := rfl
@[simp] theorem State.pushSymbol_encState (s : State) (sym : Sym) : (s.pushSymbol sym).encState = s.encState := rfl
@[simp] theorem State.pushSymbol_encErr (s : State) (sym : Sym) : (s.pushSymbol sym).encErr = s.encErr := rfl
@[simp] theorem State.pushSymbol_encAcc (s : State) (sym : Sym) : (s.pushSymbol sym).encAcc = s.encAcc := rfl
@[simp] theorem State.pushSymbol_encAccn (s : State) (sym : Sym) : (s.pushSymbol sym).encAccn = s.encAccn := rfl
@[simp] theorem State.pushSymbol_encBitcnt (s : State) (sym : Sym) : (s.pushSymbol sym).encBitcnt = s.encBitcnt := rfl
@[simp] theorem State.pushSymbol_encFifo (s : State) (sym : Sym) : (s.pushSymbol sym).encFifo = s.encFifo := rfl
@[simp] theorem State.pushSymbol_decState (s : State) (sym : Sym) : (s.pushSymbol sym).decState = s.decState := rfl
@[simp] theorem State.pushSymbol_decErr (s : State) (sym : Sym) : (s.pushSymbol sym).decErr = s.decErr := rfl
@[simp] theorem State.pushSymbol_decCursor (s : State) (sym : Sym) : (s.pushSymbol sym).decCursor = s.decCursor := rfl
@[simp] theorem State.pushSymbol_decPos (s : State) (sym : Sym) : (s.pushSymbol sym).decPos = s.decPos := rfl
@[simp] theorem State.pushSymbol_decFifo (s : State) (sym : Sym) : (s.pushSymbol sym).decFifo = s.decFifo ++ [sym] := rfl
@[simp] theorem State.pushSymbol_result (s : State) (sym : Sym) : (s.pushSymbol sym).result = s.result := rfl
@[simp] theorem State.pushSymbol_errInfo (s : State) (sym : Sym) : (s.pushSymbol sym).errInfo = s.errInfo := rfl
@[simp] theorem State.pushSymbol_rdata0 (s : State) (sym : Sym) : (s.pushSymbol sym).rdata0 = s.rdata0 := rfl
@[simp] theorem State.pushSymbol_rdata1 (s : State) (sym : Sym) : (s.pushSymbol sym).rdata1 = s.rdata1 := rfl
@[simp] theorem State.pushSymbol_pending (s : State) (sym : Sym) : (s.pushSymbol sym).pending = s.pending := rfl
@[simp] theorem State.pushSymbol_overrun (s : State) (sym : Sym) : (s.pushSymbol sym).overrun = s.overrun := rfl
@[simp] theorem State.pushSymbol_events (s : State) (sym : Sym) : (s.pushSymbol sym).events = s.events := rfl
@[simp] theorem State.pushSymbol_reads (s : State) (sym : Sym) : (s.pushSymbol sym).reads = s.reads := rfl
@[simp] theorem State.pushSymbol_draws (s : State) (sym : Sym) : (s.pushSymbol sym).draws = s.draws := rfl

/-! ### A value read by the host -/
@[simp] theorem State.hostGot_params (s : State) (v : Word) : (s.hostGot v).params = s.params := rfl
@[simp] theorem State.hostGot_phase (s : State) (v : Word) : (s.hostGot v).phase = s.phase := rfl
@[simp] theorem State.hostGot_freq (s : State) (v : Word) : (s.hostGot v).freq = s.freq := rfl
@[simp] theorem State.hostGot_total (s : State) (v : Word) : (s.hostGot v).total = s.total := rfl
@[simp] theorem State.hostGot_nleaf (s : State) (v : Word) : (s.hostGot v).nleaf = s.nleaf := rfl
@[simp] theorem State.hostGot_root (s : State) (v : Word) : (s.hostGot v).root = s.root := rfl
@[simp] theorem State.hostGot_node (s : State) (v : Word) : (s.hostGot v).node = s.node := rfl
@[simp] theorem State.hostGot_encState (s : State) (v : Word) : (s.hostGot v).encState = s.encState := rfl
@[simp] theorem State.hostGot_encErr (s : State) (v : Word) : (s.hostGot v).encErr = s.encErr := rfl
@[simp] theorem State.hostGot_encAcc (s : State) (v : Word) : (s.hostGot v).encAcc = s.encAcc := rfl
@[simp] theorem State.hostGot_encAccn (s : State) (v : Word) : (s.hostGot v).encAccn = s.encAccn := rfl
@[simp] theorem State.hostGot_encBitcnt (s : State) (v : Word) : (s.hostGot v).encBitcnt = s.encBitcnt := rfl
@[simp] theorem State.hostGot_encFifo (s : State) (v : Word) : (s.hostGot v).encFifo = s.encFifo := rfl
@[simp] theorem State.hostGot_decState (s : State) (v : Word) : (s.hostGot v).decState = s.decState := rfl
@[simp] theorem State.hostGot_decErr (s : State) (v : Word) : (s.hostGot v).decErr = s.decErr := rfl
@[simp] theorem State.hostGot_decCursor (s : State) (v : Word) : (s.hostGot v).decCursor = s.decCursor := rfl
@[simp] theorem State.hostGot_decPos (s : State) (v : Word) : (s.hostGot v).decPos = s.decPos := rfl
@[simp] theorem State.hostGot_decFifo (s : State) (v : Word) : (s.hostGot v).decFifo = s.decFifo := rfl
@[simp] theorem State.hostGot_result (s : State) (v : Word) : (s.hostGot v).result = s.result := rfl
@[simp] theorem State.hostGot_errInfo (s : State) (v : Word) : (s.hostGot v).errInfo = s.errInfo := rfl
@[simp] theorem State.hostGot_rdata0 (s : State) (v : Word) : (s.hostGot v).rdata0 = s.rdata0 := rfl
@[simp] theorem State.hostGot_rdata1 (s : State) (v : Word) : (s.hostGot v).rdata1 = s.rdata1 := rfl
@[simp] theorem State.hostGot_pending (s : State) (v : Word) : (s.hostGot v).pending = s.pending := rfl
@[simp] theorem State.hostGot_overrun (s : State) (v : Word) : (s.hostGot v).overrun = s.overrun := rfl
@[simp] theorem State.hostGot_events (s : State) (v : Word) : (s.hostGot v).events = s.events := rfl
@[simp] theorem State.hostGot_reads (s : State) (v : Word) : (s.hostGot v).reads = s.reads ++ [v] := rfl
@[simp] theorem State.hostGot_draws (s : State) (v : Word) : (s.hostGot v).draws = s.draws := rfl

/-! ### A command latched -/
@[simp] theorem State.latch_params (s : State) (w : Word) : (s.latch w).params = s.params := rfl
@[simp] theorem State.latch_phase (s : State) (w : Word) : (s.latch w).phase = s.phase := rfl
@[simp] theorem State.latch_freq (s : State) (w : Word) : (s.latch w).freq = s.freq := rfl
@[simp] theorem State.latch_total (s : State) (w : Word) : (s.latch w).total = s.total := rfl
@[simp] theorem State.latch_nleaf (s : State) (w : Word) : (s.latch w).nleaf = s.nleaf := rfl
@[simp] theorem State.latch_root (s : State) (w : Word) : (s.latch w).root = s.root := rfl
@[simp] theorem State.latch_node (s : State) (w : Word) : (s.latch w).node = s.node := rfl
@[simp] theorem State.latch_encState (s : State) (w : Word) : (s.latch w).encState = s.encState := rfl
@[simp] theorem State.latch_encErr (s : State) (w : Word) : (s.latch w).encErr = s.encErr := rfl
@[simp] theorem State.latch_encAcc (s : State) (w : Word) : (s.latch w).encAcc = s.encAcc := rfl
@[simp] theorem State.latch_encAccn (s : State) (w : Word) : (s.latch w).encAccn = s.encAccn := rfl
@[simp] theorem State.latch_encBitcnt (s : State) (w : Word) : (s.latch w).encBitcnt = s.encBitcnt := rfl
@[simp] theorem State.latch_encFifo (s : State) (w : Word) : (s.latch w).encFifo = s.encFifo := rfl
@[simp] theorem State.latch_decState (s : State) (w : Word) : (s.latch w).decState = s.decState := rfl
@[simp] theorem State.latch_decErr (s : State) (w : Word) : (s.latch w).decErr = s.decErr := rfl
@[simp] theorem State.latch_decCursor (s : State) (w : Word) : (s.latch w).decCursor = s.decCursor := rfl
@[simp] theorem State.latch_decPos (s : State) (w : Word) : (s.latch w).decPos = s.decPos := rfl
@[simp] theorem State.latch_decFifo (s : State) (w : Word) : (s.latch w).decFifo = s.decFifo := rfl
@[simp] theorem State.latch_result (s : State) (w : Word) : (s.latch w).result = s.result := rfl
@[simp] theorem State.latch_errInfo (s : State) (w : Word) : (s.latch w).errInfo = s.errInfo := rfl
@[simp] theorem State.latch_rdata0 (s : State) (w : Word) : (s.latch w).rdata0 = s.rdata0 := rfl
@[simp] theorem State.latch_rdata1 (s : State) (w : Word) : (s.latch w).rdata1 = s.rdata1 := rfl
@[simp] theorem State.latch_pending (s : State) (w : Word) : (s.latch w).pending = some w := rfl
@[simp] theorem State.latch_overrun (s : State) (w : Word) : (s.latch w).overrun = s.overrun := rfl
@[simp] theorem State.latch_events (s : State) (w : Word) : (s.latch w).events = s.events := rfl
@[simp] theorem State.latch_reads (s : State) (w : Word) : (s.latch w).reads = s.reads := rfl
@[simp] theorem State.latch_draws (s : State) (w : Word) : (s.latch w).draws = s.draws := rfl

/-! ### BUSY cleared -/
@[simp] theorem State.unlatch_params (s : State) : (s.unlatch).params = s.params := rfl
@[simp] theorem State.unlatch_phase (s : State) : (s.unlatch).phase = s.phase := rfl
@[simp] theorem State.unlatch_freq (s : State) : (s.unlatch).freq = s.freq := rfl
@[simp] theorem State.unlatch_total (s : State) : (s.unlatch).total = s.total := rfl
@[simp] theorem State.unlatch_nleaf (s : State) : (s.unlatch).nleaf = s.nleaf := rfl
@[simp] theorem State.unlatch_root (s : State) : (s.unlatch).root = s.root := rfl
@[simp] theorem State.unlatch_node (s : State) : (s.unlatch).node = s.node := rfl
@[simp] theorem State.unlatch_encState (s : State) : (s.unlatch).encState = s.encState := rfl
@[simp] theorem State.unlatch_encErr (s : State) : (s.unlatch).encErr = s.encErr := rfl
@[simp] theorem State.unlatch_encAcc (s : State) : (s.unlatch).encAcc = s.encAcc := rfl
@[simp] theorem State.unlatch_encAccn (s : State) : (s.unlatch).encAccn = s.encAccn := rfl
@[simp] theorem State.unlatch_encBitcnt (s : State) : (s.unlatch).encBitcnt = s.encBitcnt := rfl
@[simp] theorem State.unlatch_encFifo (s : State) : (s.unlatch).encFifo = s.encFifo := rfl
@[simp] theorem State.unlatch_decState (s : State) : (s.unlatch).decState = s.decState := rfl
@[simp] theorem State.unlatch_decErr (s : State) : (s.unlatch).decErr = s.decErr := rfl
@[simp] theorem State.unlatch_decCursor (s : State) : (s.unlatch).decCursor = s.decCursor := rfl
@[simp] theorem State.unlatch_decPos (s : State) : (s.unlatch).decPos = s.decPos := rfl
@[simp] theorem State.unlatch_decFifo (s : State) : (s.unlatch).decFifo = s.decFifo := rfl
@[simp] theorem State.unlatch_result (s : State) : (s.unlatch).result = s.result := rfl
@[simp] theorem State.unlatch_errInfo (s : State) : (s.unlatch).errInfo = s.errInfo := rfl
@[simp] theorem State.unlatch_rdata0 (s : State) : (s.unlatch).rdata0 = s.rdata0 := rfl
@[simp] theorem State.unlatch_rdata1 (s : State) : (s.unlatch).rdata1 = s.rdata1 := rfl
@[simp] theorem State.unlatch_pending (s : State) : (s.unlatch).pending = none := rfl
@[simp] theorem State.unlatch_overrun (s : State) : (s.unlatch).overrun = s.overrun := rfl
@[simp] theorem State.unlatch_events (s : State) : (s.unlatch).events = s.events := rfl
@[simp] theorem State.unlatch_reads (s : State) : (s.unlatch).reads = s.reads := rfl
@[simp] theorem State.unlatch_draws (s : State) : (s.unlatch).draws = s.draws := rfl

/-! ### CLEAR -/
@[simp] theorem State.cleared_params (s : State) : (s.cleared).params = s.params := rfl
@[simp] theorem State.cleared_phase (s : State) : (s.cleared).phase = .count := rfl
@[simp] theorem State.cleared_freq (s : State) : (s.cleared).freq = Vector.replicate 256 0 := rfl
@[simp] theorem State.cleared_total (s : State) : (s.cleared).total = 0 := rfl
@[simp] theorem State.cleared_nleaf (s : State) : (s.cleared).nleaf = 0 := rfl
@[simp] theorem State.cleared_root (s : State) : (s.cleared).root = 0 := rfl
@[simp] theorem State.cleared_node (s : State) : (s.cleared).node = [] := rfl
@[simp] theorem State.cleared_encState (s : State) : (s.cleared).encState = .idle := rfl
@[simp] theorem State.cleared_encErr (s : State) : (s.cleared).encErr = .ok := rfl
@[simp] theorem State.cleared_encAcc (s : State) : (s.cleared).encAcc = 0 := rfl
@[simp] theorem State.cleared_encAccn (s : State) : (s.cleared).encAccn = 0 := rfl
@[simp] theorem State.cleared_encBitcnt (s : State) : (s.cleared).encBitcnt = 0 := rfl
@[simp] theorem State.cleared_encFifo (s : State) : (s.cleared).encFifo = [] := rfl
@[simp] theorem State.cleared_decState (s : State) : (s.cleared).decState = .idle := rfl
@[simp] theorem State.cleared_decErr (s : State) : (s.cleared).decErr = .ok := rfl
@[simp] theorem State.cleared_decCursor (s : State) : (s.cleared).decCursor = 0 := rfl
@[simp] theorem State.cleared_decPos (s : State) : (s.cleared).decPos = 0 := rfl
@[simp] theorem State.cleared_decFifo (s : State) : (s.cleared).decFifo = [] := rfl
@[simp] theorem State.cleared_result (s : State) : (s.cleared).result = s.result := rfl
@[simp] theorem State.cleared_errInfo (s : State) : (s.cleared).errInfo = 0 := rfl
@[simp] theorem State.cleared_rdata0 (s : State) : (s.cleared).rdata0 = 0 := rfl
@[simp] theorem State.cleared_rdata1 (s : State) : (s.cleared).rdata1 = 0 := rfl
@[simp] theorem State.cleared_pending (s : State) : (s.cleared).pending = s.pending := rfl
@[simp] theorem State.cleared_overrun (s : State) : (s.cleared).overrun = s.overrun := rfl
@[simp] theorem State.cleared_events (s : State) : (s.cleared).events = s.events := rfl
@[simp] theorem State.cleared_reads (s : State) : (s.cleared).reads = s.reads := rfl
@[simp] theorem State.cleared_draws (s : State) : (s.cleared).draws = s.draws := rfl

/-! ### The reset input -/
@[simp] theorem resetDevice_params (s : State) : (resetDevice s).params = s.params := rfl
@[simp] theorem resetDevice_phase (s : State) : (resetDevice s).phase = .count := rfl
@[simp] theorem resetDevice_freq (s : State) : (resetDevice s).freq = Vector.replicate 256 0 := rfl
@[simp] theorem resetDevice_total (s : State) : (resetDevice s).total = 0 := rfl
@[simp] theorem resetDevice_nleaf (s : State) : (resetDevice s).nleaf = 0 := rfl
@[simp] theorem resetDevice_root (s : State) : (resetDevice s).root = 0 := rfl
@[simp] theorem resetDevice_node (s : State) : (resetDevice s).node = [] := rfl
@[simp] theorem resetDevice_encState (s : State) : (resetDevice s).encState = .idle := rfl
@[simp] theorem resetDevice_encErr (s : State) : (resetDevice s).encErr = .ok := rfl
@[simp] theorem resetDevice_encAcc (s : State) : (resetDevice s).encAcc = 0 := rfl
@[simp] theorem resetDevice_encAccn (s : State) : (resetDevice s).encAccn = 0 := rfl
@[simp] theorem resetDevice_encBitcnt (s : State) : (resetDevice s).encBitcnt = 0 := rfl
@[simp] theorem resetDevice_encFifo (s : State) : (resetDevice s).encFifo = [] := rfl
@[simp] theorem resetDevice_decState (s : State) : (resetDevice s).decState = .idle := rfl
@[simp] theorem resetDevice_decErr (s : State) : (resetDevice s).decErr = .ok := rfl
@[simp] theorem resetDevice_decCursor (s : State) : (resetDevice s).decCursor = 0 := rfl
@[simp] theorem resetDevice_decPos (s : State) : (resetDevice s).decPos = 0 := rfl
@[simp] theorem resetDevice_decFifo (s : State) : (resetDevice s).decFifo = [] := rfl
@[simp] theorem resetDevice_result (s : State) : (resetDevice s).result = .ok := rfl
@[simp] theorem resetDevice_errInfo (s : State) : (resetDevice s).errInfo = 0 := rfl
@[simp] theorem resetDevice_rdata0 (s : State) : (resetDevice s).rdata0 = 0 := rfl
@[simp] theorem resetDevice_rdata1 (s : State) : (resetDevice s).rdata1 = 0 := rfl
@[simp] theorem resetDevice_pending (s : State) : (resetDevice s).pending = none := rfl
@[simp] theorem resetDevice_overrun (s : State) : (resetDevice s).overrun = false := rfl
@[simp] theorem resetDevice_events (s : State) : (resetDevice s).events = s.events := rfl
@[simp] theorem resetDevice_reads (s : State) : (resetDevice s).reads = s.reads := rfl
@[simp] theorem resetDevice_draws (s : State) : (resetDevice s).draws = s.draws := rfl

/-! ### One bit appended: what it leaves -/
@[simp] theorem appendBit_params (s : State) (b : Bool) : (appendBit s b).params = s.params := by unfold appendBit; split <;> rfl
@[simp] theorem appendBit_phase (s : State) (b : Bool) : (appendBit s b).phase = s.phase := by unfold appendBit; split <;> rfl
@[simp] theorem appendBit_freq (s : State) (b : Bool) : (appendBit s b).freq = s.freq := by unfold appendBit; split <;> rfl
@[simp] theorem appendBit_total (s : State) (b : Bool) : (appendBit s b).total = s.total := by unfold appendBit; split <;> rfl
@[simp] theorem appendBit_nleaf (s : State) (b : Bool) : (appendBit s b).nleaf = s.nleaf := by unfold appendBit; split <;> rfl
@[simp] theorem appendBit_root (s : State) (b : Bool) : (appendBit s b).root = s.root := by unfold appendBit; split <;> rfl
@[simp] theorem appendBit_node (s : State) (b : Bool) : (appendBit s b).node = s.node := by unfold appendBit; split <;> rfl
@[simp] theorem appendBit_encState (s : State) (b : Bool) : (appendBit s b).encState = s.encState := by unfold appendBit; split <;> rfl
@[simp] theorem appendBit_encErr (s : State) (b : Bool) : (appendBit s b).encErr = s.encErr := by unfold appendBit; split <;> rfl
@[simp] theorem appendBit_encBitcnt (s : State) (b : Bool) : (appendBit s b).encBitcnt = s.encBitcnt := by unfold appendBit; split <;> rfl
@[simp] theorem appendBit_decState (s : State) (b : Bool) : (appendBit s b).decState = s.decState := by unfold appendBit; split <;> rfl
@[simp] theorem appendBit_decErr (s : State) (b : Bool) : (appendBit s b).decErr = s.decErr := by unfold appendBit; split <;> rfl
@[simp] theorem appendBit_decCursor (s : State) (b : Bool) : (appendBit s b).decCursor = s.decCursor := by unfold appendBit; split <;> rfl
@[simp] theorem appendBit_decPos (s : State) (b : Bool) : (appendBit s b).decPos = s.decPos := by unfold appendBit; split <;> rfl
@[simp] theorem appendBit_decFifo (s : State) (b : Bool) : (appendBit s b).decFifo = s.decFifo := by unfold appendBit; split <;> rfl
@[simp] theorem appendBit_result (s : State) (b : Bool) : (appendBit s b).result = s.result := by unfold appendBit; split <;> rfl
@[simp] theorem appendBit_errInfo (s : State) (b : Bool) : (appendBit s b).errInfo = s.errInfo := by unfold appendBit; split <;> rfl
@[simp] theorem appendBit_rdata0 (s : State) (b : Bool) : (appendBit s b).rdata0 = s.rdata0 := by unfold appendBit; split <;> rfl
@[simp] theorem appendBit_rdata1 (s : State) (b : Bool) : (appendBit s b).rdata1 = s.rdata1 := by unfold appendBit; split <;> rfl
@[simp] theorem appendBit_pending (s : State) (b : Bool) : (appendBit s b).pending = s.pending := by unfold appendBit; split <;> rfl
@[simp] theorem appendBit_overrun (s : State) (b : Bool) : (appendBit s b).overrun = s.overrun := by unfold appendBit; split <;> rfl
@[simp] theorem appendBit_events (s : State) (b : Bool) : (appendBit s b).events = s.events := by unfold appendBit; split <;> rfl
@[simp] theorem appendBit_reads (s : State) (b : Bool) : (appendBit s b).reads = s.reads := by unfold appendBit; split <;> rfl
@[simp] theorem appendBit_draws (s : State) (b : Bool) : (appendBit s b).draws = s.draws := by unfold appendBit; split <;> rfl

/-! ### The partial word flushed: what it leaves -/
@[simp] theorem flushWord_params (s : State) : (flushWord s).params = s.params := by unfold flushWord; split <;> rfl
@[simp] theorem flushWord_phase (s : State) : (flushWord s).phase = s.phase := by unfold flushWord; split <;> rfl
@[simp] theorem flushWord_freq (s : State) : (flushWord s).freq = s.freq := by unfold flushWord; split <;> rfl
@[simp] theorem flushWord_total (s : State) : (flushWord s).total = s.total := by unfold flushWord; split <;> rfl
@[simp] theorem flushWord_nleaf (s : State) : (flushWord s).nleaf = s.nleaf := by unfold flushWord; split <;> rfl
@[simp] theorem flushWord_root (s : State) : (flushWord s).root = s.root := by unfold flushWord; split <;> rfl
@[simp] theorem flushWord_node (s : State) : (flushWord s).node = s.node := by unfold flushWord; split <;> rfl
@[simp] theorem flushWord_encState (s : State) : (flushWord s).encState = s.encState := by unfold flushWord; split <;> rfl
@[simp] theorem flushWord_encErr (s : State) : (flushWord s).encErr = s.encErr := by unfold flushWord; split <;> rfl
@[simp] theorem flushWord_encBitcnt (s : State) : (flushWord s).encBitcnt = s.encBitcnt := by unfold flushWord; split <;> rfl
@[simp] theorem flushWord_decState (s : State) : (flushWord s).decState = s.decState := by unfold flushWord; split <;> rfl
@[simp] theorem flushWord_decErr (s : State) : (flushWord s).decErr = s.decErr := by unfold flushWord; split <;> rfl
@[simp] theorem flushWord_decCursor (s : State) : (flushWord s).decCursor = s.decCursor := by unfold flushWord; split <;> rfl
@[simp] theorem flushWord_decPos (s : State) : (flushWord s).decPos = s.decPos := by unfold flushWord; split <;> rfl
@[simp] theorem flushWord_decFifo (s : State) : (flushWord s).decFifo = s.decFifo := by unfold flushWord; split <;> rfl
@[simp] theorem flushWord_result (s : State) : (flushWord s).result = s.result := by unfold flushWord; split <;> rfl
@[simp] theorem flushWord_errInfo (s : State) : (flushWord s).errInfo = s.errInfo := by unfold flushWord; split <;> rfl
@[simp] theorem flushWord_rdata0 (s : State) : (flushWord s).rdata0 = s.rdata0 := by unfold flushWord; split <;> rfl
@[simp] theorem flushWord_rdata1 (s : State) : (flushWord s).rdata1 = s.rdata1 := by unfold flushWord; split <;> rfl
@[simp] theorem flushWord_pending (s : State) : (flushWord s).pending = s.pending := by unfold flushWord; split <;> rfl
@[simp] theorem flushWord_overrun (s : State) : (flushWord s).overrun = s.overrun := by unfold flushWord; split <;> rfl
@[simp] theorem flushWord_events (s : State) : (flushWord s).events = s.events := by unfold flushWord; split <;> rfl
@[simp] theorem flushWord_reads (s : State) : (flushWord s).reads = s.reads := by unfold flushWord; split <;> rfl
@[simp] theorem flushWord_draws (s : State) : (flushWord s).draws = s.draws := by unfold flushWord; split <;> rfl

end Sys2Proof.Machine
end

