-- ==== Sys2Proof/Laws/Bus.lean ====
section
/-! SUPPORT. Register words and accesses: the fields of STATUS, the offsets of the window. -/

namespace Sys2Proof.Machine

/-- A field that lies in the upper part of a concatenation. -/
theorem extract_append_high {n m : Nat} (x : BitVec n) (y : BitVec m) (i k : Nat) (h : m ≤ i) :
    (x ++ y).extractLsb' i k = x.extractLsb' (i - m) k := by
  apply BitVec.eq_of_getLsbD_eq
  intro j hj
  simp only [BitVec.getLsbD_extractLsb', hj, decide_true, Bool.true_and, BitVec.getLsbD_append]
  rw [if_neg (by omega)]
  congr 1; omega

theorem extract_append_low {n m : Nat} (x : BitVec n) (y : BitVec m) (i k : Nat) (h : i + k ≤ m) :
    (x ++ y).extractLsb' i k = y.extractLsb' i k := by
  apply BitVec.eq_of_getLsbD_eq
  intro j hj
  simp only [BitVec.getLsbD_extractLsb', hj, decide_true, Bool.true_and, BitVec.getLsbD_append]
  rw [if_pos (by omega)]

theorem extract_append_zero {n m : Nat} (x : BitVec n) (y : BitVec m) : (x ++ y).extractLsb' 0 m = y := by
  rw [extract_append_low _ _ _ _ (by omega)]; exact BitVec.extractLsb'_eq_self

/-- The fields of STATUS stand where R31 puts them. -/
theorem statusWord_fields (s : State) :
    (statusWord s).getLsbD 0 = s.busy ∧ (statusWord s).extractLsb' 1 1 = s.phase.bits ∧
      (statusWord s).extractLsb' 2 2 = s.encState.bits ∧ (statusWord s).extractLsb' 4 2 = s.decState.bits ∧
      (statusWord s).getLsbD 6 = s.overrun ∧ (statusWord s).getLsbD 7 = false ∧
      (statusWord s).extractLsb' 8 4 = s.result.bits ∧ (statusWord s).extractLsb' 12 4 = s.encErr.bits ∧
      (statusWord s).extractLsb' 16 4 = s.decErr.bits ∧ (statusWord s).extractLsb' 20 12 = 0#12 := by
  unfold statusWord
  refine ⟨?_, ?_, ?_, ?_, ?_, ?_, ?_, ?_, ?_, ?_⟩
  · rw [BitVec.getLsbD_append, if_pos (by omega)]; simp
  · rw [extract_append_high _ _ _ _ (by omega)]; exact extract_append_zero _ _
  · rw [extract_append_high _ _ _ _ (by omega), extract_append_high _ _ _ _ (by omega)]
    exact extract_append_zero _ _
  · iterate 3 rw [extract_append_high _ _ _ _ (by omega)]
    exact extract_append_zero _ _
  · iterate 4 rw [BitVec.getLsbD_append, if_neg (by omega)]
    rw [BitVec.getLsbD_append, if_pos (by omega)]; simp
  · iterate 5 rw [BitVec.getLsbD_append, if_neg (by omega)]
    rw [BitVec.getLsbD_append, if_pos (by omega)]; simp
  · iterate 6 rw [extract_append_high _ _ _ _ (by omega)]
    exact extract_append_zero _ _
  · iterate 7 rw [extract_append_high _ _ _ _ (by omega)]
    exact extract_append_zero _ _
  · iterate 8 rw [extract_append_high _ _ _ _ (by omega)]
    exact extract_append_zero _ _
  · iterate 9 rw [extract_append_high _ _ _ _ (by omega)]
    exact BitVec.extractLsb'_eq_self

/-- STATUS while BUSY = 1 (R68), whatever the free value is. -/
theorem statusWordBusy_fields (s : State) (free : Word) :
    (statusWordBusy s free).getLsbD 0 = true ∧ (statusWordBusy s free).getLsbD 6 = s.overrun ∧
      (statusWordBusy s free).getLsbD 7 = false ∧ (statusWordBusy s free).extractLsb' 20 12 = 0#12 := by
  have h6 : statusOpenMask[6] = false := by decide
  have h7 : statusOpenMask[7] = false := by decide
  refine ⟨?_, ?_, ?_, ?_⟩
  · simp [statusWordBusy]
  · cases h : s.overrun <;> simp [statusWordBusy, h, h6]
  · cases h : s.overrun <;> simp [statusWordBusy, h, h7]
  · apply BitVec.eq_of_getLsbD_eq
    intro i hi
    have hm : ∀ i, i < 12 → statusOpenMask.getLsbD (20 + i) = false := by decide
    have h1 : ∀ i, i < 12 → (0x40#32).getLsbD (20 + i) = false := by decide
    have h2 : ∀ i, i < 12 → (0x1#32).getLsbD (20 + i) = false := by decide
    cases h : s.overrun <;> simp [statusWordBusy, h, hm i hi, h1 i hi, h2 i hi]

/-- Every aligned offset of the window reaches a register (R60). -/
theorem accessedReg_ok {off : Nat} (h1 : off < 0x40) (h2 : off % 4 = 0) :
    ∃ r : Reg, accessedReg off 4 = .ok r ∧ r.offset = off := by
  have hm : off ∈ (List.range 64).filter (· % 4 = 0) := by simp [h1, h2]
  have e : (List.range 64).filter (· % 4 = 0) = Reg.all.map Reg.offset := by decide
  rw [e] at hm
  obtain ⟨r, -, rfl⟩ := List.mem_map.1 hm
  cases r <;> exact ⟨_, rfl, rfl⟩

theorem accessedReg_offset (r : Reg) : accessedReg r.offset 4 = .ok r := by cases r <;> rfl

/-- An access that reaches a register is a 32-bit access at its offset (R23, R62). -/
theorem accessedReg_inv {off size : Nat} {r : Reg} (h : accessedReg off size = .ok r) : size = 4 ∧ off = r.offset := by
  unfold accessedReg at h
  split at h
  · simp at h
  · next h4 =>
    split at h
    · simp at h
    · split at h
      · simp at h
      · next r' hr =>
        have := List.find?_some hr
        cases h
        exact ⟨by simpa using h4, by simpa using (of_decide_eq_true this).symm⟩

end Sys2Proof.Machine
end

