-- ==== Sys2Proof/Laws/Tree.lean ====
section
/-! SUPPORT. The theory of BUILD (40_builder.md R128 to R133): the priority queue, the loop invariant of the forest
reduction, what it leaves in the node store, and the paths of the tree. -/

namespace Sys2Proof.Machine

/-! ### The priority queue (R131) -/

theorem minItem_mem (x : Item) (xs : List Item) : minItem x xs ∈ x :: xs := by
  induction xs generalizing x with
  | nil => simp [minItem]
  | cons y ys ih =>
    have h := ih (if y.before x then y else x)
    simp only [minItem]
    rcases List.mem_cons.1 h with h | h
    · rw [h]; split <;> simp
    · exact List.mem_cons_of_mem _ (List.mem_cons_of_mem _ h)

theorem Item.before_iff (a b : Item) :
    a.before b = true ↔ a.freq.toNat < b.freq.toNat ∨ (a.freq.toNat = b.freq.toNat ∧ a.idx < b.idx) := by
  simp [Item.before]

theorem Item.before_trans {a b c : Item} (h1 : a.before b = true) (h2 : b.before c = true) : a.before c = true := by
  rw [Item.before_iff] at *; omega

theorem Item.before_total {a b : Item} (h : a.idx ≠ b.idx) : a.before b = true ∨ b.before a = true := by
  rw [Item.before_iff, Item.before_iff]; omega

/-- Nothing in the list is before its minimum. -/
theorem minItem_le (x : Item) (xs : List Item) : ∀ y ∈ x :: xs, y.before (minItem x xs) = false := by
  induction xs generalizing x with
  | nil => simp [minItem, Item.before]
  | cons z zs ih =>
    intro y hy
    simp only [minItem]
    have h := ih (if z.before x then z else x)
    rcases List.mem_cons.1 hy with rfl | hy
    · by_cases hz : z.before y = true
      · rw [if_pos hz] at h ⊢
        have h0 := h z (by simp)
        by_contra hc
        have := Item.before_trans hz (by simpa using hc)
        simp_all
      · rw [if_neg hz] at h ⊢; exact h y (by simp)
    · rcases List.mem_cons.1 hy with rfl | hy
      · by_cases hz : y.before x = true
        · rw [if_pos hz] at h ⊢; exact h y (by simp)
        · rw [if_neg hz] at h ⊢
          have h0 := h x (by simp)
          by_contra hc
          simp only [Bool.not_eq_false, Bool.not_eq_true] at *
          have e1 : ¬ y.before x = true := by simp [hz]
          have e2 : ¬ x.before (minItem x zs) = true := by simp [h0]
          rw [Item.before_iff] at *
          omega
      · exact h y (List.mem_cons_of_mem _ hy)

theorem extractMin_eq_some {w rest : List Item} {m : Item} (h : extractMin w = some (m, rest)) :
    m ∈ w ∧ rest = w.erase m ∧ ∀ y ∈ w, y.before m = false := by
  cases w with
  | nil => simp [extractMin] at h
  | cons x xs =>
    simp only [extractMin, Option.some.injEq, Prod.mk.injEq] at h
    obtain ⟨rfl, rfl⟩ := h
    exact ⟨minItem_mem x xs, rfl, minItem_le x xs⟩

theorem extractMin_perm {w rest : List Item} {m : Item} (h : extractMin w = some (m, rest)) : (m :: rest).Perm w := by
  obtain ⟨hm, rfl, -⟩ := extractMin_eq_some h
  exact (List.perm_cons_erase hm).symm

theorem extractMin_length {w rest : List Item} {m : Item} (h : extractMin w = some (m, rest)) :
    rest.length + 1 = w.length := by
  simpa using (extractMin_perm h).length_eq

theorem extractMin_isSome {w : List Item} (h : w ≠ []) : ∃ m rest, extractMin w = some (m, rest) := by
  cases w with
  | nil => contradiction
  | cons x xs => exact ⟨_, _, rfl⟩

/-- An invariant that every merge keeps holds of what `reduce_forest` leaves (R130). -/
theorem reduceForest_induction (p : Params) (P : List Item → List Node → Prop)
    (hstep : ∀ w node a w1 b w2, P w node → extractMin w = some (a, w1) → extractMin w1 = some (b, w2) →
      P (w2 ++ [{ freq := addCount p a.freq b.freq, idx := node.length }]) (node ++ [mergeNode p a b])) :
    ∀ fuel w node, w.length ≤ fuel + 1 → P w node →
      ∃ w', (w = [] → w' = []) ∧ (w ≠ [] → w'.length = 1) ∧ P w' (reduceForest p fuel w node) := by
  intro fuel
  induction fuel with
  | zero =>
    intro w node hl hP
    refine ⟨w, id, fun h => ?_, hP⟩
    cases w with
    | nil => contradiction
    | cons x xs => simp at hl ⊢; exact hl
  | succ k ih =>
    intro w node hl hP
    cases hw : extractMin w with
    | none =>
      cases w with
      | nil => exact ⟨[], fun _ => rfl, fun h => absurd rfl h, by simpa only [reduceForest, hw] using hP⟩
      | cons x xs => simp [extractMin] at hw
    | some aw =>
      obtain ⟨a, w1⟩ := aw
      have l1 := extractMin_length hw
      cases hw1 : extractMin w1 with
      | none =>
        cases w1 with
        | nil => exact ⟨w, id, fun _ => by simpa using l1.symm, by simpa only [reduceForest, hw, hw1] using hP⟩
        | cons x xs => simp [extractMin] at hw1
      | some bw =>
        obtain ⟨b, w2⟩ := bw
        have l2 := extractMin_length hw1
        obtain ⟨w', -, h2, h3⟩ := ih (w2 ++ [{ freq := addCount p a.freq b.freq, idx := node.length }])
          (node ++ [mergeNode p a b]) (by simp; omega) (hstep _ _ _ _ _ _ hP hw hw1)
        refine ⟨w', fun h => ?_, fun _ => h2 (by simp), by simpa only [reduceForest, hw, hw1] using h3⟩
        subst h; simp at l1

/-! ### The counted symbols in ascending order (R128) -/

theorem allSymbols_sorted : allSymbols.Pairwise fun a b => a.toNat < b.toNat := by
  unfold allSymbols
  rw [List.pairwise_map]
  refine List.Pairwise.imp_of_mem (fun {a b} ha hb h => ?_) List.pairwise_lt_range
  simp only [List.mem_range] at ha hb
  simp only [BitVec.toNat_ofNat]
  omega

theorem mem_allSymbols (sym : Sym) : sym ∈ allSymbols := by
  unfold allSymbols
  exact List.mem_map.2 ⟨sym.toNat, List.mem_range.2 sym.isLt, by simp⟩

theorem presentSymbols_sorted (freq : Vector Count 256) :
    (presentSymbols freq).Pairwise fun a b => a.toNat < b.toNat :=
  allSymbols_sorted.sublist List.filter_sublist

theorem mem_presentSymbols (freq : Vector Count 256) (sym : Sym) :
    sym ∈ presentSymbols freq ↔ freqAt freq sym ≠ 0 := by
  simp [presentSymbols, mem_allSymbols]

theorem presentSymbols_nodup (freq : Vector Count 256) : (presentSymbols freq).Nodup :=
  (presentSymbols_sorted freq).imp fun {a b} h e => by subst e; omega

theorem leafCount_le (freq : Vector Count 256) : leafCount freq ≤ 256 := by
  have h := List.length_filter_le (fun sym => freqAt freq sym != 0) allSymbols
  simpa [leafCount, presentSymbols, allSymbols] using h

/-- In a list in ascending order, a member stands at the place that counts the smaller ones. -/
theorem getElem?_count_lt {l : List Sym} (hl : l.Pairwise fun a b => a.toNat < b.toNat) {sym : Sym} (h : sym ∈ l) :
    l[(l.filter fun t => decide (t.toNat < sym.toNat)).length]? = some sym := by
  induction l with
  | nil => simp at h
  | cons x xs ih =>
    rw [List.pairwise_cons] at hl
    rcases List.mem_cons.1 h with rfl | h
    · have : xs.filter (fun t => decide (t.toNat < sym.toNat)) = [] := by
        rw [List.filter_eq_nil_iff]
        intro t ht
        have := hl.1 t ht
        simp; omega
      simp [this]
    · have hx := hl.1 sym h
      simp [hx, ih hl.2 h]

theorem presentSymbols_leafIdx (freq : Vector Count 256) {sym : Sym} (h : freqAt freq sym ≠ 0) :
    (presentSymbols freq)[leafIdx freq sym]? = some sym :=
  getElem?_count_lt (presentSymbols_sorted freq) ((mem_presentSymbols freq sym).2 h)

theorem leafIdx_lt (freq : Vector Count 256) {sym : Sym} (h : freqAt freq sym ≠ 0) : leafIdx freq sym < leafCount freq :=
  (List.getElem?_eq_some_iff.1 (presentSymbols_leafIdx freq h)).1

/-! ### The loop invariant of `reduce_forest` (R130) -/

/-- What one merge makes at place `i` (R130 to R132): of the nodes below `i` that had no parent, LEFT has the smallest key
and RIGHT the next; FREQ is their sum. -/
structure MergedAt (node : List Node) (i : Nat) (nd : Node) : Prop where
  leaf : nd.leaf = false
  sym : nd.sym = 0
  left_lt : nd.left.toNat < i
  right_lt : nd.right.toNat < i
  ne : nd.left.toNat ≠ nd.right.toNat
  left_free : Parentless node i nd.left.toNat
  right_free : Parentless node i nd.right.toNat
  left_min : ∀ j, j < i → j ≠ nd.left.toNat → Parentless node i j → KeyBefore node nd.left.toNat j
  right_min : ∀ j, j < i → j ≠ nd.left.toNat → j ≠ nd.right.toNat → Parentless node i j →
    KeyBefore node nd.right.toNat j
  sum : ∀ x y, node[nd.left.toNat]? = some x → node[nd.right.toNat]? = some y →
    nd.freq.toNat = x.freq.toNat + y.freq.toNat

/-- The loop invariant: `w` is the set of the nodes that have no parent yet, each with its key. -/
structure Forest (p : Params) (seeds : List Node) (total : Nat) (w : List Item) (node : List Node) : Prop where
  size : w ≠ [] → node.length + w.length = 2 * seeds.length
  seeded : node.take seeds.length = seeds
  key : ∀ x ∈ w, ∃ nd, node[x.idx]? = some nd ∧ nd.freq = x.freq
  nodup : (w.map Item.idx).Nodup
  free : ∀ j, j < node.length → ((∃ x ∈ w, x.idx = j) ↔ Parentless node node.length j)
  merged : ∀ i nd, seeds.length ≤ i → node[i]? = some nd → MergedAt node i nd
  sum : (w.map fun x => x.freq.toNat).sum = total

/-! ### One merge keeps the loop invariant -/

theorem addCount_toNat (p : Params) (a b : Count) (hp : p.freqW ≤ 32) (h : a.toNat + b.toNat ≤ maxTotal p) :
    (addCount p a b).toNat = a.toNat + b.toNat := by
  have h1 : 2 ^ p.freqW ≤ 2 ^ 32 := Nat.pow_le_pow_right (by omega) hp
  have h2 : 0 < 2 ^ p.freqW := Nat.pow_pos (by omega)
  unfold maxTotal at h
  unfold addCount
  rw [BitVec.toNat_ofNat, Nat.mod_eq_of_lt (a := a.toNat + b.toNat) (by omega), Nat.mod_eq_of_lt (by omega)]

theorem Parentless_append (node xs : List Node) {i : Nat} (hi : i ≤ node.length) (j : Nat) :
    Parentless (node ++ xs) i j ↔ Parentless node i j := by
  unfold Parentless
  constructor <;> intro h k nd hk
  · have := h k nd hk; rwa [List.getElem?_append_left (by omega)] at this
  · rw [List.getElem?_append_left (by omega)]; exact h k nd hk

theorem KeyBefore_append (node xs : List Node) {j k : Nat} (hj : j < node.length) (hk : k < node.length) :
    KeyBefore (node ++ xs) j k ↔ KeyBefore node j k := by
  unfold KeyBefore
  rw [List.getElem?_append_left hj, List.getElem?_append_left hk]

theorem MergedAt.append {node : List Node} {i : Nat} {nd : Node} (h : MergedAt node i nd) (xs : List Node)
    (hi : i ≤ node.length) : MergedAt (node ++ xs) i nd where
  leaf := h.leaf
  sym := h.sym
  left_lt := h.left_lt
  right_lt := h.right_lt
  ne := h.ne
  left_free := (Parentless_append node xs hi _).2 h.left_free
  right_free := (Parentless_append node xs hi _).2 h.right_free
  left_min := fun j hj h1 h2 =>
    (KeyBefore_append node xs (by have := h.left_lt; omega) (by omega)).2
      (h.left_min j hj h1 ((Parentless_append node xs hi _).1 h2))
  right_min := fun j hj h1 h2 h3 =>
    (KeyBefore_append node xs (by have := h.right_lt; omega) (by omega)).2
      (h.right_min j hj h1 h2 ((Parentless_append node xs hi _).1 h3))
  sum := by
    have := h.left_lt; have := h.right_lt
    rw [List.getElem?_append_left (by omega), List.getElem?_append_left (by omega)]
    exact h.sum

theorem Forest.step {p : Params} {seeds : List Node} {total : Nat} (hL : seeds.length ≤ 256) (hp : p.freqW ≤ 32)
    (ht : total ≤ maxTotal p) (hleaf : ∀ nd ∈ seeds, nd.leaf = true) {w w1 w2 : List Item} {node : List Node} {a b : Item}
    (h : Forest p seeds total w node) (ha : extractMin w = some (a, w1)) (hb : extractMin w1 = some (b, w2)) :
    Forest p seeds total (w2 ++ [{ freq := addCount p a.freq b.freq, idx := node.length }])
      (node ++ [mergeNode p a b]) := by
  have pa := extractMin_perm ha
  have pb := extractMin_perm hb
  have perm : (a :: b :: w2).Perm w := (pb.cons a).trans pa
  obtain ⟨ma, -, mina⟩ := extractMin_eq_some ha
  obtain ⟨mb1, -, minb⟩ := extractMin_eq_some hb
  have mb : b ∈ w := perm.subset (by simp)
  have hlen := perm.length_eq
  simp only [List.length_cons] at hlen
  have hw : w ≠ [] := by intro e; subst e; simp at hlen
  have hsize := h.size hw
  have idx_lt : ∀ x ∈ w, x.idx < node.length := fun x hx => by
    obtain ⟨nd, hnd, -⟩ := h.key x hx
    exact (List.getElem?_eq_some_iff.1 hnd).1
  have hnd : ((a :: b :: w2).map Item.idx).Nodup := (perm.map Item.idx).nodup_iff.2 h.nodup
  simp only [List.map_cons, List.nodup_cons, List.mem_cons, not_or] at hnd
  obtain ⟨⟨hab, haw⟩, hbw, hnw⟩ := hnd
  have hsum : a.freq.toNat + b.freq.toNat + (w2.map fun x => x.freq.toNat).sum = total := by
    have := (perm.map fun x => x.freq.toNat).sum_eq
    rw [h.sum] at this
    simp at this; omega
  have hadd := addCount_toNat p a.freq b.freq hp (by omega)
  have hal := idx_lt a ma
  have hbl := idx_lt b mb
  have hge : seeds.length ≤ node.length := by
    have := congrArg List.length h.seeded
    rw [List.length_take] at this; omega
  have la : (BitVec.ofNat 9 a.idx).toNat = a.idx := by rw [BitVec.toNat_ofNat]; omega
  have lb : (BitVec.ofNat 9 b.idx).toNat = b.idx := by rw [BitVec.toNat_ofNat]; omega
  have leafBelow : ∀ k nd, k < seeds.length → node[k]? = some nd → nd.leaf = true := by
    intro k nd hk hnd
    apply hleaf
    rw [← h.seeded]
    exact List.mem_of_getElem? (by rw [List.getElem?_take_of_lt hk]; exact hnd)
  have mem_of_free : ∀ j, j < node.length → Parentless node node.length j → ∃ x ∈ w, x.idx = j :=
    fun j hj hf => (h.free j hj).2 hf
  have keyB : ∀ x ∈ w, ∀ y ∈ w, x.before y = true → KeyBefore node x.idx y.idx := by
    intro x hx y hy hxy u v hu hv
    obtain ⟨u', hu', eu⟩ := h.key x hx
    obtain ⟨v', hv', ev⟩ := h.key y hy
    rw [hu] at hu'; rw [hv] at hv'
    cases hu'; cases hv'
    rw [eu, ev]
    exact (Item.before_iff x y).1 hxy
  have hnew : MergedAt node node.length (mergeNode p a b) :=
    { leaf := rfl
      sym := rfl
      left_lt := by simpa [mergeNode, la] using hal
      right_lt := by simpa [mergeNode, lb] using hbl
      ne := by simpa [mergeNode, la, lb] using hab
      left_free := by
        have := (h.free a.idx hal).1 ⟨a, ma, rfl⟩
        simpa [mergeNode, la] using this
      right_free := by
        have := (h.free b.idx hbl).1 ⟨b, mb, rfl⟩
        simpa [mergeNode, lb] using this
      left_min := by
        intro j hj h1 h2
        simp only [mergeNode, la] at h1 ⊢
        obtain ⟨x, hx, rfl⟩ := mem_of_free j hj h2
        refine keyB a ma x hx ((Item.before_total (Ne.symm h1)).resolve_right ?_)
        simp [mina x hx]
      right_min := by
        intro j hj h1 h2 h3
        simp only [mergeNode, la, lb] at h1 h2 ⊢
        obtain ⟨x, hx, rfl⟩ := mem_of_free j hj h3
        have hx1 : x ∈ w1 := by
          have := pa.mem_iff.2 hx
          rcases List.mem_cons.1 this with rfl | h
          · exact absurd rfl h1
          · exact h
        refine keyB b mb x hx ((Item.before_total (Ne.symm h2)).resolve_right ?_)
        simp [minb x hx1]
      sum := by
        intro x y hx hy
        simp only [mergeNode, la, lb] at hx hy ⊢
        obtain ⟨u', hu', eu⟩ := h.key a ma
        obtain ⟨v', hv', ev⟩ := h.key b mb
        rw [hx] at hu'; rw [hy] at hv'
        cases hu'; cases hv'
        rw [hadd, eu, ev] }
  refine ⟨fun _ => ?_, ?_, ?_, ?_, ?_, ?_, ?_⟩
  · simp; omega
  · rw [List.take_append_of_le_length (by omega)]; exact h.seeded
  · intro x hx
    rcases List.mem_append.1 hx with hx | hx
    · obtain ⟨nd, hnd, e⟩ := h.key x (perm.subset (by simp [hx]))
      exact ⟨nd, by rw [List.getElem?_append_left (List.getElem?_eq_some_iff.1 hnd).1]; exact hnd, e⟩
    · simp only [List.mem_singleton] at hx
      subst hx
      exact ⟨mergeNode p a b, by simp, rfl⟩
  · rw [List.map_append, List.nodup_append]
    refine ⟨hnw, by simp, ?_⟩
    intro x hx y hy
    obtain ⟨z, hz, rfl⟩ := List.mem_map.1 hx
    have := idx_lt z (perm.subset (by simp [hz]))
    simp at hy; omega
  · intro j hj
    simp only [List.length_append, List.length_singleton] at hj ⊢
    have split : Parentless (node ++ [mergeNode p a b]) (node.length + 1) j ↔
        Parentless node node.length j ∧ a.idx ≠ j ∧ b.idx ≠ j := by
      constructor
      · intro hf
        refine ⟨fun k nd hk hnd => hf k nd (by omega) (by rw [List.getElem?_append_left hk]; exact hnd), ?_⟩
        have := hf node.length (mergeNode p a b) (by omega) (by simp) rfl
        simpa [mergeNode, la, lb] using this
      · rintro ⟨h1, h2, h3⟩ k nd hk hnd hl
        rcases Nat.lt_or_ge k node.length with hk' | hk'
        · exact h1 k nd hk' (by rwa [List.getElem?_append_left hk'] at hnd) hl
        · have : k = node.length := by omega
          subst this
          simp at hnd; subst hnd
          simpa [mergeNode, la, lb] using ⟨h2, h3⟩
    rw [split]
    rcases Nat.lt_or_ge j node.length with hj' | hj'
    · rw [← h.free j hj']
      constructor
      · rintro ⟨x, hx, rfl⟩
        rcases List.mem_append.1 hx with hx | hx
        · refine ⟨⟨x, perm.subset (by simp [hx]), rfl⟩, ?_, ?_⟩
          · intro e; exact haw (e ▸ List.mem_map_of_mem hx)
          · intro e; exact hbw (e ▸ List.mem_map_of_mem hx)
        · simp at hx; subst hx; simp at hj'
      · rintro ⟨⟨x, hx, rfl⟩, h2, h3⟩
        have := perm.mem_iff.2 hx
        simp only [List.mem_cons] at this
        rcases this with rfl | rfl | hx
        · exact absurd rfl h2
        · exact absurd rfl h3
        · exact ⟨x, by simp [hx], rfl⟩
    · have : j = node.length := by omega
      subst this
      refine ⟨fun _ => ⟨fun k nd hk hnd hl => ?_, by omega, by omega⟩, fun _ =>
        ⟨{ freq := addCount p a.freq b.freq, idx := node.length }, List.mem_append_right _ (by simp), rfl⟩⟩
      rcases Nat.lt_or_ge k seeds.length with hs | hs
      · have := leafBelow k nd hs hnd; simp [hl] at this
      · have m := h.merged k nd hs hnd
        have := m.left_lt; have := m.right_lt
        omega
  · intro i nd hi hnd
    rcases Nat.lt_or_ge i node.length with hi' | hi'
    · rw [List.getElem?_append_left hi'] at hnd
      exact (h.merged i nd hi hnd).append _ (by omega)
    · have hlt := (List.getElem?_eq_some_iff.1 hnd).1
      simp at hlt
      have : i = node.length := by omega
      subst this
      simp at hnd; subst hnd
      exact hnew.append _ (le_refl _)
  · simp only [List.map_append, List.sum_append, List.map_cons, List.map_nil, List.sum_cons, List.sum_nil]
    rw [hadd]; omega

/-! ### The loop starts in its invariant -/

theorem toList_eq_map_freqAt (freq : Vector Count 256) : freq.toList = allSymbols.map (freqAt freq) := by
  apply List.ext_getElem
  · simp [allSymbols]
  · intro i h1 h2
    simp only [Vector.length_toList] at h1
    simp only [allSymbols, Vector.getElem_toList, List.getElem_map, List.getElem_range, freqAt]
    congr 1
    rw [BitVec.toNat_ofNat]; omega

/-- `P` read off the frequency table in one pass (R128). -/
theorem presentSymbols_eq_zip (freq : Vector Count 256) :
    presentSymbols freq = ((allSymbols.zip freq.toList).filter fun x => x.2 != 0).map Prod.fst := by
  rw [toList_eq_map_freqAt]
  unfold presentSymbols
  generalize allSymbols = l
  induction l with
  | nil => rfl
  | cons x xs ih =>
    simp only [List.map_cons, List.zip_cons_cons, List.filter_cons, ih]
    split <;> rfl

theorem sum_filter_ne_zero (f : Sym → Count) (l : List Sym) :
    ((l.filter fun x => f x != 0).map fun x => (f x).toNat).sum = (l.map fun x => (f x).toNat).sum := by
  induction l with
  | nil => rfl
  | cons x xs ih =>
    rw [List.map_cons, List.sum_cons, ← ih]
    by_cases h : f x = 0
    · rw [List.filter_cons_of_neg (by simp [h]), h]; simp
    · rw [List.filter_cons_of_pos (by simpa using h), List.map_cons, List.sum_cons]

/-- The leaf frequencies sum to the sum of the counts (R127). -/
theorem seedLeaves_sum (freq : Vector Count 256) :
    ((seedLeaves freq).map fun nd => nd.freq.toNat).sum = countSum freq := by
  unfold countSum seedLeaves
  rw [toList_eq_map_freqAt, List.map_map, List.map_map]
  exact sum_filter_ne_zero (freqAt freq) allSymbols

theorem seedLeaves_length (freq : Vector Count 256) : (seedLeaves freq).length = leafCount freq := by
  simp [seedLeaves, leafCount]

theorem seedLeaves_leaf (freq : Vector Count 256) : ∀ nd ∈ seedLeaves freq, nd.leaf = true := by
  intro nd h
  obtain ⟨sym, -, rfl⟩ := List.mem_map.1 h
  rfl

theorem seedItems_map_freq (i : Nat) (l : List Node) :
    (seedItems i l).map (fun x => x.freq.toNat) = l.map fun nd => nd.freq.toNat := by
  induction l generalizing i with
  | nil => rfl
  | cons x xs ih => simp [seedItems, ih]

theorem seedItems_map_idx (i : Nat) (l : List Node) : (seedItems i l).map Item.idx = List.range' i l.length := by
  induction l generalizing i with
  | nil => rfl
  | cons x xs ih => simp [seedItems, ih, List.range'_succ]

theorem mem_seedItems {i : Nat} {l : List Node} {x : Item} (h : x ∈ seedItems i l) :
    i ≤ x.idx ∧ ∃ nd, l[x.idx - i]? = some nd ∧ nd.freq = x.freq := by
  induction l generalizing i with
  | nil => simp [seedItems] at h
  | cons y ys ih =>
    rcases List.mem_cons.1 h with rfl | h
    · simp
    · obtain ⟨h1, nd, h2, h3⟩ := ih h
      refine ⟨by omega, nd, ?_, h3⟩
      rw [show x.idx - i = x.idx - (i + 1) + 1 by omega, List.getElem?_cons_succ, h2]

theorem seedItems_length (i : Nat) (l : List Node) : (seedItems i l).length = l.length := by
  have := congrArg List.length (seedItems_map_idx i l)
  simpa using this

/-- The loop of R130 starts in its invariant. -/
theorem Forest.start (p : Params) (seeds : List Node) (hleaf : ∀ nd ∈ seeds, nd.leaf = true) :
    Forest p seeds (seeds.map fun nd => nd.freq.toNat).sum (seedItems 0 seeds) seeds where
  size := fun _ => by rw [seedItems_length]; omega
  seeded := List.take_length
  key := fun x hx => by
    obtain ⟨-, nd, h, e⟩ := mem_seedItems hx
    exact ⟨nd, by simpa using h, e⟩
  nodup := by rw [seedItems_map_idx]; exact List.nodup_range'
  free := fun j hj => by
    refine ⟨fun _ k nd _ hnd hl => ?_, fun _ => ?_⟩
    · have := hleaf nd (List.mem_of_getElem? hnd); simp [hl] at this
    · have : j ∈ (seedItems 0 seeds).map Item.idx := by rw [seedItems_map_idx]; simp [List.mem_range']; exact hj
      obtain ⟨x, hx, e⟩ := List.mem_map.1 this
      exact ⟨x, hx, e⟩
  merged := fun i nd hi h => by
    have := (List.getElem?_eq_some_iff.1 h).1; omega
  sum := by rw [seedItems_map_freq]

/-- What BUILD leaves in the node store for `L >= 1` leaves (R128 to R132). -/
structure BuiltStore (seeds : List Node) (total : Nat) (node : List Node) : Prop where
  length : node.length + 1 = 2 * seeds.length
  seeded : node.take seeds.length = seeds
  merged : ∀ i nd, seeds.length ≤ i → node[i]? = some nd → MergedAt node i nd
  parent : ∀ j, j + 1 < node.length → ∃ (k : Nat) (nd : Node), node[k]? = some nd ∧ nd.leaf = false ∧
    (nd.left.toNat = j ∨ nd.right.toNat = j)
  rootFreq : ∀ nd, node[node.length - 1]? = some nd → nd.freq.toNat = total

theorem buildNodes_empty (p : Params) (freq : Vector Count 256) (h : leafCount freq = 0) : buildNodes p freq = [] := by
  have : seedLeaves freq = [] := by rw [← List.length_eq_zero_iff, seedLeaves_length, h]
  simp [buildNodes, this, reduceForest]

theorem buildNodes_store (p : Params) (freq : Vector Count 256) (hp : p.freqW ≤ 32) (ht : countSum freq ≤ maxTotal p)
    (hL : leafCount freq ≠ 0) : BuiltStore (seedLeaves freq) (countSum freq) (buildNodes p freq) := by
  have hleaf := seedLeaves_leaf freq
  have hlen := seedLeaves_length freq
  have hle := leafCount_le freq
  have start := Forest.start p (seedLeaves freq) hleaf
  rw [seedLeaves_sum] at start
  obtain ⟨w, -, h1, h⟩ := reduceForest_induction p (Forest p (seedLeaves freq) (countSum freq))
    (fun w node a w1 b w2 hf ha hb => hf.step (by omega) hp ht hleaf ha hb) (seedLeaves freq).length
    (seedItems 0 (seedLeaves freq)) (seedLeaves freq) (by rw [seedItems_length]; omega) start
  have hne : seedItems 0 (seedLeaves freq) ≠ [] := by
    rw [ne_eq, ← List.length_eq_zero_iff, seedItems_length]; omega
  replace h1 := h1 hne
  obtain ⟨x, rfl⟩ := List.length_eq_one_iff.1 h1
  have hsize := h.size (by simp)
  simp only [List.length_singleton] at hsize
  change Forest _ _ _ _ (buildNodes p freq) at h
  change (buildNodes p freq).length + 1 = _ at hsize
  have hroot : x.idx = (buildNodes p freq).length - 1 := by
    obtain ⟨y, hy, e⟩ := (h.free ((buildNodes p freq).length - 1) (by omega)).2 (by
      intro k nd hk hnd hl
      rcases Nat.lt_or_ge k (seedLeaves freq).length with hs | hs
      · have : nd ∈ seedLeaves freq := by
          rw [← h.seeded]
          exact List.mem_of_getElem? (by rw [List.getElem?_take_of_lt hs]; exact hnd)
        have := hleaf nd this; simp [hl] at this
      · have m := h.merged k nd hs hnd
        have := m.left_lt; have := m.right_lt; omega)
    simp at hy; subst hy; exact e
  refine ⟨hsize, h.seeded, h.merged, fun j hj => ?_, fun nd hnd => ?_⟩
  · by_contra hc
    push Not at hc
    obtain ⟨y, hy, e⟩ := (h.free j (by omega)).2 (fun k nd _ hnd hl => hc k nd hnd hl)
    simp at hy; subst hy; omega
  · obtain ⟨nd', hnd', e⟩ := h.key x (by simp)
    rw [hroot, hnd] at hnd'
    cases hnd'
    have := h.sum
    simp at this
    rw [e, this]

/-! ### Walks and paths (R151) -/

theorem walk_append (node : List Node) (p q : List Bool) (n : NodeIdx) :
    walk node (p ++ q) n = (walk node p n).bind (walk node q) := by
  induction p generalizing n with
  | nil => rfl
  | cons b bs ih =>
    simp only [List.cons_append, walk]
    cases node[n.toNat]? with
    | none => rfl
    | some nd =>
      simp only
      split
      · rfl
      · exact ih _

/-- One step of a walk. -/
theorem walk_singleton {node : List Node} {b : Bool} {n m : NodeIdx} :
    walk node [b] n = some m ↔
      ∃ nd, node[n.toNat]? = some nd ∧ nd.leaf = false ∧ (if b then nd.right else nd.left) = m := by
  simp only [walk]
  cases node[n.toNat]? with
  | none => simp
  | some nd => cases h : nd.leaf <;> simp [h]

theorem findPath_sound {node : List Node} {t : NodeIdx} {fuel : Nat} {n : NodeIdx} {p : List Bool}
    (h : findPath node t fuel n = some p) : walk node p n = some t ∧ p.length < fuel := by
  induction fuel generalizing n p with
  | zero => simp [findPath] at h
  | succ k ih =>
    simp only [findPath] at h
    split at h
    · next e => cases h; simp [walk, e]
    · split at h
      · simp at h
      · next nd hnd =>
        split at h
        · simp at h
        · next hl =>
          simp only [Bool.not_eq_true] at hl
          split at h
          · next q hq =>
            cases h
            have := ih hq
            simp [walk, hnd, hl, this.1]; omega
          · cases hq : findPath node t k nd.right with
            | none => simp [hq] at h
            | some q =>
              simp [hq] at h; subst h
              have := ih hq
              simp [walk, hnd, hl, this.1]; omega

theorem findPath_complete {node : List Node} {t : NodeIdx} {fuel : Nat} {n : NodeIdx} {p : List Bool}
    (h : walk node p n = some t) (hf : p.length < fuel) : ∃ q, findPath node t fuel n = some q := by
  induction fuel generalizing n p with
  | zero => omega
  | succ k ih =>
    simp only [findPath]
    split
    · exact ⟨[], rfl⟩
    · next hne =>
      cases p with
      | nil => simp [walk] at h; exact absurd h hne
      | cons b bs =>
        simp only [walk] at h
        cases hnd : node[n.toNat]? with
        | none => simp [hnd] at h
        | some nd =>
          simp only [hnd] at h ⊢
          cases hl : nd.leaf with
          | true => simp [hl] at h
          | false =>
            simp only [hl, Bool.false_eq_true, if_false] at h ⊢
            cases hq : findPath node t k nd.left with
            | some q => exact ⟨_, rfl⟩
            | none =>
              cases b with
              | false => obtain ⟨q, hq'⟩ := ih h (by simpa using hf); simp only [Bool.false_eq_true, if_false] at hq'; simp [hq] at hq'
              | true => obtain ⟨q, hq'⟩ := ih h (by simpa using hf); simp only [if_true] at hq'; simp [hq']

/-- The root's index in a built store (R130). -/
abbrev lastIdx (node : List Node) : NodeIdx := BitVec.ofNat 9 (node.length - 1)

namespace BuiltStore

variable {seeds node : List Node} {total : Nat}

theorem seed_at (h : BuiltStore seeds total node) {i : Nat} (hi : i < seeds.length) : node[i]? = seeds[i]? := by
  rw [← List.getElem?_take_of_lt (l := node) hi, h.seeded]

theorem internal_ge (h : BuiltStore seeds total node) (hleaf : ∀ nd ∈ seeds, nd.leaf = true) {i : Nat} {nd : Node}
    (hn : node[i]? = some nd) (hl : nd.leaf = false) : seeds.length ≤ i := by
  by_contra hc
  rw [h.seed_at (by omega)] at hn
  have := hleaf nd (List.mem_of_getElem? hn)
  simp [hl] at this

theorem lastIdx_toNat (h : BuiltStore seeds total node) (hL : seeds.length ≤ 256) :
    (lastIdx node).toNat = node.length - 1 := by
  have := h.length
  rw [BitVec.toNat_ofNat]; omega

/-- Both children of an internal node are below it. -/
theorem child_lt (h : BuiltStore seeds total node) (hleaf : ∀ nd ∈ seeds, nd.leaf = true) {n m : NodeIdx} {b : Bool}
    (hw : walk node [b] n = some m) : m.toNat < n.toNat ∧ seeds.length ≤ n.toNat := by
  obtain ⟨nd, hn, hl, rfl⟩ := walk_singleton.1 hw
  have hi := h.internal_ge hleaf hn hl
  have hm := h.merged _ nd hi hn
  have := hm.left_lt; have := hm.right_lt
  refine ⟨?_, hi⟩
  split <;> omega

/-- A node has at most one parent, and is its child on one side only. -/
theorem parent_unique (h : BuiltStore seeds total node) (hleaf : ∀ nd ∈ seeds, nd.leaf = true) {n n' m : NodeIdx}
    {b b' : Bool} (hw : walk node [b] n = some m) (hw' : walk node [b'] n' = some m) : n = n' ∧ b = b' := by
  obtain ⟨nd, hn, hl, e⟩ := walk_singleton.1 hw
  obtain ⟨nd', hn', hl', e'⟩ := walk_singleton.1 hw'
  have m1 := h.merged _ nd (h.internal_ge hleaf hn hl) hn
  have m2 := h.merged _ nd' (h.internal_ge hleaf hn' hl') hn'
  have key : n.toNat = n'.toNat := by
    rcases Nat.lt_trichotomy n.toNat n'.toNat with hlt | he | hgt
    · exfalso
      have hfl := m2.left_free n.toNat nd hlt hn hl
      have hfr := m2.right_free n.toNat nd hlt hn hl
      cases b <;> cases b' <;> simp_all
    · exact he
    · exfalso
      have hfl := m1.left_free n'.toNat nd' hgt hn' hl'
      have hfr := m1.right_free n'.toNat nd' hgt hn' hl'
      cases b <;> cases b' <;> simp_all
  have hnn : n = n' := BitVec.eq_of_toNat_eq key
  subst hnn
  rw [hn] at hn'
  cases hn'
  refine ⟨rfl, ?_⟩
  have hne := m1.ne
  cases b <;> cases b' <;> simp_all

/-- Every node is reached from the root (R133). -/
theorem reach (h : BuiltStore seeds total node) (hleaf : ∀ nd ∈ seeds, nd.leaf = true) (hL : seeds.length ≤ 256) :
    ∀ j : NodeIdx, j.toNat < node.length → ∃ p, walk node p (lastIdx node) = some j := by
  have hlen := h.length
  have hlast := h.lastIdx_toNat hL
  suffices ∀ d (j : NodeIdx), j.toNat + d = node.length - 1 → ∃ p, walk node p (lastIdx node) = some j from
    fun j hj => this (node.length - 1 - j.toNat) j (by omega)
  intro d
  induction d using Nat.strongRecOn with
  | _ d ih =>
    intro j hj
    rcases Nat.eq_zero_or_pos d with rfl | hd
    · exact ⟨[], by simp only [walk, Option.some.injEq]; exact BitVec.eq_of_toNat_eq (by omega)⟩
    · obtain ⟨k, nd, hk, hl, hc⟩ := h.parent j.toNat (by omega)
      have hkl := (List.getElem?_eq_some_iff.1 hk).1
      have hki := h.internal_ge hleaf hk hl
      have hm := h.merged k nd hki hk
      have kn : (BitVec.ofNat 9 k).toNat = k := by rw [BitVec.toNat_ofNat]; omega
      have := hm.left_lt; have := hm.right_lt
      obtain ⟨p, hp⟩ := ih (node.length - 1 - k) (by omega) (BitVec.ofNat 9 k) (by omega)
      rcases hc with hc | hc
      · refine ⟨p ++ [false], ?_⟩
        rw [walk_append, hp]
        exact walk_singleton.2 ⟨nd, by rw [kn]; exact hk, hl, by simpa using BitVec.eq_of_toNat_eq hc⟩
      · refine ⟨p ++ [true], ?_⟩
        rw [walk_append, hp]
        exact walk_singleton.2 ⟨nd, by rw [kn]; exact hk, hl, by simpa using BitVec.eq_of_toNat_eq hc⟩

theorem walk_snoc {node : List Node} {p : List Bool} {b : Bool} {n m : NodeIdx} (h : walk node (p ++ [b]) n = some m) :
    ∃ k, walk node p n = some k ∧ walk node [b] k = some m := by
  rw [walk_append] at h
  exact Option.bind_eq_some_iff.1 h

/-- A path from the root is determined by where it ends (R133). -/
theorem path_unique (h : BuiltStore seeds total node) (hleaf : ∀ nd ∈ seeds, nd.leaf = true) (hL : seeds.length ≤ 256)
    {p q : List Bool} {m : NodeIdx} (hp : walk node p (lastIdx node) = some m)
    (hq : walk node q (lastIdx node) = some m) : p = q := by
  have noParent : ∀ (k : NodeIdx) b, walk node [b] k = some (lastIdx node) → False := by
    intro k b hk
    have h1 := (h.child_lt hleaf hk).1
    obtain ⟨nd, hn, -, -⟩ := walk_singleton.1 hk
    have h2 := (List.getElem?_eq_some_iff.1 hn).1
    rw [h.lastIdx_toNat hL] at h1
    omega
  induction p using List.reverseRecOn generalizing q m with
  | nil =>
    simp only [walk, Option.some.injEq] at hp
    subst hp
    rcases List.eq_nil_or_concat q with rfl | ⟨q', b, rfl⟩
    · rfl
    · obtain ⟨k, -, hk⟩ := walk_snoc (by simpa using hq)
      exact (noParent k b hk).elim
  | append_singleton p' b ih =>
    obtain ⟨k, hk, hb⟩ := walk_snoc hp
    rcases List.eq_nil_or_concat q with rfl | ⟨q', b', rfl⟩
    · simp only [walk, Option.some.injEq] at hq
      subst hq
      exact (noParent k b hb).elim
    · obtain ⟨k', hk', hb'⟩ := walk_snoc (by simpa using hq)
      obtain ⟨rfl, rfl⟩ := h.parent_unique hleaf hb hb'
      simp [ih hk hk']

/-- A path from node `n` has at most `n - L + 1` bits: each internal node on it is below the one before (R130, R152). -/
theorem path_length (h : BuiltStore seeds total node) (hleaf : ∀ nd ∈ seeds, nd.leaf = true) {p : List Bool}
    {n m : NodeIdx} (hp : walk node p n = some m) : p = [] ∨ (seeds.length ≤ n.toNat ∧ p.length + seeds.length ≤ n.toNat + 1) := by
  induction p generalizing n with
  | nil => exact .inl rfl
  | cons b bs ih =>
    right
    have e : b :: bs = [b] ++ bs := rfl
    rw [e, walk_append] at hp
    obtain ⟨k, hk, hbs⟩ := Option.bind_eq_some_iff.1 hp
    have hlt := h.child_lt hleaf hk
    rcases ih hbs with rfl | h2
    · simp; omega
    · simp; omega

end BuiltStore

/-! ### The tree of a state in BUILT phase -/

/-- What BUILD left, for a state in BUILT phase that meets the invariant, with at least one leaf. -/
theorem builtStore_of_inv {s : State} (hp : s.params.Legal) (hc : CountsInv s) (ht : TreeInv s) (hb : s.phase = .built)
    (hL : leafCount s.freq ≠ 0) : BuiltStore (seedLeaves s.freq) s.total.toNat s.node := by
  have := buildNodes_store s.params s.freq (by have := hp.1; omega) (by rw [hc.1]; exact hc.2) hL
  rwa [hc.1, ← (ht.2 hb).1] at this

theorem nleaf_toNat {s : State} (ht : TreeInv s) (hb : s.phase = .built) : s.nleaf.toNat = leafCount s.freq := by
  have := leafCount_le s.freq
  rw [(ht.2 hb).2.1, BitVec.toNat_ofNat]; omega

theorem node_length {s : State} (hp : s.params.Legal) (hc : CountsInv s) (ht : TreeInv s) (hb : s.phase = .built) :
    s.node.length = nnode s := by
  have hn := nleaf_toNat ht hb
  unfold nnode
  by_cases hL : leafCount s.freq = 0
  · have : s.nleaf = 0 := BitVec.eq_of_toNat_eq (by simpa [hL] using hn)
    rw [if_pos this, (ht.2 hb).1, buildNodes_empty _ _ hL]; rfl
  · have h := (builtStore_of_inv hp hc ht hb hL).length
    rw [seedLeaves_length] at h
    have : s.nleaf ≠ 0 := fun e => hL (by rw [← hn, e]; rfl)
    rw [if_neg this]; omega

theorem root_eq_lastIdx {s : State} (hp : s.params.Legal) (hc : CountsInv s) (ht : TreeInv s) (hb : s.phase = .built) :
    s.root = lastIdx s.node := by
  rw [(ht.2 hb).2.2, (ht.2 hb).1]
  unfold buildRoot
  split
  · next hle =>
    by_cases hL : leafCount s.freq = 0
    · rw [buildNodes_empty _ _ hL]; rfl
    · have h := (builtStore_of_inv hp hc ht hb hL).length
      rw [seedLeaves_length, (ht.2 hb).1] at h
      unfold lastIdx
      rw [show (buildNodes s.params s.freq).length - 1 = 0 by omega]
      rfl
  · rfl

theorem leaf_at_leafIdx {s : State} (hp : s.params.Legal) (hc : CountsInv s) (ht : TreeInv s) (hb : s.phase = .built)
    {sym : Sym} (hs : freqAt s.freq sym ≠ 0) : s.node[leafIdx s.freq sym]? = some (leafNode s.freq sym) := by
  have hlt := leafIdx_lt s.freq hs
  have h := builtStore_of_inv hp hc ht hb (by omega)
  rw [h.seed_at (by rw [seedLeaves_length]; exact hlt), seedLeaves, List.getElem?_map, presentSymbols_leafIdx s.freq hs]
  rfl

/-- Every counted symbol has a code (R133, R151), its bits lead from ROOT to the symbol's leaf, and it has 1 to NLEAF - 1 bits
(R152). -/
theorem codeOf_path {s : State} (hp : s.params.Legal) (hc : CountsInv s) (ht : TreeInv s) (hb : s.phase = .built)
    (h2 : 2 ≤ s.nleaf.toNat) {sym : Sym} (hs : freqAt s.freq sym ≠ 0) :
    ∃ code, codeOf s sym = some code ∧ walk s.node code s.root = some (BitVec.ofNat 9 (leafIdx s.freq sym)) ∧
      1 ≤ code.length ∧ code.length + 1 ≤ s.nleaf.toNat := by
  have hn := nleaf_toNat ht hb
  have hlt := leafIdx_lt s.freq hs
  have hle := leafCount_le s.freq
  have h := builtStore_of_inv hp hc ht hb (by omega)
  have hlen := h.length
  rw [seedLeaves_length] at hlen
  have hroot := root_eq_lastIdx hp hc ht hb
  have hrn := h.lastIdx_toNat (by rw [seedLeaves_length]; exact hle)
  have hi : (BitVec.ofNat 9 (leafIdx s.freq sym)).toNat = leafIdx s.freq sym := by rw [BitVec.toNat_ofNat]; omega
  obtain ⟨p, hpath⟩ := h.reach (seedLeaves_leaf s.freq) (by rw [seedLeaves_length]; exact hle)
    (BitVec.ofNat 9 (leafIdx s.freq sym)) (by omega)
  have bound : ∀ q, walk s.node q (lastIdx s.node) = some (BitVec.ofNat 9 (leafIdx s.freq sym)) →
      1 ≤ q.length ∧ q.length + 1 ≤ s.nleaf.toNat := by
    intro q hq
    have hb := h.path_length (seedLeaves_leaf s.freq) hq
    rw [seedLeaves_length] at hb
    have hne : q ≠ [] := by
      rintro rfl
      simp only [walk, Option.some.injEq] at hq
      have := congrArg BitVec.toNat hq
      omega
    have := List.length_pos_iff.2 hne
    rcases hb with rfl | hb
    · exact absurd rfl hne
    · omega
  have hf : p.length < maxPathNodes := by have := bound p hpath; unfold maxPathNodes; omega
  obtain ⟨q, hq⟩ := findPath_complete hpath hf
  have hq' := (findPath_sound hq).1
  refine ⟨q, ?_, by rw [hroot]; exact hq', bound q hq'⟩
  unfold codeOf
  have : s.nleaf ≠ 1 := by intro e; rw [e] at h2; simp at h2
  rw [if_neg this, hroot]
  exact hq

theorem codeOf_single {s : State} (h : s.nleaf = 1) (sym : Sym) : codeOf s sym = some [false] := by simp [codeOf, h]

end Sys2Proof.Machine
end

