-- ==== Sys2Proof/Laws/Ops.lean ====
section
/-! SUPPORT. What the shared operations can do: packing, the checks of a command, the decoder's bits. -/

namespace Sys2Proof.Machine

/-! ### Bits of a word -/

@[simp] theorem wordBits_length (w : Word) : (wordBits w).length = 32 := by simp [wordBits]

theorem setBit_getLsbD (v : Word) (i j : Nat) (b : Bool) (hi : i < 32) :
    (setBit v i b).getLsbD j = if j = i then b else v.getLsbD j := by
  unfold setBit
  by_cases hj : j < 32
  · cases b <;> by_cases h : j = i <;> simp [h, hj, hi]
  · have h : j ≠ i := by omega
    rw [if_neg h, BitVec.getLsbD_of_ge _ _ (by omega), BitVec.getLsbD_of_ge _ _ (by omega)]

theorem wordBits_getElem (w : Word) (k : Nat) (h : k < (wordBits w).length) : (wordBits w)[k] = w.getLsbD (31 - k) := by
  simp [wordBits]

/-- Placing bit number `k` of a word adds it to the first `k` bits (R155). -/
theorem wordBits_setBit (v : Word) (k : Nat) (hk : k < 32) (b : Bool) :
    (wordBits (setBit v (31 - k) b)).take (k + 1) = (wordBits v).take k ++ [b] := by
  apply List.ext_getElem
  · simp; omega
  · intro i h1 h2
    simp only [List.length_take, wordBits_length] at h1
    rw [List.getElem_take, wordBits_getElem, setBit_getLsbD _ _ _ _ (by omega)]
    rcases Nat.lt_or_ge i k with h | h
    · rw [List.getElem_append_left (by simp; omega), List.getElem_take, wordBits_getElem, if_neg (by omega)]
    · have : i = k := by omega
      subst this
      rw [List.getElem_append_right (by simp), if_pos rfl]
      simp

/-- The unused low bits of a word are 0 (R42). -/
theorem lowZero_iff (v : Word) (m : Nat) : v.toNat % 2 ^ m = 0 ↔ ∀ i, i < m → v.getLsbD i = false := by
  constructor
  · intro h i hi
    have := congrArg (fun n => n.testBit i) h
    simpa [Nat.testBit_mod_two_pow, hi, BitVec.testBit_toNat] using this
  · intro h
    apply Nat.eq_of_testBit_eq
    intro i
    rw [Nat.testBit_mod_two_pow, Nat.zero_testBit]
    by_cases hi : i < m
    · have := h i hi
      rw [← BitVec.testBit_toNat] at this
      simp [this]
    · simp [hi]

/-! ### Packing (R155, R156) -/

/-- One bit is appended to what the session holds (R155). -/
theorem encodedBits_appendBit (s : State) (b : Bool) : encodedBits (appendBit s b) = encodedBits s ++ [b] := by
  have hlt := s.encAccn.isLt
  unfold appendBit
  split
  · next h =>
    have e : s.encAccn.toNat = 31 := by rw [h]; rfl
    have := wordBits_setBit s.encAcc 31 (by omega) b
    rw [List.take_of_length_le (by simp)] at this
    simp only [encodedBits, e, List.flatMap_append, List.flatMap_cons, List.flatMap_nil, List.append_nil, this]
    simp
  · next h =>
    have e : s.encAccn.toNat ≠ 31 := fun e => h (BitVec.eq_of_toNat_eq e)
    have e2 : (s.encAccn + 1).toNat = s.encAccn.toNat + 1 := by
      rw [BitVec.toNat_add]; simp; omega
    have := wordBits_setBit s.encAcc s.encAccn.toNat (by omega) b
    simp only [encodedBits, e2, this, List.append_assoc]

theorem appendBit_accn (s : State) (b : Bool) : (appendBit s b).encAccn.toNat = (s.encAccn.toNat + 1) % 32 := by
  have hlt := s.encAccn.isLt
  unfold appendBit
  split
  · next h => simp [h]
  · next h =>
    have e : s.encAccn.toNat ≠ 31 := fun e => h (BitVec.eq_of_toNat_eq e)
    simp [BitVec.toNat_add]

theorem appendBit_fifo_length (s : State) (b : Bool) :
    (appendBit s b).encFifo.length = s.encFifo.length + (s.encAccn.toNat + 1) / 32 := by
  have hlt := s.encAccn.isLt
  unfold appendBit
  split
  · next h => simp [h]
  · next h =>
    have e : s.encAccn.toNat ≠ 31 := fun e => h (BitVec.eq_of_toNat_eq e)
    have : (s.encAccn.toNat + 1) / 32 = 0 := by omega
    simp [this]

theorem appendBit_fifo_extends (s : State) (b : Bool) : s.encFifo <+: (appendBit s b).encFifo := by
  unfold appendBit
  split
  · exact List.prefix_append _ _
  · exact List.prefix_rfl

theorem appendBit_lowZero (s : State) (b : Bool) (h : s.encAcc.toNat % 2 ^ (32 - s.encAccn.toNat) = 0) :
    (appendBit s b).encAcc.toNat % 2 ^ (32 - (appendBit s b).encAccn.toNat) = 0 := by
  have hlt := s.encAccn.isLt
  rw [lowZero_iff] at *
  rw [appendBit_accn]
  intro i hi
  unfold appendBit
  split
  · simp
  · next hn =>
    have e : s.encAccn.toNat ≠ 31 := fun e => hn (BitVec.eq_of_toNat_eq e)
    simp only
    rw [setBit_getLsbD _ _ _ _ (by omega), if_neg (by omega)]
    exact h i (by omega)

/-- Appending bits changes only the accumulator and the FIFO (R155). -/
theorem appendBits_frame (code : List Bool) (s : State) :
    appendBits s code =
      { s with
        encAcc := (appendBits s code).encAcc
        encAccn := (appendBits s code).encAccn
        encFifo := (appendBits s code).encFifo } := by
  induction code generalizing s with
  | nil => rfl
  | cons b bs ih =>
    have h := ih (appendBit s b)
    change appendBits (appendBit s b) bs = _
    rw [h]
    change _ = { s with
        encAcc := (appendBits (appendBit s b) bs).encAcc
        encAccn := (appendBits (appendBit s b) bs).encAccn
        encFifo := (appendBits (appendBit s b) bs).encFifo }
    simp

/-- What appending a code does to the packing (R155 to R157). -/
theorem appendBits_spec (code : List Bool) (s : State) :
    encodedBits (appendBits s code) = encodedBits s ++ code ∧
      (appendBits s code).encAccn.toNat = (s.encAccn.toNat + code.length) % 32 ∧
      (appendBits s code).encFifo.length = s.encFifo.length + (s.encAccn.toNat + code.length) / 32 ∧
      s.encFifo <+: (appendBits s code).encFifo ∧
      (s.encAcc.toNat % 2 ^ (32 - s.encAccn.toNat) = 0 →
        (appendBits s code).encAcc.toNat % 2 ^ (32 - (appendBits s code).encAccn.toNat) = 0) := by
  induction code generalizing s with
  | nil =>
    have hlt := s.encAccn.isLt
    refine ⟨by simp [appendBits], ?_, ?_, List.prefix_rfl, id⟩
    · simp only [appendBits, List.foldl_nil, List.length_nil]; omega
    · simp only [appendBits, List.foldl_nil, List.length_nil]; omega
  | cons b bs ih =>
    obtain ⟨h1, h2, h3, h4, h5⟩ := ih (appendBit s b)
    have e : appendBits s (b :: bs) = appendBits (appendBit s b) bs := rfl
    rw [e, h1, h2, h3, encodedBits_appendBit, appendBit_accn, appendBit_fifo_length]
    have hlt := s.encAccn.isLt
    refine ⟨by simp, ?_, ?_, (appendBit_fifo_extends s b).trans h4, fun h => ?_⟩
    · simp only [List.length_cons]; omega
    · simp only [List.length_cons]; omega
    · have := h5 (appendBit_lowZero s b h)
      rw [h2, appendBit_accn] at this
      exact this

/-- A code a search finds has at most 255 bits (R9, R152). -/
theorem codeOf_length {s : State} {sym : Sym} {code : List Bool} (h : codeOf s sym = some code) : code.length ≤ 255 := by
  unfold codeOf at h
  split at h
  · cases h; simp
  · have := (findPath_sound h).2
    unfold maxPathNodes at this
    omega

/-! ### The checks of a data or END command (R232) -/

theorem sessionCheck_count {u : CodecUnit} {s : State} (h : s.phase = .count) : sessionCheck u s = some .phaseError := by
  simp [sessionCheck, h]

theorem sessionCheck_idle {u : CodecUnit} {s : State} (h : s.session u = .idle) : sessionCheck u s = some .phaseError := by
  simp [sessionCheck, h]

theorem sessionCheck_failed {u : CodecUnit} {s : State} (hp : s.phase = .built) (h : s.session u = .failed) :
    sessionCheck u s = some .sessionFailed := by simp [sessionCheck, h, hp]

theorem sessionCheck_active {u : CodecUnit} {s : State} (hp : s.phase = .built) (h : s.session u = .active) :
    sessionCheck u s = none := by simp [sessionCheck, h, hp]

theorem sessionCheck_none {u : CodecUnit} {s : State} (h : sessionCheck u s = none) :
    s.phase = .built ∧ s.session u = .active := by
  unfold sessionCheck at h
  split at h
  · simp at h
  · next hp =>
    split at h <;> simp_all
    cases hq : s.phase <;> simp_all

theorem sessionCheck_some {u : CodecUnit} {s : State} {c : ResultCode} (h : sessionCheck u s = some c) :
    c = .phaseError ∨ c = .sessionFailed := by
  unfold sessionCheck at h
  split at h
  · simp_all
  · split at h <;> simp_all

/-! ### The decoder's walk (R187) -/

/-- What one bit does: it fails at a one-leaf tree's root, or it moves the cursor and emits at most one symbol. -/
theorem decBit_cases {b : Bool} {s : State} :
    decBit b s = .undefinedNode ∨
      (decBit b s = .stop (s.failSession .decoder .malformedEncoding (s.decPos.setWidth 32)) ∧ b = true) ∨
      ∃ cur syms, syms.length ≤ 1 ∧
        decBit b s = .more { s with decCursor := cur, decPos := s.decPos + 1, decFifo := s.decFifo ++ syms } := by
  unfold decBit
  split
  · exact .inl rfl
  · split
    · split
      · next h => exact .inr (.inl ⟨rfl, by assumption⟩)
      · next c _ _ _ => exact .inr (.inr ⟨s.decCursor, [c.sym], by simp, rfl⟩)
    · dsimp only
      split
      · exact .inl rfl
      · next d _ =>
        split
        · exact .inr (.inr ⟨s.root, [d.sym], by simp, rfl⟩)
        · exact .inr (.inr ⟨_, [], by simp, by rw [List.append_nil]; rfl⟩)

/-- What a chunk does (R185): a fault where a node holds no value, MALFORMED_ENCODING at a bit 1 after the bits before it
have been applied, or OK after all of them. -/
theorem decChunk_cases (bs : List Bool) (s : State) :
    decChunk bs s = .fault .undefinedNode ∨
      (∃ cur syms k, syms.length ≤ k ∧ bs[k]? = some true ∧
        decChunk (bs.take k) s = .next
          { s with
            decCursor := cur, decPos := s.decPos + BitVec.ofNat 64 k, decFifo := s.decFifo ++ syms
            result := .ok } ∧
        decChunk bs s = .next
          { s with
            decCursor := cur, decPos := s.decPos + BitVec.ofNat 64 k, decFifo := s.decFifo ++ syms
            result := .malformedEncoding, decState := .failed, decErr := .malformedEncoding
            errInfo := (s.decPos + BitVec.ofNat 64 k).setWidth 32 }) ∨
      ∃ cur syms, syms.length ≤ bs.length ∧
        decChunk bs s = .next
          { s with
            decCursor := cur, decPos := s.decPos + BitVec.ofNat 64 bs.length, decFifo := s.decFifo ++ syms
            result := .ok } := by
  induction bs generalizing s with
  | nil =>
    refine .inr (.inr ⟨s.decCursor, [], by simp, ?_⟩)
    simp [decChunk, finishOk, State.withResult]
  | cons b bs ih =>
    simp only [decChunk]
    rcases decBit_cases (b := b) (s := s) with h | ⟨h, hb⟩ | ⟨cur, syms, hs, h⟩
    · exact .inl (by rw [h])
    · refine .inr (.inl ⟨s.decCursor, [], 0, by simp, by simp [hb], ?_, ?_⟩)
      · simp [decChunk, finishOk, State.withResult]
      · rw [h]; simp [State.failSession]
    · rw [h]
      simp only
      have key : ∀ k : Nat, s.decPos + 1 + BitVec.ofNat 64 k = s.decPos + BitVec.ofNat 64 (k + 1) := by
        intro k; rw [BitVec.add_assoc]; congr 1; apply BitVec.eq_of_toNat_eq; simp; omega
      rcases ih { s with decCursor := cur, decPos := s.decPos + 1, decFifo := s.decFifo ++ syms } with
        h' | ⟨cur', syms', k, h1, h2, h3, h'⟩ | ⟨cur', syms', h1, h'⟩
      · exact .inl h'
      · refine .inr (.inl ⟨cur', syms ++ syms', k + 1, by simp; omega, by simpa using h2, ?_, ?_⟩)
        · rw [List.take_succ_cons]
          simp only [decChunk, h]
          rw [h3, ← key]; simp
        · rw [h', ← key]; simp
      · refine .inr (.inr ⟨cur', syms ++ syms', by simp; omega, ?_⟩)
        rw [h', List.length_cons, ← key]; simp

end Sys2Proof.Machine
end

