-- ==== Sys2Proof/Laws/PerInstr.lean ====
section
/-! SUPPORT. What holds of every command as syntax: a command with legal operands has a legal word (30_encoding.md R96). -/

namespace Sys2Proof.Laws.EncodingLegal

open Sys2Proof.Machine

/-- The word of a command with legal operands is legal as R96 words it. -/
def Statement (i : Instr) : Prop := i.wellFormed = true → legalWord (encode i) = true

theorem clear : Statement .clear := by intro _; decide

theorem count (sym : Sym) : Statement (.count sym) := by intro _; revert sym; decide +kernel

theorem build : Statement .build := by intro _; decide

theorem encStart : Statement .encStart := by intro _; decide

theorem encSym (sym : Sym) : Statement (.encSym sym) := by intro _; revert sym; decide +kernel

theorem encEnd : Statement .encEnd := by intro _; decide

theorem decStart : Statement .decStart := by intro _; decide

theorem decEnd : Statement .decEnd := by intro _; decide

theorem queryFreq (sym : Sym) : Statement (.queryFreq sym) := by intro _; revert sym; decide +kernel

theorem queryNode (idx : NodeIdx) : Statement (.queryNode idx) := by intro _; revert idx; decide +kernel

theorem and_append {n m : Nat} (a b : BitVec n) (c d : BitVec m) : (a ++ c) &&& (b ++ d) = (a &&& b) ++ (c &&& d) := by
  apply BitVec.eq_of_getLsbD_eq
  intro i _
  simp only [BitVec.getLsbD_and, BitVec.getLsbD_append]
  split <;> rfl

theorem decBits (nbits : BitVec 5) (bits : BitVec 16) : Statement (.decBits nbits bits) := by
  intro h
  have hn : nbitsField (wordB 0x7 nbits bits) = nbits := by
    unfold nbitsField wordB
    rw [extract_append_high _ _ _ _ (by omega)]
    exact extract_append_zero _ _
  have ho : opField (wordB 0x7 nbits bits) = 0x7#4 := by
    unfold opField wordB
    iterate 3 rw [extract_append_high _ _ _ _ (by omega)]
    exact BitVec.extractLsb'_eq_self
  have hm : wordB 0x7 nbits bits &&& 0xFFE00000 = 0x70000000 := by
    unfold wordB
    have e1 : (0xFFE00000 : Word) = 0xF#4 ++ 0x7F#7 ++ 0#5 ++ 0#16 := by decide
    have e2 : (0x70000000 : Word) = 0x7#4 ++ 0#7 ++ 0#5 ++ 0#16 := by decide
    rw [e1, e2, and_append, and_append, and_append]
    simp
  show legalWord (wordB 0x7 nbits bits) = true
  unfold legalWord
  rw [ho]
  refine Bool.and_eq_true_iff.2 ⟨decide_eq_true hm, Bool.or_eq_true_iff.2 (.inr ?_)⟩
  rw [hn]
  exact h

end Sys2Proof.Laws.EncodingLegal
end

