-- ==== Sys2Proof/Laws/Run.lean ====
section
/-! SUPPORT. The end of a run (70_reset_and_hazards.md R274): it is the first state where the run is over. -/

namespace Sys2Proof.Machine

/-- A run that is over has ended, however many steps are allowed. -/
theorem endOfRun_of_over {s : State} (h : RunOver s) (k : Nat) : endOfRun k s = some s := by
  cases k <;> simp only [endOfRun, if_pos h]

/-- A run that is not over goes on with the next step. -/
theorem endOfRun_step {s t : State} (h : ¬RunOver s) (hs : step s = .next t) (k : Nat) :
    endOfRun (k + 1) s = endOfRun k t := by
  simp only [endOfRun, if_neg h, hs]

/-- The end of a run is reached by steps, the run is over there, and it is over in no state before. -/
theorem endOfRun_first {k : Nat} {s t : State} (h : endOfRun k s = some t) :
    ∃ j, j ≤ k ∧ Sys2Proof.core.run j s = .next t ∧ RunOver t ∧
      ∀ i u, i < j → Sys2Proof.core.run i s = .next u → ¬RunOver u := by
  induction k generalizing s with
  | zero =>
    simp only [endOfRun] at h
    split at h
    · next ho => cases h; exact ⟨0, Nat.le_refl _, rfl, ho, fun i _ hi => absurd hi (Nat.not_lt_zero i)⟩
    · cases h
  | succ k ih =>
    by_cases ho : RunOver s
    · rw [endOfRun_of_over ho] at h
      cases h
      exact ⟨0, Nat.zero_le _, rfl, ho, fun i _ hi => absurd hi (Nat.not_lt_zero i)⟩
    · simp only [endOfRun, if_neg ho] at h
      split at h
      · next u hu =>
        obtain ⟨j, hj, hr, hover, hfirst⟩ := ih h
        have hrun : ∀ i, Sys2Proof.core.run (i + 1) s = Sys2Proof.core.run i u := by
          intro i
          have : Sys2Proof.core.step s = .next u := hu
          simp only [Host.Core.run, this]
        refine ⟨j + 1, by omega, by rw [hrun]; exact hr, hover, fun i v hi hv => ?_⟩
        cases i with
        | zero => cases hv; exact ho
        | succ i => rw [hrun] at hv; exact hfirst i v (by omega) hv
      · cases h
      · cases h

/-- More steps find the same end. -/
theorem endOfRun_mono {k : Nat} {s t : State} (h : endOfRun k s = some t) (n : Nat) : endOfRun (k + n) s = some t := by
  induction k generalizing s with
  | zero =>
    simp only [endOfRun] at h
    split at h
    · next ho => cases h; exact endOfRun_of_over ho _
    · cases h
  | succ k ih =>
    by_cases ho : RunOver s
    · rw [endOfRun_of_over ho] at h ⊢
      exact h
    · simp only [endOfRun, if_neg ho] at h
      rw [Nat.add_right_comm]
      simp only [endOfRun, if_neg ho]
      split at h
      · next u hu => exact ih h
      · cases h
      · cases h

end Sys2Proof.Machine
end

