-- ==== Sys2Proof/Laws/Walk.lean ====
section
/-! SUPPORT. The decoder's walk: the machine's DEC_BITS is the source's walk on the tree (42_decoder.md R181, R187, R191). -/

namespace Sys2Proof.Machine

/-! ### The walk on a tree alone (R181) -/

theorem sourceWalk_append (node : List Node) (root : NodeIdx) (bs cs : List Bool) (cur : NodeIdx) :
    sourceWalk node root (bs ++ cs) cur =
      (sourceWalk node root bs cur).bind fun r =>
        (sourceWalk node root cs r.1).map fun r' => (r'.1, r.2 ++ r'.2) := by
  induction bs generalizing cur with
  | nil => simp [sourceWalk]
  | cons b bs ih =>
    simp only [List.cons_append, sourceWalk]
    cases walk node [b] cur with
    | none => rfl
    | some m =>
      simp only
      cases node[m.toNat]? with
      | none => rfl
      | some nd =>
        simp only
        split
        · rw [ih]
          cases sourceWalk node root bs root with
          | none => rfl
          | some r => simp [Option.map_map, Function.comp_def]
        · exact ih m

/-- The bits of a path to a leaf emit that leaf's symbol and bring the cursor back to the root (R191). -/
theorem sourceWalk_path {node : List Node} {root : NodeIdx} {code : List Bool} {n t : NodeIdx} {nd : Node}
    (hne : code ≠ []) (hw : walk node code n = some t) (ht : node[t.toNat]? = some nd) (hl : nd.leaf = true) :
    sourceWalk node root code n = some (root, [nd.sym]) := by
  induction code generalizing n with
  | nil => contradiction
  | cons b bs ih =>
    rw [show b :: bs = [b] ++ bs from rfl, walk_append] at hw
    obtain ⟨m, hm, hbs⟩ := Option.bind_eq_some_iff.1 hw
    simp only [sourceWalk, hm]
    cases bs with
    | nil =>
      simp only [walk, Option.some.injEq] at hbs
      subst hbs
      simp [ht, hl, sourceWalk]
    | cons c cs =>
      have h := hbs
      simp only [walk] at h
      cases hmd : node[m.toNat]? with
      | none => simp [hmd] at h
      | some md =>
        cases hml : md.leaf with
        | true => simp [hmd, hml] at h
        | false =>
          simp only [hml, Bool.false_eq_true, if_false]
          exact ih (by simp) hbs

/-- The decoder of the machine is the walk on its tree (R181, R187). -/
theorem decChunk_of_sourceWalk {bs : List Bool} {s : State} {cur : NodeIdx} {syms : List Sym}
    (h : sourceWalk s.node s.root bs s.decCursor = some (cur, syms)) :
    decChunk bs s = .next
      { s with
        decCursor := cur, decPos := s.decPos + BitVec.ofNat 64 bs.length, decFifo := s.decFifo ++ syms, result := .ok } := by
  induction bs generalizing s syms with
  | nil =>
    simp only [sourceWalk, Option.some.injEq, Prod.mk.injEq] at h
    obtain ⟨rfl, rfl⟩ := h
    simp [decChunk, finishOk, State.withResult]
  | cons b bs ih =>
    have key : s.decPos + 1 + BitVec.ofNat 64 bs.length = s.decPos + BitVec.ofNat 64 (bs.length + 1) := by
      rw [BitVec.add_assoc]; congr 1; apply BitVec.eq_of_toNat_eq; simp; omega
    simp only [sourceWalk] at h
    cases hm : walk s.node [b] s.decCursor with
    | none => simp [hm] at h
    | some m =>
      simp only [hm] at h
      obtain ⟨c, hc, hcl, hcm⟩ := walk_singleton.1 hm
      cases hd : s.node[m.toNat]? with
      | none => simp [hd] at h
      | some d =>
        simp only [hd] at h
        cases hdl : d.leaf with
        | true =>
          simp only [hdl, if_true, Option.map_eq_some_iff, Prod.mk.injEq] at h
          obtain ⟨⟨cur', syms'⟩, hw, rfl, rfl⟩ := h
          have step : decBit b s = .more { (s.pushSymbol d.sym).bitTaken with decCursor := s.root } := by
            simp [decBit, hc, hcl, hcm, hd, hdl]
          have := ih (s := { (s.pushSymbol d.sym).bitTaken with decCursor := s.root }) hw
          simp only [decChunk, step, this, List.length_cons, ← key]
          simp
        | false =>
          simp only [hdl, Bool.false_eq_true, if_false] at h
          have step : decBit b s = .more { s.bitTaken with decCursor := m } := by
            simp [decBit, hc, hcl, hcm, hd, hdl]
          have := ih (s := { s.bitTaken with decCursor := m }) h
          simp only [decChunk, step, this, List.length_cons, ← key]
          simp

/-- In a tree of two leaves or more the walk always finds its child (R187), and it rests on ROOT or an internal node (R181). -/
theorem sourceWalk_total {seeds node : List Node} {total : Nat} (h : BuiltStore seeds total node)
    (hleaf : ∀ nd ∈ seeds, nd.leaf = true) (h2 : 2 ≤ seeds.length) (hL : seeds.length ≤ 256) (bs : List Bool)
    (cur : NodeIdx) (hcur : ∃ nd, node[cur.toNat]? = some nd ∧ nd.leaf = false) :
    ∃ cur' syms, sourceWalk node (lastIdx node) bs cur = some (cur', syms) ∧ syms.length ≤ bs.length ∧
      ∃ nd, node[cur'.toNat]? = some nd ∧ nd.leaf = false := by
  have hlen := h.length
  have hroot : ∃ nd, node[(lastIdx node).toNat]? = some nd ∧ nd.leaf = false := by
    rw [h.lastIdx_toNat hL]
    obtain ⟨nd, hnd⟩ : ∃ nd, node[node.length - 1]? = some nd :=
      ⟨_, List.getElem?_eq_getElem (by omega)⟩
    exact ⟨nd, hnd, (h.merged _ nd (by omega) hnd).leaf⟩
  induction bs generalizing cur with
  | nil => exact ⟨cur, [], rfl, by simp, hcur⟩
  | cons b bs ih =>
    obtain ⟨c, hc, hcl⟩ := hcur
    have hm : walk node [b] cur = some (if b then c.right else c.left) := walk_singleton.2 ⟨c, hc, hcl, rfl⟩
    have hlt := (h.child_lt hleaf hm).1
    have hcl' := (List.getElem?_eq_some_iff.1 hc).1
    obtain ⟨d, hd⟩ : ∃ d, node[(if b then c.right else c.left).toNat]? = some d :=
      ⟨_, List.getElem?_eq_getElem (by omega)⟩
    simp only [sourceWalk, hm, hd]
    cases hdl : d.leaf with
    | true =>
      obtain ⟨cur', syms, h1, h2, h3⟩ := ih (lastIdx node) hroot
      exact ⟨cur', d.sym :: syms, by simp [h1], by simp; omega, h3⟩
    | false =>
      obtain ⟨cur', syms, h1, h2, h3⟩ := ih _ ⟨d, hd, hdl⟩
      exact ⟨cur', syms, by simpa using h1, by simp; omega, h3⟩

end Sys2Proof.Machine
end

