-- ==== Sys2Proof/Laws/Step.lean ====
section
/-! SUPPORT. What each command and each step can do: one inversion lemma per meaning, and one of the step. -/

namespace Sys2Proof.Machine

/-! ### What each command can do (one inversion lemma per meaning) -/

theorem execCount_next {sym : Sym} {s t : State} (h : execCount sym s = .next t) :
    (s.phase = .built ∧ t = s.withResult .phaseError) ∨
      (s.phase = .count ∧ s.total.toNat = maxTotal s.params ∧ t = s.withResult .freqOverflow) ∨
      (s.phase = .count ∧ s.total.toNat ≠ maxTotal s.params ∧
        t = { s with
              freq := setFreq s.freq sym (addCount s.params (freqAt s.freq sym) 1)
              total := addCount s.params s.total 1, result := .ok }) := by
  unfold execCount at h
  cases hp : s.phase with
  | built => rw [if_pos hp] at h; cases h; exact .inl ⟨rfl, rfl⟩
  | count =>
    rw [if_neg (by simp [hp])] at h
    split at h
    · next hm => cases h; exact .inr (.inl ⟨rfl, hm, rfl⟩)
    · next hm => cases h; exact .inr (.inr ⟨rfl, hm, by simp [State.withResult, hp]⟩)

theorem execBuild_next {s t : State} (h : execBuild s = .next t) :
    (s.phase = .built ∧ t = s.withResult .phaseError) ∨
      (s.phase = .count ∧ t = s.builtTree.withResult .ok) := by
  unfold execBuild at h
  cases hp : s.phase with
  | built => rw [if_pos hp] at h; cases h; exact .inl ⟨rfl, rfl⟩
  | count => rw [if_neg (by simp [hp])] at h; cases h; exact .inr ⟨rfl, rfl⟩

theorem execEncStart_next {s t : State} (h : execEncStart s = .next t) :
    (s.phase = .count ∧ t = s.withResult .phaseError) ∨
      (s.phase = .built ∧ t = s.openEncoder.withResult .ok) := by
  unfold execEncStart at h
  cases hp : s.phase with
  | count => rw [if_pos hp] at h; cases h; exact .inl ⟨rfl, rfl⟩
  | built => rw [if_neg (by simp [hp])] at h; cases h; exact .inr ⟨rfl, rfl⟩

theorem execDecStart_next {s t : State} (h : execDecStart s = .next t) :
    (s.phase = .count ∧ t = s.withResult .phaseError) ∨
      (s.phase = .built ∧ t = s.openDecoder.withResult .ok) := by
  unfold execDecStart at h
  cases hp : s.phase with
  | count => rw [if_pos hp] at h; cases h; exact .inl ⟨rfl, rfl⟩
  | built => rw [if_neg (by simp [hp])] at h; cases h; exact .inr ⟨rfl, rfl⟩

/-- ENC_SYM rejects, fails, or appends the code (R156). -/
theorem execEncSym_next {sym : Sym} {s t : State} (h : execEncSym sym s = .next t) :
    (∃ c, (c = .phaseError ∨ c = .sessionFailed ∨ c = .outputFull) ∧ t = s.withResult c) ∨
      (s.phase = .built ∧ s.encState = .active ∧ freqAt s.freq sym = 0 ∧
        t = s.failSession .encoder .unknownSymbol (sym.setWidth 32)) ∨
      (s.phase = .built ∧ s.encState = .active ∧ freqAt s.freq sym ≠ 0 ∧
        ∃ code, codeOf s sym = some code ∧ wordsCompleted s code ≤ s.params.encDepth - s.encFifo.length ∧
          t = (emitCode s code).withResult .ok) := by
  unfold execEncSym at h
  split at h
  · next c hc =>
    cases h
    rcases sessionCheck_some hc with rfl | rfl
    · exact .inl ⟨_, .inl rfl, rfl⟩
    · exact .inl ⟨_, .inr (.inl rfl), rfl⟩
  · next hc =>
    obtain ⟨hp, ha⟩ := sessionCheck_none hc
    split at h
    · next hf => cases h; exact .inr (.inl ⟨hp, ha, hf, rfl⟩)
    · next hf =>
      split at h
      · simp at h
      · next code hcode =>
        split at h
        · cases h; exact .inl ⟨_, .inr (.inr rfl), rfl⟩
        · next hd => cases h; exact .inr (.inr ⟨hp, ha, hf, code, hcode, by omega, rfl⟩)

/-- ENC_END rejects, or flushes and closes (R160). -/
theorem execEncEnd_next {s t : State} (h : execEncEnd s = .next t) :
    (∃ c, (c = .phaseError ∨ c = .sessionFailed ∨ c = .outputFull) ∧ t = s.withResult c) ∨
      (s.phase = .built ∧ s.encState = .active ∧
        (s.encAccn ≠ 0 → 1 ≤ s.params.encDepth - s.encFifo.length) ∧
        t = { flushWord s with encState := .idle, result := .ok }) := by
  unfold execEncEnd at h
  split at h
  · next c hc =>
    cases h
    rcases sessionCheck_some hc with rfl | rfl
    · exact .inl ⟨_, .inl rfl, rfl⟩
    · exact .inl ⟨_, .inr (.inl rfl), rfl⟩
  · next hc =>
    obtain ⟨hp, ha⟩ := sessionCheck_none hc
    split at h
    · cases h; exact .inl ⟨_, .inr (.inr rfl), rfl⟩
    · next hd => cases h; exact .inr ⟨hp, ha, fun hn => by simp only [not_and, hn, ne_eq, not_false_eq_true, forall_const] at hd; omega, rfl⟩

/-- DEC_BITS rejects, fails on the empty tree, or walks its chunk (R185). -/
theorem execDecBits_next {nbits : BitVec 5} {bits : BitVec 16} {s t : State} (h : execDecBits nbits bits s = .next t) :
    (∃ c, (c = .illegalCommand ∨ c = .phaseError ∨ c = .sessionFailed ∨ c = .outputFull) ∧ t = s.withResult c) ∨
      (s.phase = .built ∧ s.decState = .active ∧ s.nleaf = 0 ∧
        t = s.failSession .decoder .emptyTreeDecode (s.decPos.setWidth 32)) ∨
      (s.phase = .built ∧ s.decState = .active ∧ s.nleaf ≠ 0 ∧
        nbits.toNat ≤ s.params.decDepth - s.decFifo.length ∧ decChunk (chunkBits nbits bits) s = .next t) := by
  unfold execDecBits at h
  split at h
  · cases h; exact .inl ⟨_, .inl rfl, rfl⟩
  · split at h
    · next c hc =>
      cases h
      rcases sessionCheck_some hc with rfl | rfl
      · exact .inl ⟨_, .inr (.inl rfl), rfl⟩
      · exact .inl ⟨_, .inr (.inr (.inl rfl)), rfl⟩
    · next hc =>
      obtain ⟨hp, ha⟩ := sessionCheck_none hc
      split at h
      · next hn => cases h; exact .inr (.inl ⟨hp, ha, hn, rfl⟩)
      · next hn =>
        split at h
        · cases h; exact .inl ⟨_, .inr (.inr (.inr rfl)), rfl⟩
        · next hd => exact .inr (.inr ⟨hp, ha, hn, by omega, h⟩)

/-- DEC_END rejects, reports a code in progress, or closes (R190). -/
theorem execDecEnd_next {s t : State} (h : execDecEnd s = .next t) :
    (∃ c, (c = .phaseError ∨ c = .sessionFailed) ∧ t = s.withResult c) ∨
      (s.phase = .built ∧ s.decState = .active ∧ s.decCursor ≠ s.root ∧
        t = s.failSession .decoder .truncatedEncoding (s.decPos.setWidth 32)) ∨
      (s.phase = .built ∧ s.decState = .active ∧ s.decCursor = s.root ∧
        t = { s with decState := .idle, result := .ok }) := by
  unfold execDecEnd at h
  split at h
  · next c hc =>
    cases h
    exact .inl ⟨c, sessionCheck_some hc, rfl⟩
  · next hc =>
    obtain ⟨hp, ha⟩ := sessionCheck_none hc
    split at h
    · next hd => cases h; exact .inr (.inl ⟨hp, ha, hd, rfl⟩)
    · next hd => cases h; exact .inr (.inr ⟨hp, ha, by simpa using hd, rfl⟩)

theorem execQueryNode_next {idx : NodeIdx} {s t : State} (h : execQueryNode idx s = .next t) :
    (∃ c, (c = .phaseError ∨ c = .badIndex) ∧ t = s.withResult c) ∨
      (s.phase = .built ∧ idx.toNat < nnode s ∧
        ∃ nd, s.node[idx.toNat]? = some nd ∧ t = { s with rdata0 := nd.freq, rdata1 := nodeWord nd, result := .ok }) := by
  unfold execQueryNode at h
  split at h
  · cases h; exact .inl ⟨_, .inl rfl, rfl⟩
  · next hp =>
    split at h
    · cases h; exact .inl ⟨_, .inr rfl, rfl⟩
    · next hn =>
      split at h
      · simp at h
      · next nd hnd =>
        cases h
        refine .inr ⟨?_, by omega, nd, hnd, rfl⟩
        cases hq : s.phase <;> simp_all

/-- No command is ever refused. -/
theorem exec_not_refused (i : Instr) (s : State) (r : Refusal) : exec i s ≠ .refused r := by
  cases i <;> simp only [exec]
  · simp [execClear, finishOk]
  · unfold execCount; split <;> (try split) <;> simp [reject, finishOk]
  · unfold execBuild; split <;> simp [reject, finishOk]
  · unfold execEncStart; split <;> simp [reject, finishOk]
  · unfold execEncSym; repeat' split
    all_goals simp [reject, finishOk]
  · unfold execEncEnd; repeat' split
    all_goals simp [reject, finishOk]
  · unfold execDecStart; split <;> simp [reject, finishOk]
  · unfold execDecBits; repeat' split
    all_goals try simp [reject]
    next bits _ _ _ _ _ _ =>
      rcases decChunk_cases (chunkBits ‹BitVec 5› ‹BitVec 16›) s with h | ⟨_, _, _, _, _, _, h⟩ | ⟨_, _, _, h⟩ <;> rw [h] <;> simp
  · unfold execDecEnd; repeat' split
    all_goals simp [reject, finishOk]
  · simp [execQueryFreq, finishOk]
  · unfold execQueryNode; repeat' split
    all_goals simp [reject, finishOk]

/-! ### What a step can do -/

/-- The device's turn leads on: its events are used up, or it is the first one. -/
abbrev DeviceTurn (s : State) (es : List Event) : Prop := (s.events = [] ∧ es = []) ∨ s.events = .complete :: es

/-- A step that answers a next state is one of these (R65 to R70, R260). -/
theorem step_next {s t : State} (h : step s = .next t) :
    s.params.Legal ∧ ∃ es,
      ((DeviceTurn s es ∧ s.pending = none ∧ t = { s with events := es }) ∨
        (DeviceTurn s es ∧ ∃ w u, s.pending = some w ∧ execute w { s with events := es } = .next u ∧ t = u.unlatch) ∨
        (∃ off size r, s.events = .read off size :: es ∧ accessedReg off size = .ok r ∧
          t = (readReg r { s with events := es }).2.hostGot (readReg r { s with events := es }).1) ∨
        (∃ off size v r, s.events = .write off size v :: es ∧ accessedReg off size = .ok r ∧
          t = writeReg r v { s with events := es }) ∨
        (s.events = .reset :: es ∧ t = resetDevice { s with events := es })) := by
  unfold step at h
  split at h
  · next hp =>
    refine ⟨hp, ?_⟩
    unfold takeStep at h
    have device : ∀ es, DeviceTurn s es → complete { s with events := es } = .next t →
        (DeviceTurn s es ∧ s.pending = none ∧ t = { s with events := es }) ∨
        (DeviceTurn s es ∧ ∃ w u, s.pending = some w ∧ execute w { s with events := es } = .next u ∧ t = u.unlatch) := by
      intro es hd hc
      unfold complete at hc
      split at hc
      · next hn => cases hc; exact .inl ⟨hd, hn, rfl⟩
      · next w hw =>
        cases hu : execute w { s with events := es } with
        | next u => rw [hu] at hc; cases hc; exact .inr ⟨hd, w, u, hw, hu, rfl⟩
        | fault f => rw [hu] at hc; simp [thenUnlatch] at hc
        | refused r => rw [hu] at hc; simp [thenUnlatch] at hc
    split at h
    · next he =>
      have hs : ({ s with events := [] } : State) = s := by cases s; simp_all
      refine ⟨[], ?_⟩
      rcases device [] (.inl ⟨he, rfl⟩) (by rw [hs]; exact h) with h | h
      · exact .inl h
      · exact .inr (.inl h)
    · next e es he =>
      refine ⟨es, ?_⟩
      cases e with
      | complete =>
        rcases device es (.inr he) h with h | h
        · exact .inl h
        · exact .inr (.inl h)
      | read off size =>
        simp only [handleEvent, hostRead] at h
        split at h
        · simp at h
        · next r hr => cases h; exact .inr (.inr (.inl ⟨off, size, r, he, hr, rfl⟩))
      | write off size v =>
        simp only [handleEvent, hostWrite] at h
        split at h
        · simp at h
        · next r hr => cases h; exact .inr (.inr (.inr (.inl ⟨off, size, v, r, he, hr, rfl⟩)))
      | reset => simp only [handleEvent] at h; cases h; exact .inr (.inr (.inr (.inr ⟨he, rfl⟩)))
  · simp at h

/-- A read changes nothing of the device but the head of one FIFO while BUSY = 0 (R65, R68, R72). -/
theorem readReg_frame (r : Reg) (s : State) :
    (readReg r s).2 = s ∨ (readReg r s).2 = { s with draws := s.draws + 1 } ∨
      (∃ w ws, s.encFifo = w :: ws ∧ (readReg r s).2 = { s with encFifo := ws }) ∨
      ∃ x xs, s.decFifo = x :: xs ∧ (readReg r s).2 = { s with decFifo := xs } := by
  unfold readReg
  split
  · cases r <;> simp [readBusy, drawRead]
  · cases r <;> try exact .inl rfl
    · cases h : s.encFifo with
      | nil => exact .inl (by simp [readIdle, h])
      | cons w ws => exact .inr (.inr (.inl ⟨w, ws, rfl, by simp [readIdle, h]⟩))
    · cases h : s.decFifo with
      | nil => exact .inl (by simp [readIdle, h])
      | cons x xs => exact .inr (.inr (.inr ⟨x, xs, rfl, by simp [readIdle, h]⟩))

/-- A write latches, is dropped, or changes nothing (R66, R69, R70). -/
theorem writeReg_frame (r : Reg) (v : Word) (s : State) :
    writeReg r v s = s ∨ (r = .cmd ∧ s.busy = true ∧ writeReg r v s = { s with overrun := true }) ∨
      (r = .cmd ∧ s.busy = false ∧ writeReg r v s = { s with pending := some v }) := by
  cases r <;> try exact .inl rfl
  unfold writeReg; dsimp only
  split
  · next h => exact .inr (.inl ⟨rfl, h, rfl⟩)
  · next h => exact .inr (.inr ⟨rfl, by simpa using h, rfl⟩)

/-- No command writes the parameters, the latch, OVERRUN or the records of the environment (R50, R239). -/
theorem exec_bus {i : Instr} {s t : State} (h : exec i s = .next t) :
    t.params = s.params ∧ t.pending = s.pending ∧ t.overrun = s.overrun ∧ t.events = s.events ∧ t.reads = s.reads ∧ t.draws = s.draws := by
  cases i <;> simp only [exec] at h
  · cases h; simp [State.withResult, State.cleared]
  · rcases execCount_next h with ⟨-, rfl⟩ | ⟨-, -, rfl⟩ | ⟨-, -, rfl⟩ <;> simp
  · rcases execBuild_next h with ⟨-, rfl⟩ | ⟨-, rfl⟩ <;> simp
  · rcases execEncStart_next h with ⟨-, rfl⟩ | ⟨-, rfl⟩ <;> simp
  · rcases execEncSym_next h with ⟨c, hc, rfl⟩ | ⟨-, -, -, rfl⟩ | ⟨-, -, -, c, -, -, rfl⟩
    · simp
    · simp
    · simp only [emitCode]; rw [appendBits_frame]; simp
  · rcases execEncEnd_next h with ⟨c, hc, rfl⟩ | ⟨-, -, -, rfl⟩
    · simp
    · unfold flushWord; split <;> simp
  · rcases execDecStart_next h with ⟨-, rfl⟩ | ⟨-, rfl⟩ <;> simp
  · next nb bits =>
    rcases execDecBits_next h with ⟨c, hc, rfl⟩ | ⟨-, -, -, rfl⟩ | ⟨-, -, -, -, h⟩
    · simp
    · simp
    · rcases decChunk_cases (chunkBits nb bits) s with hc | ⟨_, _, _, _, _, _, hc⟩ | ⟨_, _, _, hc⟩ <;> rw [hc] at h <;> cases h <;> simp
  · rcases execDecEnd_next h with ⟨c, hc, rfl⟩ | ⟨-, -, -, rfl⟩ | ⟨-, -, -, rfl⟩ <;> simp
  · cases h; simp
  · rcases execQueryNode_next h with ⟨c, hc, rfl⟩ | ⟨-, -, nd, -, rfl⟩ <;> simp

/-- A word is rejected as illegal, or runs its command (R95). -/
theorem execute_cases {w : Word} {s t : State} (h : execute w s = .next t) :
    t = s.withResult .illegalCommand ∨ ∃ i, decode w = .ok i ∧ exec i s = .next t := by
  unfold execute at h
  split at h
  · cases h; exact .inl rfl
  · next i hi => exact .inr ⟨i, hi, h⟩

theorem DeviceTurn.events {s : State} {es} (h : DeviceTurn s es) : (s.events = [] ∨ ∃ es, s.events = .complete :: es) := by
  rcases h with ⟨h, -⟩ | h
  · exact .inl h
  · exact .inr ⟨_, h⟩

/-- What a step can do to the device: a bus access, the head of a FIFO, an illegal word, one command, or reset. -/
theorem step_device {s t : State} (h : step s = .next t) :
    (∃ d p o e r, t = { s with draws := d, pending := p, overrun := o, events := e, reads := r }) ∨
    (∃ w ws d r e, s.encFifo = w :: ws ∧ t = { s with encFifo := ws, draws := d, reads := r, events := e }) ∨
    (∃ w ws d r e, s.decFifo = w :: ws ∧ t = { s with decFifo := ws, draws := d, reads := r, events := e }) ∨
    (∃ e, t = { s with result := .illegalCommand, pending := none, events := e }) ∨
    (∃ i es u, Executes s i ∧ exec i { s with events := es } = .next u ∧ t = u.unlatch) ∨
    (Resets s ∧ ∃ es, t = resetDevice { s with events := es }) := by
  obtain ⟨-, es, ⟨hd, hp, rfl⟩ | ⟨hd, w, u, hw, hu, rfl⟩ | ⟨off, size, r, he, hr, rfl⟩ | ⟨off, size, v, r, he, hr, rfl⟩ | ⟨he, rfl⟩⟩ := step_next h
  · exact .inl ⟨s.draws, s.pending, s.overrun, es, s.reads, rfl⟩
  · rcases execute_cases hu with rfl | ⟨i, hi, hx⟩
    · exact .inr (.inr (.inr (.inl ⟨es, rfl⟩)))
    · exact .inr (.inr (.inr (.inr (.inl ⟨i, es, u, ⟨⟨w, hw, hi⟩, hd.events⟩, hx, rfl⟩))))
  · rcases readReg_frame r { s with events := es } with h | h | ⟨w, ws, hf, h⟩ | ⟨w, ws, hf, h⟩
    · rw [h]; exact .inl ⟨s.draws, s.pending, s.overrun, es, _, rfl⟩
    · rw [h]; exact .inl ⟨_, s.pending, s.overrun, es, _, rfl⟩
    · rw [h]; exact .inr (.inl ⟨w, ws, s.draws, _, es, hf, rfl⟩)
    · rw [h]; exact .inr (.inr (.inl ⟨w, ws, s.draws, _, es, hf, rfl⟩))
  · rcases writeReg_frame r v { s with events := es } with h | ⟨-, -, h⟩ | ⟨-, -, h⟩
    · rw [h]; exact .inl ⟨s.draws, s.pending, s.overrun, es, s.reads, rfl⟩
    · rw [h]; exact .inl ⟨s.draws, s.pending, _, es, s.reads, rfl⟩
    · rw [h]; exact .inl ⟨s.draws, _, s.overrun, es, s.reads, rfl⟩
  · exact .inr (.inr (.inr (.inr (.inr ⟨⟨es, he⟩, es, rfl⟩))))

end Sys2Proof.Machine
end

