-- ==== Sys2Proof/Laws/Table.lean ====
section
/-! SUPPORT. The frequency table's reads and writes, and the invariant parts that one shared operation keeps. -/

namespace Sys2Proof.Machine

/-! ### The frequency table (R38, R39, R123) -/

theorem freqAt_setFreq (f : Vector Count 256) (a b : Sym) (v : Count) :
    freqAt (setFreq f a v) b = if b = a then v else freqAt f b := by
  unfold freqAt setFreq
  rw [Vector.getElem_set]
  by_cases h : b = a
  · simp [h]
  · have : a.toNat ≠ b.toNat := fun e => h (BitVec.eq_of_toNat_eq e.symm)
    simp [h, this]

theorem setFreq_comm (f : Vector Count 256) {a b : Sym} (h : a ≠ b) (u v : Count) :
    setFreq (setFreq f a u) b v = setFreq (setFreq f b v) a u := by
  unfold setFreq
  apply Vector.set_comm
  intro e
  exact h (BitVec.eq_of_toNat_eq e)

theorem sum_set (l : List Nat) (i : Nat) (h : i < l.length) (v : Nat) : (l.set i v).sum + l[i] = l.sum + v := by
  induction l generalizing i with
  | nil => simp at h
  | cons x xs ih =>
    cases i with
    | zero => simp; omega
    | succ i => simp at h ⊢; have := ih i h; omega

theorem countSum_setFreq (f : Vector Count 256) (sym : Sym) (v : Count) :
    countSum (setFreq f sym v) + (freqAt f sym).toNat = countSum f + v.toNat := by
  have h := sum_set (f.toList.map BitVec.toNat) sym.toNat (by simpa using sym.isLt) v.toNat
  simp only [List.getElem_map, Vector.getElem_toList] at h
  unfold countSum setFreq freqAt
  rw [Vector.toList_set, List.map_set]
  exact h

theorem freqAt_le_countSum (f : Vector Count 256) (sym : Sym) : (freqAt f sym).toNat ≤ countSum f := by
  have := countSum_setFreq f sym 0
  simp at this
  omega

/-- No addition of an accepted COUNT wraps (R123). -/
theorem addCount_one {s : State} (hl : s.params.Legal) (hc : CountsInv s) (hm : s.total.toNat ≠ maxTotal s.params)
    (sym : Sym) :
    (addCount s.params s.total 1).toNat = s.total.toNat + 1 ∧
      (addCount s.params (freqAt s.freq sym) 1).toNat = (freqAt s.freq sym).toNat + 1 := by
  have h1 := freqAt_le_countSum s.freq sym
  have hp : s.params.freqW ≤ 32 := hl.1.2
  have e1 : (1 : Count).toNat = 1 := rfl
  obtain ⟨c1, c2⟩ := hc
  constructor <;> rw [addCount_toNat _ _ _ hp (by rw [e1]; omega)] <;> rfl

/-! ### The decoder's cursor (R181) -/

theorem decBit_cursor {b : Bool} {s u : State} (h : decBit b s = .more u) (hc : CursorInv s) : CursorInv u := by
  unfold decBit at h
  split at h
  · simp at h
  · split at h
    · split at h
      · simp at h
      · cases h; exact hc
    · dsimp only at h
      split at h
      · simp at h
      · next d hd =>
        split at h
        · cases h; exact .inl rfl
        · next hl => cases h; right; simp [State.bitTaken, hd]; simpa using hl

theorem decChunk_cursor {bs : List Bool} {s u : State} (h : decChunk bs s = .next u) (hc : CursorInv s) : CursorInv u := by
  induction bs generalizing s with
  | nil => cases h; exact hc
  | cons b bs ih =>
    simp only [decChunk] at h
    split at h
    · next s' hs => exact ih h (decBit_cursor hs hc)
    · next s' hs =>
      cases h
      rcases decBit_cases (b := b) (s := s) with h | ⟨h, -⟩ | ⟨_, _, -, h⟩ <;> rw [h] at hs <;> cases hs
      exact hc
    · simp at h

@[simp] theorem chunkBits_length (nbits : BitVec 5) (bits : BitVec 16) : (chunkBits nbits bits).length = nbits.toNat := by
  simp [chunkBits]

theorem sourceWalk_length {node : List Node} {root : NodeIdx} {bs : List Bool} {c : NodeIdx} {r : NodeIdx × List Sym}
    (h : sourceWalk node root bs c = some r) : r.2.length ≤ bs.length := by
  induction bs generalizing c r with
  | nil => simp [sourceWalk] at h; subst h; simp
  | cons b bs ih =>
    simp only [sourceWalk] at h
    split at h
    · simp at h
    · split at h
      · simp at h
      · split at h
        · obtain ⟨r', h1, rfl⟩ := Option.map_eq_some_iff.1 h
          have := ih h1
          simp; exact this
        · have := ih h; simp; omega

/-! ### Runs of commands (R103) -/

theorem runOk_cons {i : Instr} {is : List Instr} {s t : State} (h : runOk (i :: is) s = some t) :
    ∃ u, exec i s = .next u ∧ u.result = .ok ∧ runOk is u = some t := by
  simp only [runOk] at h
  split at h
  · next u hu =>
    split at h
    · next hr => exact ⟨u, hu, hr, h⟩
    · simp at h
  · simp at h
  · simp at h

end Sys2Proof.Machine
end

