-- ==== Sys2Proof/Tests/Slice0.lean ====
section
/-! SUPPORT. The model's own tests, with expected results from the vectors of 95_test_vectors.md, the smoke test of WellFormed,
and a witness for the hypotheses of every obligation that has some. -/

namespace Sys2Proof.Tests

set_option Elab.async false

open Sys2Proof.Machine

/-! ### WellFormed refuses what R96 refuses, and the decoder with it -/

theorem test_wellformed_refuses_nbits_0 : (Instr.decBits 0 0xFFFF).wellFormed = false := by decide

theorem test_wellformed_refuses_nbits_17 : (Instr.decBits 17 0).wellFormed = false := by decide

theorem test_wellformed_accepts_1_and_16 :
    (Instr.decBits 1 0).wellFormed = true ∧ (Instr.decBits 16 0).wellFormed = true := by decide

/-! ### Decoding: words written out bit by bit from the formats of R92 and the opcodes of R94 -/

theorem test_decode_clear : decode 0b0000_0000000000000000000000000000 = .ok .clear := by decide

theorem test_decode_count : decode 0b0001_00000000000000000000_01100001 = .ok (.count 0x61) := by decide

theorem test_decode_build : decode 0b0010_0000000000000000000000000000 = .ok .build := by decide

theorem test_decode_encStart : decode 0b0011_0000000000000000000000000000 = .ok .encStart := by decide

theorem test_decode_encSym : decode 0b0100_00000000000000000000_01111010 = .ok (.encSym 0x7A) := by decide

theorem test_decode_encEnd : decode 0b0101_0000000000000000000000000000 = .ok .encEnd := by decide

theorem test_decode_decStart : decode 0b0110_0000000000000000000000000000 = .ok .decStart := by decide

theorem test_decode_decBits : decode 0b0111_0000000_01011_1010000111100000 = .ok (.decBits 11 0xA1E0) := by decide

theorem test_decode_decEnd : decode 0b1000_0000000000000000000000000000 = .ok .decEnd := by decide

theorem test_decode_queryFreq : decode 0b1001_00000000000000000000_01100010 = .ok (.queryFreq 0x62) := by decide

theorem test_decode_queryNode : decode 0b1010_0000000000000000000_111111111 = .ok (.queryNode 511) := by decide

/-- Vectors X1, X2: the reserved opcodes. -/
theorem test_decode_reserved_opcodes :
    [0xB0000000, 0xC0000000, 0xD0000000, 0xE0000000, 0xF0000000].map decode =
      List.replicate 5 (.error .reservedOpcode) := by decide

/-- Vectors B17 to B19, D8c, Q6: a reserved bit of the format is set. -/
theorem test_decode_reserved_bits :
    [0x00000001, 0x10000100, 0x20000001, 0x70210000, 0xA0000200, 0x90000100].map decode =
      List.replicate 6 (.error .reservedBits) := by decide

/-- Vectors D8a, D8b: NBITS of 0 and of 17. -/
theorem test_decode_bad_chunk_lengths :
    [0x70000000, 0x70110000].map decode = List.replicate 2 (.error .badChunkLength) := by decide

theorem test_decodeTableWord : decodeTableWord 32 0x40000061 = some (.encSym 0x61) := by decide

/-! ### Small states -/

/-- The state an outcome leads to, none where the machine stops. -/
def nextOf : Host.Outcome State Fault Refusal → Option State
  | .next t => some t
  | .fault _ => none
  | .refused _ => none

/-- What a view of the next state is, none where the command stops. -/
def view {α : Type} (f : State → α) (i : Instr) (s : State) : Option α := (nextOf (exec i s)).map f

/-- What a view of the state after one step is. -/
def stepView {α : Type} (f : State → α) (s : State) : Option α := (nextOf (step s)).map f

/-- After COUNT of "aabbbcc" (vector B1). -/
def counted3 : State :=
  { State.reset with freq := setFreq (setFreq (setFreq State.reset.freq 0x61 2) 0x62 3) 0x63 2, total := 7 }

/-- The tree of vector B1: its nodes are written out from the vector, not computed. -/
def built3 : State :=
  { counted3 with
    phase := .built, nleaf := 3, root := 4
    node := [⟨true, 0x61, 2, 0, 0⟩, ⟨true, 0x62, 3, 0, 0⟩, ⟨true, 0x63, 2, 0, 0⟩, ⟨false, 0, 4, 0, 2⟩, ⟨false, 0, 7, 1, 3⟩] }

/-- Both sessions open on that tree (vectors E2 and D0). -/
def open3 : State := { built3 with encState := .active, decState := .active, decCursor := 4 }

/-- In the middle of both sessions: after E3, and after the first command of D4. -/
def midway3 : State :=
  { open3 with encAcc := 0x80000000, encAccn := 2, encBitcnt := 2, decCursor := 3, decPos := 1 }

/-- Both FIFOs full. -/
def full3 : State :=
  { midway3 with encFifo := List.replicate 16 0xAAAAAAAA, decFifo := List.replicate 32 0x61 }

/-- Both sessions FAILED (after E5 and after D2's DEC_END, with the position of `midway3`). -/
def failed3 : State :=
  { midway3 with
    encState := .failed, encErr := .unknownSymbol, decState := .failed, decErr := .truncatedEncoding, errInfo := 1 }

/-- The tree of "aaaa" (vector B4), both sessions open. -/
def open1 : State :=
  { State.reset with
    freq := setFreq State.reset.freq 0x61 4, total := 4, phase := .built, nleaf := 1, root := 0
    node := [⟨true, 0x61, 4, 0, 0⟩], encState := .active, decState := .active }

/-- The empty tree (vector B3), both sessions open. -/
def open0 : State := { State.reset with phase := .built, encState := .active, decState := .active }

/-- A command latched, and the device's turn. -/
def latched (i : Instr) (s : State) : State := { s with pending := some (encode i), events := [.complete] }

/-! ### The trees of the small states, computed once -/

theorem present3 : presentSymbols counted3.freq = [0x61, 0x62, 0x63] := by rw [presentSymbols_eq_zip]; decide +kernel

theorem present1 : presentSymbols open1.freq = [0x61] := by rw [presentSymbols_eq_zip]; decide +kernel

theorem present0 : presentSymbols open0.freq = [] := by rw [presentSymbols_eq_zip]; decide +kernel

theorem leafCount3 : leafCount counted3.freq = 3 := by unfold leafCount; rw [present3]; rfl

/-- The tree of vector B1, node by node. -/
theorem nodes3 : buildNodes counted3.params counted3.freq = built3.node := by
  unfold buildNodes seedLeaves
  rw [present3]
  decide +kernel

theorem root3 : buildRoot counted3.params counted3.freq = 4 := by
  unfold buildRoot
  rw [leafCount3, nodes3]
  decide

/-- The codes of vector B1: a `10`, b `0`, c `11`. -/
theorem codes3 : [0x61, 0x62, 0x63].map (codeOf built3) = [some [true, false], some [false], some [true, true]] := by
  unfold codeOf leafIdx
  rw [show built3.freq = counted3.freq from rfl, present3]
  decide

/-- The same codes in any state with that table and that tree. -/
theorem codes3_of {s : State} (hf : s.freq = built3.freq) (hn : s.node = built3.node) (hl : s.nleaf = 3) (hr : s.root = 4) :
    codeOf s 0x61 = some [true, false] ∧ codeOf s 0x62 = some [false] ∧ codeOf s 0x63 = some [true, true] := by
  have h := codes3
  simp only [List.map_cons, List.map_nil, List.cons.injEq, and_true] at h
  simpa [codeOf, hf, hn, hl, hr, built3] using h

/-! ### One command at a time -/

/-- B2, B16. -/
theorem test_clear : view (fun t => (t.phase, t.total, freqAt t.freq 0x62, t.node, t.result)) .clear built3 =
    some (.count, 0, 0, [], .ok) := by decide +kernel

/-- M6: CLEAR keeps OVERRUN. -/
theorem test_clear_keeps_overrun : view State.overrun .clear { built3 with overrun := true } = some true := by
  decide +kernel

/-- B12. -/
theorem test_count : view (fun t => (freqAt t.freq 0x61, freqAt t.freq 0x62, t.total)) (.count 0x62) counted3 =
    some (2, 4, 8) := by decide +kernel

/-- B13: MAX_TOTAL of FREQ_W = 2. -/
theorem test_count_overflow :
    view (fun t => (t.result, t.total))
      (.count 0x61) { State.reset with params := { Params.default with freqW := 2 }, total := 3 } =
    some (.freqOverflow, 3) := by decide +kernel

/-- B1: the tree of "aabbbcc", node by node. -/
theorem test_build : view (fun t => (t.node, t.nleaf, t.root, t.phase)) .build counted3 =
    some (built3.node, 3, 4, .built) := by
  have h : exec .build counted3 = .next (counted3.builtTree.withResult .ok) := by
    unfold exec execBuild
    exact if_neg (by decide)
  simp only [view, h, nextOf, Option.map_some, State.withResult, State.builtTree, nodes3, leafCount3, root3]
  decide

/-- B9: the tie of an internal node and a leaf is broken by index. -/
theorem test_build_ties (f : Vector Count 256)
    (h : seedLeaves f =
      [⟨true, 0x61, 1, 0, 0⟩, ⟨true, 0x62, 2, 0, 0⟩, ⟨true, 0x63, 3, 0, 0⟩, ⟨true, 0x64, 5, 0, 0⟩]) :
    (buildNodes Params.default f).drop 4 = [⟨false, 0, 3, 0, 1⟩, ⟨false, 0, 6, 2, 4⟩, ⟨false, 0, 11, 3, 5⟩] := by
  unfold buildNodes
  rw [h]
  decide +kernel

/-- E18: ENC_START discards the unread word. -/
theorem test_encStart : view (fun t => (t.encFifo, statusWord t)) .encStart { built3 with encFifo := [0xA1E00000] } =
    some ([], 0x00000006) := by decide +kernel

/-- E11. -/
theorem test_encStart_no_tree : view statusWord .encStart State.reset = some 0x00000600 := by decide +kernel

/-- E3. -/
theorem test_encSym : view (fun t => (t.encAcc, t.encAccn, t.encBitcnt, t.encFifo)) (.encSym 0x61) open3 =
    some (0x80000000, 2, 2, []) := by
  unfold view exec execEncSym
  simp only [(codes3_of (s := open3) rfl rfl rfl rfl).1]
  decide +kernel

/-- E5. -/
theorem test_encSym_unknown : view (fun t => (t.encErr, t.errInfo, t.encAcc)) (.encSym 0x7A) midway3 =
    some (.unknownSymbol, 0x7A, 0x80000000) := by decide +kernel

/-- E1's end: the partial word is pushed. -/
theorem test_encEnd :
    view (fun t => (t.encFifo, t.encAccn, t.encState)) .encEnd
      { open3 with encAcc := 0xA1E00000, encAccn := 11, encBitcnt := 11 } = some ([0xA1E00000], 0, .idle) := by
  decide +kernel

/-- E14: no room for the partial word. -/
theorem test_encEnd_full : view (fun t => (t.result, t.encState)) .encEnd full3 = some (.outputFull, .active) := by
  decide +kernel

/-- D0. -/
theorem test_decStart : view (fun t => (t.decCursor, t.decPos, statusWord t)) .decStart built3 =
    some (4, 0, 0x00000012) := by decide +kernel

/-- D3b: ERR_INFO is kept. -/
theorem test_decStart_keeps_errInfo : view (fun t => (t.errInfo, t.decErr)) .decStart failed3 = some (1, .ok) := by
  decide +kernel

/-- D1. -/
theorem test_decBits : view (fun t => (t.decFifo, t.decPos, t.decCursor)) (.decBits 11 0xA1E0) open3 =
    some ([0x61, 0x61, 0x62, 0x62, 0x62, 0x63, 0x63], 11, 4) := by decide +kernel

/-- D5b: the first bit emits, the second fails, the third is discarded. -/
theorem test_decBits_malformed :
    view (fun t => (t.decFifo, t.decPos, t.errInfo, t.decErr)) (.decBits 3 0x4000)
      { open1 with decPos := 4, decFifo := List.replicate 4 0x61 } =
    some (List.replicate 5 0x61, 5, 5, .malformedEncoding) := by decide +kernel

/-- D1's end. -/
theorem test_decEnd : view (fun t => (t.decState, t.result)) .decEnd open3 = some (.idle, .ok) := by decide +kernel

/-- D2's end. -/
theorem test_decEnd_truncated :
    view (fun t => (t.decState, t.decErr, t.errInfo)) .decEnd { open3 with decCursor := 3, decPos := 10 } =
    some (.failed, .truncatedEncoding, 10) := by decide +kernel

/-- Q3. -/
theorem test_queryFreq : view (fun t => (t.rdata0, t.rdata1)) (.queryFreq 0x62) { built3 with rdata1 := 5 } =
    some (3, 0) := by decide +kernel

/-- Q1. -/
theorem test_queryNode : view (fun t => (t.rdata0, t.rdata1)) (.queryNode 4) built3 = some (7, 0x00060100) := by
  decide +kernel

/-- Q2. -/
theorem test_queryNode_bad : view (fun t => (t.result, t.rdata0)) (.queryNode 5) built3 = some (.badIndex, 0) := by
  decide +kernel

/-! ### The host port -/

/-- M3, first access: the word is latched. -/
theorem test_write_cmd :
    stepView (fun t => (t.pending, t.busy, t.total)) { State.reset with events := [.write 0x0C 4 0x10000061] } =
    some (some 0x10000061, true, 0) := by decide +kernel

/-- M4: the second write is dropped and OVERRUN is set. -/
theorem test_write_cmd_busy :
    stepView (fun t => (t.pending, t.overrun))
      { State.reset with pending := some 0x10000061, events := [.write 0x0C 4 0x10000062] } =
    some (some 0x10000061, true) := by decide +kernel

/-- M5: the latched COUNT runs, the dropped one does not. -/
theorem test_complete :
    stepView (fun t => (freqAt t.freq 0x61, freqAt t.freq 0x62, t.total, statusWord t))
      { State.reset with pending := some 0x10000061, overrun := true, events := [.complete] } =
    some (1, 0, 1, 0x00000040) := by decide +kernel

/-- D14: the read pops the head and says VALID. -/
theorem test_read_decData :
    stepView (fun t => (t.reads, t.decFifo)) { built3 with decFifo := [0x62, 0x63], events := [.read 0x2C 4] } =
    some ([0x80000062], [0x63]) := by decide +kernel

/-- M2. -/
theorem test_config_depths :
    (configWord ⟨2, 8, 64, 0, #v[0, 1, 2, 3]⟩, depthsWord ⟨2, 8, 64, 0, #v[0, 1, 2, 3]⟩) = (0x00200208, 0x00400008) := by
  decide

/-- R62, R63: what the model refuses. -/
theorem test_refused_accesses :
    step { State.reset with events := [.read 0x10 1] } = .refused .accessWidth ∧
      step { State.reset with events := [.read 0x12 4] } = .refused .misaligned ∧
      step { State.reset with events := [.write 0x40 4 0] } = .refused .outsideWindow := ⟨rfl, rfl, rfl⟩

/-- A placed word runs as the very first instruction after reset. -/
theorem test_withFetchWord :
    stepView (fun t => (t.phase, t.busy, t.result)) (State.reset.withFetchWord 32 0x20000000) = some (.built, false, .ok) := by
  decide +kernel

/-! ### The end of a run (R274) -/

/-- The run of one command ends when it completes: a reset listed after it belongs to no run. -/
theorem test_run_ends_before_reset :
    (observedRun 9 { State.reset with events := [.write 0x0C 4 0x10000061, .complete, .read 0x1C 4, .reset] }).map
      (fun o => (o.reads, o.device.total, o.device.busy)) = some ([1], 1, false) := by decide +kernel

/-- A run whose last command stays latched is not over. -/
theorem test_latched_run_is_not_over :
    observedRun 1 { State.reset with events := [.write 0x0C 4 0x10000061] } = none := by decide +kernel

/-! ### Witnesses: concrete states and operands that meet the hypotheses of the obligations -/

open Sys2Proof.Statements

theorem counts3 : CountsInv counted3 := ⟨by decide +kernel, by decide⟩

theorem tree3 : TreeInv built3 :=
  ⟨fun h => (by cases h), fun _ => ⟨nodes3.symm, congrArg (BitVec.ofNat 9) leafCount3.symm, root3.symm⟩⟩

theorem witness_inv_counted3 : Inv counted3 :=
  ⟨by decide, counts3, ⟨fun _ => ⟨rfl, rfl, rfl⟩, fun h => (by cases h)⟩, fun _ => ⟨rfl, rfl, rfl, rfl⟩, by decide, by decide⟩

theorem witness_inv_built3 : Inv built3 := ⟨by decide, counts3, tree3, fun h => (by cases h), by decide, by decide⟩

theorem witness_inv_open3 : Inv open3 := ⟨by decide, counts3, tree3, fun h => (by cases h), by decide, by decide⟩

theorem witness_inv_midway3 : Inv midway3 := ⟨by decide, counts3, tree3, fun h => (by cases h), by decide, by decide⟩

theorem witness_inv_full3 : Inv full3 := ⟨by decide, counts3, tree3, fun h => (by cases h), by decide, by decide⟩

theorem witness_inv_failed3 : Inv failed3 := ⟨by decide, counts3, tree3, fun h => (by cases h), by decide, by decide⟩

theorem witness_inv_open1 : Inv open1 := by
  have hn : buildNodes open1.params open1.freq = open1.node := by
    unfold buildNodes seedLeaves
    rw [present1]
    decide +kernel
  have hl : leafCount open1.freq = 1 := by unfold leafCount; rw [present1]; rfl
  have hr : buildRoot open1.params open1.freq = 0 := by unfold buildRoot; rw [hl]; rfl
  exact ⟨by decide, ⟨by decide +kernel, by decide⟩,
    ⟨fun h => (by cases h), fun _ => ⟨hn.symm, congrArg (BitVec.ofNat 9) hl.symm, hr.symm⟩⟩, fun h => (by cases h),
    by decide, by decide⟩

theorem witness_inv_open0 : Inv open0 := by
  have hl : leafCount open0.freq = 0 := by unfold leafCount; rw [present0]; rfl
  have hn : buildNodes open0.params open0.freq = [] := buildNodes_empty _ _ hl
  have hr : buildRoot open0.params open0.freq = 0 := by unfold buildRoot; rw [hl]; rfl
  exact ⟨by decide, ⟨by decide +kernel, by decide⟩,
    ⟨fun h => (by cases h), fun _ => ⟨hn.symm, congrArg (BitVec.ofNat 9) hl.symm, hr.symm⟩⟩, fun h => (by cases h),
    by decide, by decide⟩

theorem witness_DecodeOfEncodeIsTheCommand :
    (Instr.decBits 1 0xFFFF).wellFormed = true ∧ (Instr.decBits 16 0).wellFormed = true := by decide

theorem witness_EncodeOfDecodeIsTheWord :
    decode 0x7010FFFF = .ok (.decBits 16 0xFFFF) ∧ decode 0xA00001FF = .ok (.queryNode 511) := by decide

/-- A word with each side of the equivalence true, and one with each side false. -/
theorem witness_LegalWordsAreThoseOfTheOpcodeMap :
    decode 0x70100000 = .ok (.decBits 16 0) ∧ opcodeMap[((0x70100000 : Word).extractLsb' 28 4).toNat]? =
      some (0x70000000, 0xFFE00000) ∧ decode 0x70110000 = .error .badChunkLength := by decide

theorem witness_IllegalWordsAreRejected :
    0xB ≤ ((0xB0000000 : Word).extractLsb' 28 4).toNat ∧ 0xB ≤ ((0xFFFFFFFF : Word).extractLsb' 28 4).toNat ∧
    (opcodeMap[((0x10000100 : Word).extractLsb' 28 4).toNat]? = some (0x10000000, 0xFFFFFF00) ∧
      (0x10000100 : Word) &&& (0xFFFFFF00 &&& 0x0FFFFFFF) ≠ 0) ∧
    (((0x7000FFFF : Word).extractLsb' 28 4).toNat = 0x7 ∧ ((0x7000FFFF : Word).extractLsb' 16 5).toNat = 0) ∧
    ((0x70110000 : Word).extractLsb' 28 4).toNat = 0x7 ∧ 17 ≤ ((0x70110000 : Word).extractLsb' 16 5).toNat := by decide

theorem witness_BitsBelowTheChunkAreIgnored :
    ∀ k, k < (1 : BitVec 5).toNat → (0xFFFF : BitVec 16).getLsbD (15 - k) = (0x8000 : BitVec 16).getLsbD (15 - k) := by
  decide

/-- The device's turn with a command that runs, with an illegal word, with a command that faults (a node store emptied by
hand), with no command latched; and no event left. -/
theorem witness_StepExecutesTheLatchedCommand :
    let s := latched (.queryFreq 0x62) built3
    s.params.Legal ∧ s.pending = some 0x90000062 ∧ decode 0x90000062 = .ok (.queryFreq 0x62) ∧
      s.events = .complete :: [] ∧ (nextOf (execute 0x90000062 { s with events := [] })).isSome = true ∧
      (let x : State := { built3 with pending := some 0xB0000000 }
       x.params.Legal ∧ x.events = [] ∧ x.pending = some 0xB0000000 ∧ decode 0xB0000000 = .error .reservedOpcode) ∧
      execute 0x70010000 { open1 with node := [], events := [] } = .fault .undefinedNode ∧
      (let x : State := { built3 with events := [.complete] }
       x.params.Legal ∧ x.events = .complete :: [] ∧ x.pending = none) :=
  ⟨by decide, by decide, by decide, rfl, rfl, ⟨by decide, rfl, rfl, rfl⟩, rfl, by decide, rfl, rfl⟩

theorem witness_PlacedWordIsExecutedNext :
    State.reset.params.Legal ∧ decode 0x10000061 = .ok (.count 0x61) ∧
      (nextOf (exec (.count 0x61) { State.reset with pending := some 0x10000061 })).isSome = true :=
  ⟨by decide, by decide, by decide +kernel⟩

theorem witness_CmdWriteLatchesTheWord :
    let s : State := { built3 with events := [.write 0x0C 4 0xFFFFFFFF] }
    s.params.Legal ∧ s.busy = false ∧ s.events = .write 0x0C 4 0xFFFFFFFF :: [] := ⟨by decide, rfl, rfl⟩

theorem witness_CmdWriteWhileBusyIsDropped :
    let s : State := { latched .clear built3 with events := [.write 0x0C 4 0] }
    s.params.Legal ∧ s.busy = true ∧ s.events = .write 0x0C 4 0 :: [] := ⟨by decide, rfl, rfl⟩

theorem witness_OtherWritesChangeNothing :
    let s : Nat → State := fun off => { built3 with events := [.write off 4 0xFFFFFFFF] }
    ∀ off ∈ [0x00, 0x08, 0x10, 0x3C],
      (s off).params.Legal ∧ off < 0x40 ∧ off % 4 = 0 ∧ off ≠ 0x0C ∧ (s off).events = .write off 4 0xFFFFFFFF :: [] := by
  intro s off h
  fin_cases h <;> exact ⟨by decide, by decide, by decide, by decide, rfl⟩

/-- Every offset, with both FIFOs empty and with both full. -/
theorem witness_ReadsWhileIdleReturnTheRegisters :
    let s : Nat → State := fun off => { built3 with events := [.read off 4] }
    let f : Nat → State := fun off => { full3 with events := [.read off 4] }
    ∀ off : Nat, (s off).params.Legal ∧ (s off).busy = false ∧ (s off).events = .read off 4 :: [] ∧ (s off).encFifo = [] ∧
      (s off).decFifo = [] ∧ (f off).params.Legal ∧ (f off).busy = false ∧ (f off).events = .read off 4 :: [] ∧
      (f off).encFifo = 0xAAAAAAAA :: List.replicate 15 0xAAAAAAAA ∧ (f off).decFifo = 0x61 :: List.replicate 31 0x61 := by
  have hl : Params.default.Legal := by decide
  intro s f off
  exact ⟨hl, rfl, rfl, rfl, rfl, hl, rfl, rfl, rfl, rfl⟩

theorem witness_ReadsWhileBusyChangeNothing :
    let s : Nat → State := fun off => { latched .clear built3 with events := [.read off 4] }
    ∀ off ∈ [0x00, 0x04, 0x08, 0x0C, 0x10, 0x3C],
      (s off).params.Legal ∧ (s off).busy = true ∧ off < 0x40 ∧ off % 4 = 0 ∧ (s off).events = .read off 4 :: [] := by
  intro s off h
  fin_cases h <;> exact ⟨by decide, rfl, by decide, by decide, rfl⟩

/-- The boundary values of the parameters, and an access of each kind. -/
theorem witness_RefusalsAreExactlyThoseOfTheSpec :
    Params.Legal ⟨1, 8, 16, 0, #v[0, 1, 2, 3]⟩ ∧ Params.Legal ⟨32, 65535, 65535, 0, #v[0, 1, 2, 3]⟩ ∧
    (∀ p ∈ [(0, 8, 16), (33, 8, 16), (1, 7, 16), (1, 65536, 16), (1, 8, 15), (1, 8, 65536)],
      ¬Params.Legal ⟨p.1, p.2.1, p.2.2, 0, #v[0, 1, 2, 3]⟩) ∧
    (∀ e ∈ [Event.read 0 2, .read 1 4, .read 0x40 4, .write 0x0C 8 0, .write 0x0E 4 0, .write 0x44 4 0], e.Refused) ∧
    ¬(Event.read 0x3C 4).Refused := by
  refine ⟨by decide, by decide, ?_, ?_, by simp [Event.Refused]⟩
  · intro p h
    fin_cases h <;> decide
  · intro e h
    fin_cases h <;> simp [Event.Refused]

theorem witness_LatchedCommandCompletesInOneStep :
    Inv (latched (.encSym 0x61) open3) ∧ (latched (.encSym 0x61) open3).busy = true ∧
      (latched (.encSym 0x61) open3).events = .complete :: [] ∧
      Inv { latched (.encSym 0x61) open3 with events := [] } := ⟨witness_inv_open3, rfl, rfl, witness_inv_open3⟩

theorem witness_OverrunIsSticky :
    stepView State.overrun { built3 with overrun := true, events := [.reset] } = some false ∧
      stepView State.overrun { latched .clear built3 with events := [.write 0x0C 4 0] } = some true ∧
      (latched .clear built3).overrun = false := ⟨by decide, by decide, rfl⟩

theorem witness_ResetInputGivesTheResetState :
    ({ midway3 with events := [.reset] } : State).params.Legal ∧
      ({ midway3 with events := [.reset] } : State).events = .reset :: [] := ⟨by decide, rfl⟩

theorem witness_EveryStepKeepsTheInvariant :
    Inv (latched (.queryFreq 0x62) open3) ∧ (nextOf (step (latched (.queryFreq 0x62) open3))).isSome = true :=
  ⟨witness_inv_open3, rfl⟩

theorem witness_NoStepFaultsUnderTheInvariant : Inv (latched (.decBits 16 0xA1E0) midway3) := witness_inv_midway3

/-- The first and the last reject code. -/
theorem witness_RejectedCommandsChangeOnlyResult :
    (nextOf (execute 0xB0000000 built3)).map (fun t => codeNumber t.result) = some 5 ∧
      (nextOf (execute 0xA0000005 built3)).map (fun t => codeNumber t.result) = some 10 := by decide

/-- One failing command for each of the codes 1 to 4. -/
theorem witness_FailedCommandsRecordTheFailure :
    (nextOf (execute 0x4000007A open3)).map (fun t => codeNumber t.result) = some 1 ∧
      (nextOf (execute 0x70018000 open1)).map (fun t => codeNumber t.result) = some 2 ∧
      (nextOf (execute 0x80000000 midway3)).map (fun t => codeNumber t.result) = some 3 ∧
      (nextOf (execute 0x70010000 open0)).map (fun t => codeNumber t.result) = some 4 := by decide +kernel

theorem witness_FailedSessionsRejectTheirCommands :
    failed3.phase = .built ∧ failed3.encState = .failed ∧ failed3.decState = .failed ∧ 1 ≤ (1 : BitVec 5).toNat ∧
      (16 : BitVec 5).toNat ≤ 16 := ⟨rfl, rfl, rfl, by decide, by decide⟩

theorem witness_FailedIsLeftOnlyByStartClearOrReset :
    failed3.encState = .failed ∧ failed3.decState = .failed ∧
      stepView State.encState (latched .encStart failed3) = some .active ∧
      stepView State.decState (latched .decStart failed3) = some .active ∧
      stepView State.decState (latched .clear failed3) = some .idle := ⟨rfl, rfl, by decide, by decide, by decide⟩

theorem witness_PhaseMovesOnlyByBuildClearOrReset :
    stepView State.phase (latched .build counted3) = some .built ∧ stepView State.phase (latched .clear built3) = some .count ∧
      counted3.phase = .count ∧ built3.phase = .built := ⟨by decide +kernel, by decide, rfl, rfl⟩

theorem witness_FrequencyTableIsWrittenOnlyByCountClearReset :
    stepView State.total (latched (.count 0x61) counted3) = some 8 ∧ counted3.total ≠ 8 := by decide +kernel

theorem witness_CodecCommandsNeverWriteTheTree :
    view State.result .encStart built3 = some .ok ∧ view State.result (.encSym 0x61) open1 = some .ok ∧
      view State.result .encEnd midway3 = some .ok ∧ view State.result .decStart built3 = some .ok ∧
      view State.result (.decBits 16 0xA1E0) open3 = some .ok ∧ view State.result .decEnd open3 = some .ok := by
  decide +kernel

theorem witness_SessionsDoNotInteract :
    view State.result (.encSym 0x61) open1 = some .ok ∧ view State.result (.decBits 1 0x8000) open1 = some .malformedEncoding := by
  decide +kernel

theorem witness_RdataIsWrittenOnlyByQueriesClearReset :
    stepView (fun t => (t.rdata0, t.result)) (latched (.queryFreq 0x62) built3) = some (3, .ok) ∧ built3.rdata0 ≠ 3 ∧
      stepView (fun t => (t.rdata1, t.result)) (latched (.queryNode 3) built3) = some (0x00040000, .ok) := by
  decide +kernel

theorem witness_ErrInfoIsWrittenOnlyByFailClearReset :
    stepView State.errInfo (latched (.encSym 0x7A) open3) = some 0x7A ∧ open3.errInfo ≠ 0x7A := by decide +kernel

/-- Both phases; TOTAL at MAX_TOTAL for the narrowest and the widest counter; one below it. -/
theorem witness_CountCommand :
    built3.phase = .built ∧
    (let s : State := { State.reset with params := { Params.default with freqW := 1 }, total := 1 }
     s.phase = .count ∧ s.total.toNat = 2 ^ s.params.freqW - 1) ∧
    (let s : State := { State.reset with total := 0xFFFFFFFF }
     s.phase = .count ∧ s.total.toNat = 2 ^ s.params.freqW - 1) ∧
    (let s : State := { State.reset with params := { Params.default with freqW := 1 } }
     s.params.Legal ∧ CountsInv s ∧ s.phase = .count ∧ s.total.toNat ≠ 2 ^ s.params.freqW - 1) :=
  ⟨rfl, by decide, by decide, by decide, ⟨by decide +kernel, by decide⟩, rfl, by decide⟩

theorem witness_OrderOfCountsDoesNotMatter :
    ([0x61, 0x62, 0x61] : List Sym).Perm [0x62, 0x61, 0x61] ∧ counted3.phase = .count ∧
      ({ counted3 with rdata0 := 1 } : State).phase = .count ∧ counted3.params = { counted3 with rdata0 := 1 }.params ∧
      counted3.freq = { counted3 with rdata0 := 1 }.freq := ⟨by decide, rfl, rfl, rfl, rfl⟩

theorem witness_BuildCommand : built3.phase = .built ∧ counted3.phase = .count ∧ State.reset.phase = .count := by decide

theorem witness_LeavesStandInSymbolOrder :
    counted3.phase = .count ∧ (nextOf (exec .build counted3)).isSome = true ∧ freqAt counted3.freq 0x63 ≠ 0 :=
  ⟨rfl, by decide +kernel, by decide +kernel⟩

/-- Both internal nodes of B1's tree; node 1 is a third member when node 3 is made. -/
theorem witness_InternalNodesMergeTheTwoSmallest :
    Inv built3 ∧ built3.phase = .built ∧ built3.nleaf.toNat ≤ 3 ∧ built3.node[3]? = some ⟨false, 0, 4, 0, 2⟩ ∧
      built3.node[4]? = some ⟨false, 0, 7, 1, 3⟩ ∧ (1 < 3 ∧ 1 ≠ 0 ∧ 1 ≠ 2 ∧ Parentless built3.node 3 1) := by
  refine ⟨witness_inv_built3, rfl, by decide, rfl, rfl, by decide, by decide, by decide, ?_⟩
  intro k nd hk h hl
  interval_cases k <;> simp only [built3, List.getElem?_cons_zero, List.getElem?_cons_succ, Option.some.injEq] at h <;>
    subst h <;> cases hl

theorem witness_ExtractMinTakesTheSmallestKey :
    extractMin [⟨3, 1⟩, ⟨2, 2⟩, ⟨2, 0⟩] = some (⟨2, 0⟩, [⟨3, 1⟩, ⟨2, 2⟩]) ∧ ([⟨2, 0⟩] : List Item) ≠ [] := by decide

theorem witness_BuiltTreeMeetsTheSourcesInvariants :
    Inv built3 ∧ built3.phase = .built ∧ Inv open0 ∧ open0.phase = .built ∧
      (∃ nd ∈ built3.node, nd.leaf = false) ∧ ∃ nd ∈ built3.node, nd.leaf = true :=
  ⟨witness_inv_built3, rfl, witness_inv_open0, rfl, by decide, by decide⟩

theorem witness_RootFrequencyIsTheTotal :
    Inv built3 ∧ built3.phase = .built ∧ built3.nleaf ≠ 0 ∧ Inv open1 ∧ open1.nleaf ≠ 0 :=
  ⟨witness_inv_built3, rfl, by decide, witness_inv_open1, by decide⟩

theorem witness_EveryCountedSymbolHasExactlyOnePath :
    Inv built3 ∧ built3.phase = .built ∧ freqAt built3.freq 0x61 ≠ 0 ∧
      walk built3.node [true, false] built3.root = some 0 ∧ built3.node[(0 : NodeIdx).toNat]? = some ⟨true, 0x61, 2, 0, 0⟩ :=
  ⟨witness_inv_built3, rfl, by decide +kernel, by decide, rfl⟩

theorem witness_CodesArePrefixFree :
    Inv built3 ∧ built3.phase = .built ∧ 2 ≤ built3.nleaf.toNat ∧ freqAt built3.freq 0x61 ≠ 0 ∧
      freqAt built3.freq 0x63 ≠ 0 ∧ (0x61 : Sym) ≠ 0x63 ∧ codeOf built3 0x61 = some [true, false] ∧
      codeOf built3 0x63 = some [true, true] :=
  ⟨witness_inv_built3, rfl, by decide, by decide +kernel, by decide +kernel, by decide,
    (codes3_of (s := built3) rfl rfl rfl rfl).1, (codes3_of (s := built3) rfl rfl rfl rfl).2.2⟩

theorem witness_CodesAreThePathsAndTheirLengthsAreBounded :
    (Inv built3 ∧ built3.phase = .built ∧ freqAt built3.freq 0x61 ≠ 0 ∧ 2 ≤ built3.nleaf.toNat) ∧
      Inv open1 ∧ open1.phase = .built ∧ freqAt open1.freq 0x61 ≠ 0 ∧ open1.nleaf = 1 :=
  ⟨⟨witness_inv_built3, rfl, by decide +kernel, by decide⟩, witness_inv_open1, rfl, by decide +kernel, rfl⟩

theorem witness_EncStartCommand : counted3.phase = .count ∧ failed3.phase = .built := by decide

/-- A full FIFO and a code that completes no word: the room is exactly enough. -/
theorem witness_EncSymAppendsTheCode :
    full3.phase = .built ∧ full3.encState = .active ∧ freqAt full3.freq 0x61 ≠ 0 ∧ codeOf full3 0x61 = some [true, false] ∧
      (full3.encAccn.toNat + 2) / 32 ≤ full3.params.encDepth - full3.encFifo.length :=
  ⟨rfl, rfl, by decide +kernel, (codes3_of (s := full3) rfl rfl rfl rfl).1, by decide⟩

theorem witness_EncSymRejectsAndFails :
    counted3.phase = .count ∧ (built3.phase = .built ∧ built3.encState = .idle) ∧ failed3.encState = .failed ∧
      (open3.encState = .active ∧ freqAt open3.freq 0x7A = 0) ∧
      (let s : State := { full3 with encAccn := 30 }
       s.phase = .built ∧ s.encState = .active ∧ freqAt s.freq 0x61 ≠ 0 ∧ codeOf s 0x61 = some [true, false] ∧
         s.params.encDepth - s.encFifo.length < (s.encAccn.toNat + 2) / 32) :=
  ⟨rfl, ⟨rfl, rfl⟩, rfl, ⟨rfl, by decide +kernel⟩, rfl, rfl, by decide +kernel,
    (codes3_of (s := { full3 with encAccn := 30 }) rfl rfl rfl rfl).1, by decide⟩

theorem witness_EncSymIntoAnEmptyFifoHasRoom :
    Inv open3 ∧ open3.phase = .built ∧ open3.encState = .active ∧ freqAt open3.freq 0x61 ≠ 0 ∧ open3.encFifo = [] ∧
      codeOf open3 0x61 = some [true, false] :=
  ⟨witness_inv_open3, rfl, rfl, by decide +kernel, rfl, (codes3_of (s := open3) rfl rfl rfl rfl).1⟩

theorem witness_EncEndCommand :
    counted3.phase = .count ∧ (built3.phase = .built ∧ built3.encState = .idle) ∧ failed3.encState = .failed ∧
      (full3.encState = .active ∧ full3.encAccn ≠ 0 ∧ full3.params.encDepth - full3.encFifo.length < 1) ∧
      (open3.encState = .active ∧ open3.encAccn = 0) ∧
      (Inv midway3 ∧ midway3.encState = .active ∧ midway3.encAccn ≠ 0 ∧
        1 ≤ midway3.params.encDepth - midway3.encFifo.length) :=
  ⟨rfl, ⟨rfl, rfl⟩, rfl, ⟨rfl, by decide, by decide⟩, ⟨rfl, rfl⟩, witness_inv_midway3, rfl, by decide, by decide⟩

/-- 33 symbols in the one-leaf tree, the host reading the first word before ENC_END, and the partial word's flush. -/
theorem witness_EncoderOutputLaw :
    let run := runReadingWords ((0, .encStart) :: (List.replicate 33 ((0, 0x61) : Nat × Sym)).map fun c => (c.1, .encSym c.2)) open1
    run.map (fun r => (r.1.all (· = .ok), r.2.1)) = some (true, []) ∧
      (run.bind fun r => runReadingWords [(1, .encEnd)] r.2.2).map (fun r => (r.1, r.2.1, r.2.2.encFifo)) =
        some ([.ok], [0], [0]) := by decide +kernel

theorem witness_EmptyTreeSessions :
    Inv open0 ∧ open0.phase = .built ∧ open0.nleaf = 0 ∧ open0.encState = .active ∧ open0.decState = .active :=
  ⟨witness_inv_open0, rfl, rfl, rfl, rfl⟩

theorem witness_DecStartCommand : counted3.phase = .count ∧ failed3.phase = .built := by decide

/-- The shortest chunk in the middle of a code, and the longest with exactly its room. -/
theorem witness_DecBitsIsTheSourcesWalk :
    (Inv midway3 ∧ midway3.phase = .built ∧ midway3.decState = .active ∧ 2 ≤ midway3.nleaf.toNat ∧
      (1 : BitVec 5).toNat ≤ midway3.params.decDepth - midway3.decFifo.length) ∧
    (let s : State := { open3 with decFifo := List.replicate 16 0x62 }
     Inv s ∧ s.phase = .built ∧ s.decState = .active ∧ (16 : BitVec 5).toNat ≤ s.params.decDepth - s.decFifo.length) :=
  ⟨⟨witness_inv_midway3, rfl, rfl, by decide, by decide⟩,
    ⟨by decide, counts3, tree3, fun h => (by cases h), by decide, by decide⟩, rfl, rfl, by decide⟩

/-- All bits 0; the first bit 1; the last of 16 bits 1. -/
theorem witness_DecBitsOnAOneLeafTree :
    (Inv open1 ∧ open1.phase = .built ∧ open1.decState = .active ∧ open1.nleaf = 1 ∧
      (16 : BitVec 5).toNat ≤ open1.params.decDepth - open1.decFifo.length) ∧
    (∀ k, k < (16 : BitVec 5).toNat → (0 : BitVec 16).getLsbD (15 - k) = false) ∧
    ((∀ j, j < 0 → (0x8000 : BitVec 16).getLsbD (15 - j) = false) ∧ (0x8000 : BitVec 16).getLsbD (15 - 0) = true) ∧
    ((∀ j, j < 15 → (0x0001 : BitVec 16).getLsbD (15 - j) = false) ∧ (0x0001 : BitVec 16).getLsbD (15 - 15) = true) :=
  ⟨⟨witness_inv_open1, rfl, rfl, rfl, by decide⟩, by decide, by decide, by decide⟩

theorem witness_DecBitsRejectsAndFails :
    ((0 : BitVec 5).toNat = 0 ∧ 16 < (17 : BitVec 5).toNat) ∧ counted3.phase = .count ∧
      (built3.phase = .built ∧ built3.decState = .idle) ∧ failed3.decState = .failed ∧
      (open0.phase = .built ∧ open0.decState = .active ∧ open0.nleaf = 0) ∧
      (full3.phase = .built ∧ full3.decState = .active ∧ full3.nleaf ≠ 0 ∧
        full3.params.decDepth - full3.decFifo.length < (1 : BitVec 5).toNat) :=
  ⟨by decide, rfl, ⟨rfl, rfl⟩, rfl, ⟨rfl, rfl, rfl⟩, rfl, rfl, by decide, by decide⟩

theorem witness_DecEndCommand :
    counted3.phase = .count ∧ (built3.phase = .built ∧ built3.decState = .idle) ∧ failed3.decState = .failed ∧
      (midway3.decState = .active ∧ midway3.decCursor ≠ midway3.root) ∧ open3.decState = .active ∧
      open3.decCursor = open3.root := ⟨rfl, ⟨rfl, rfl⟩, rfl, ⟨rfl, by decide⟩, rfl, rfl⟩

/-- "cab" in two chunks that cut the second code, and the empty sequence on the empty tree. -/
theorem witness_RoundTripLaw :
    (Inv built3 ∧ built3.phase = .built ∧ (∀ sym ∈ ([0x63, 0x61, 0x62] : List Sym), freqAt built3.freq sym ≠ 0) ∧
      ([0x63, 0x61, 0x62] : List Sym).map (codeOf built3) = [[true, true], [true, false], [false]].map some ∧
      (∀ c ∈ ([(3, 0xE000), (2, 0x0000)] : List (BitVec 5 × BitVec 16)), 1 ≤ c.1.toNat ∧ c.1.toNat ≤ 16) ∧
      ([(3, 0xE000), (2, 0x0000)] : List (BitVec 5 × BitVec 16)).flatMap
          (fun c => (List.range c.1.toNat).map fun k => c.2.getLsbD (15 - k)) =
        [[true, true], [true, false], [false]].flatten ∧
      [[true, true], [true, false], [false]].flatten.length ≤ built3.params.decDepth) ∧
    Inv open0 ∧ ([] : List Sym).map (codeOf open0) = ([] : List (List Bool)).map some := by
  obtain ⟨ha, hb, hc⟩ := codes3_of (s := built3) rfl rfl rfl rfl
  exact ⟨⟨witness_inv_built3, rfl, by decide +kernel, by rw [List.map_cons, List.map_cons, List.map_cons, ha, hb, hc]; rfl,
    by simp, by decide +kernel, by decide⟩,
    witness_inv_open0, rfl⟩

/-- "aa" in two chunks, the host reading one symbol before each of the last two commands, in the one-leaf tree: no command is rejected. -/
theorem witness_RoundTripLawWithReads :
    Inv open1 ∧ open1.phase = .built ∧ (∀ sym ∈ ([0x61, 0x61] : List Sym), freqAt open1.freq sym ≠ 0) ∧
      ([0x61, 0x61] : List Sym).map (codeOf open1) = [[false], [false]].map some ∧
      (∀ c ∈ ([(0, 1, 0), (1, 1, 0)] : List (Nat × BitVec 5 × BitVec 16)), 1 ≤ c.2.1.toNat ∧ c.2.1.toNat ≤ 16) ∧
      ([(0, 1, 0), (1, 1, 0)] : List (Nat × BitVec 5 × BitVec 16)).flatMap
          (fun c => (List.range c.2.1.toNat).map fun j => c.2.2.getLsbD (15 - j)) = [[false], [false]].flatten ∧
      (runReading [(0, .decStart), (0, .decBits 1 0), (1, .decBits 1 0), (1, .decEnd)] open1).map (fun r => (r.1, r.2.1)) =
        some ([.ok, .ok, .ok, .ok], [0x61, 0x61]) :=
  ⟨witness_inv_open1, rfl, by decide +kernel, rfl, by decide, by decide +kernel, by decide +kernel⟩

theorem witness_RegisterValuesAfterReset :
    Params.Legal ⟨1, 8, 16, 0, #v[0, 1, 2, 3]⟩ ∧ Params.Legal ⟨32, 65535, 65535, 0, #v[0, 1, 2, 3]⟩ := by decide

theorem witness_ClearGivesTheResetValues :
    (0x00000001 : Word).extractLsb' 28 4 = 0x0 ∧ (0x00000001 : Word) ≠ 0x00000000 ∧
      (0x08000000 : Word).extractLsb' 28 4 = 0x0 := by decide

theorem witness_FeedRecipeCarriesTheBitSequence :
    32 ≤ 32 * ([0xA1E00000] : List Word).length ∧ 17 ≤ 32 * ([0xA1E00000] : List Word).length ∧
      ∃ i, i ∈ feedCommands 17 [0xA1E00000] := ⟨by decide, by decide, _, List.mem_cons_self⟩

theorem witness_QueryNodeCommand :
    counted3.phase = .count ∧
      (built3.phase = .built ∧ (if built3.nleaf = 0 then 0 else 2 * built3.nleaf.toNat - 1) ≤ (5 : NodeIdx).toNat) ∧
      (open0.phase = .built ∧ (if open0.nleaf = 0 then 0 else 2 * open0.nleaf.toNat - 1) ≤ (0 : NodeIdx).toNat) ∧
      (Inv built3 ∧ built3.nleaf ≠ 0 ∧ (4 : NodeIdx).toNat < 2 * built3.nleaf.toNat - 1) :=
  ⟨rfl, ⟨rfl, by decide⟩, ⟨rfl, by decide⟩, witness_inv_built3, by decide, by decide⟩

/-! ### Written forms (30_encoding.md R101 to R103; words from 95_test_vectors.md) -/

theorem test_assembleText_count : assembleText "COUNT 'a'".toList = some (.count 0x61) := by decide +kernel

theorem test_assembleText_decBits :
    assembleText "DEC_BITS 3, 0xA000".toList = assembleText "DEC_BITS \"101\"".toList ∧
      assembleText "DEC_BITS \"101\"".toList = some (.decBits 3 0xA000) := by decide +kernel

/-- An operand out of range is an assembly error (R101). -/
theorem test_assembleText_range :
    assembleText "COUNT 256".toList = none ∧ assembleText "QUERY_NODE 512".toList = none ∧
      assembleText "DEC_BITS 17, 0".toList = none ∧ assembleText "CLEAR 1".toList = none := by decide +kernel

theorem test_parseLine_forms :
    parseLine "WR CMD, 0x10000061".toList = some (.wr .cmd (encode (.count 0x61))) ∧
      parseLine "RD STATUS".toList = some (.rd .status) ∧
      parseLine "LOAD \"ab\"".toList = some (.load [0x61, 0x62]) ∧
      parseLine "DECODE \"10\"".toList = some (.decode [true, false]) ∧
      parseLine "BUILD".toList = some (.command .build) := by decide +kernel

end Sys2Proof.Tests
end

/-! SUPPORT. What a completed command can have done, said once for all commands, and what a step does to the fields that
commands own (10_state.md R48). -/

namespace Sys2Proof.Machine

/-! ### The encoder's updates as updates of the encoder's fields -/

theorem emitCode_frame (s : State) (code : List Bool) :
    emitCode s code =
      { s with
        encAcc := (appendBits s code).encAcc
        encAccn := (appendBits s code).encAccn
        encFifo := (appendBits s code).encFifo
        encBitcnt := s.encBitcnt + BitVec.ofNat 64 code.length } :=
  congrArg (fun u : State => { u with encBitcnt := s.encBitcnt + BitVec.ofNat 64 code.length }) (appendBits_frame code s)

theorem flushWord_frame (s : State) :
    flushWord s =
      { s with
        encAcc := (flushWord s).encAcc
        encAccn := (flushWord s).encAccn
        encFifo := (flushWord s).encFifo } := by
  unfold flushWord
  split <;> rfl

/-! ### The effects of the commands -/

/-- `n` bits consumed by the decoder's walk: where the cursor rests and what was emitted (R187). -/
def State.walked (s : State) (cur : NodeIdx) (syms : List Sym) (n : Nat) : State :=
  { s with decCursor := cur, decPos := s.decPos + BitVec.ofNat 64 n, decFifo := s.decFifo ++ syms }

/-- What a command that ends in a next state can have done. Rejects and the two queries are one case: they answer, and write
RESULT and the read-back words alone. -/
inductive Effect (s : State) : Instr → State → Prop
  | answer (i : Instr) (c : ResultCode) (r0 r1 : Word) : Effect s i { s with result := c, rdata0 := r0, rdata1 := r1 }
  | clear : Effect s .clear (s.cleared.withResult .ok)
  | count (sym : Sym) (hp : s.phase = .count) (hm : s.total.toNat ≠ maxTotal s.params) :
    Effect s (.count sym)
      { s with
        freq := setFreq s.freq sym (addCount s.params (freqAt s.freq sym) 1)
        total := addCount s.params s.total 1, result := .ok }
  | build (hp : s.phase = .count) : Effect s .build (s.builtTree.withResult .ok)
  | encStart (hp : s.phase = .built) : Effect s .encStart (s.openEncoder.withResult .ok)
  | encFail (sym : Sym) (info : Word) (hp : s.phase = .built) (ha : s.encState = .active) :
    Effect s (.encSym sym) (s.failSession .encoder .unknownSymbol info)
  | encCode (sym : Sym) (code : List Bool) (hp : s.phase = .built) (ha : s.encState = .active)
    (hroom : wordsCompleted s code ≤ s.params.encDepth - s.encFifo.length) :
    Effect s (.encSym sym) ((emitCode s code).withResult .ok)
  | encEnd (hp : s.phase = .built) (ha : s.encState = .active)
    (hroom : s.encAccn ≠ 0 → 1 ≤ s.params.encDepth - s.encFifo.length) :
    Effect s .encEnd { flushWord s with encState := .idle, result := .ok }
  | decStart (hp : s.phase = .built) : Effect s .decStart (s.openDecoder.withResult .ok)
  | decEmpty (nbits : BitVec 5) (bits : BitVec 16) (info : Word) (hp : s.phase = .built) (ha : s.decState = .active) :
    Effect s (.decBits nbits bits) (s.failSession .decoder .emptyTreeDecode info)
  | decWalk (nbits : BitVec 5) (bits : BitVec 16) (cur : NodeIdx) (syms : List Sym) (n : Nat) (hp : s.phase = .built)
    (ha : s.decState = .active) (hn : s.nleaf ≠ 0) (hroom : syms.length ≤ s.params.decDepth - s.decFifo.length)
    (hcur : CursorInv s → CursorInv (s.walked cur syms n)) :
    Effect s (.decBits nbits bits) ((s.walked cur syms n).withResult .ok)
  | decMalformed (nbits : BitVec 5) (bits : BitVec 16) (cur : NodeIdx) (syms : List Sym) (n : Nat) (info : Word)
    (hp : s.phase = .built) (ha : s.decState = .active) (hn : s.nleaf ≠ 0)
    (hroom : syms.length ≤ s.params.decDepth - s.decFifo.length)
    (hcur : CursorInv s → CursorInv (s.walked cur syms n)) :
    Effect s (.decBits nbits bits) ((s.walked cur syms n).failSession .decoder .malformedEncoding info)
  | decTruncated (info : Word) (hp : s.phase = .built) (ha : s.decState = .active) :
    Effect s .decEnd (s.failSession .decoder .truncatedEncoding info)
  | decEnd (hp : s.phase = .built) (ha : s.decState = .active) :
    Effect s .decEnd { s with decState := .idle, result := .ok }

theorem Effect.withResult (s : State) (i : Instr) (c : ResultCode) : Effect s i (s.withResult c) :=
  .answer i c s.rdata0 s.rdata1

/-- The walk of DEC_BITS, as an effect: all its bits are consumed, or it fails at one of them (R185). -/
theorem decChunk_effect {nbits : BitVec 5} {bits : BitVec 16} {s t : State} (hp : s.phase = .built)
    (ha : s.decState = .active) (hn : s.nleaf ≠ 0) (hroom : nbits.toNat ≤ s.params.decDepth - s.decFifo.length)
    (h : decChunk (chunkBits nbits bits) s = .next t) : Effect s (.decBits nbits bits) t := by
  have hcur := decChunk_cursor h
  have hlen := chunkBits_length nbits bits
  rcases decChunk_cases (chunkBits nbits bits) s with hc | ⟨cur, syms, k, hk, hbit, -, hc⟩ | ⟨cur, syms, hsyms, hc⟩ <;>
    rw [hc] at h <;> cases h
  · have hkl := (List.getElem?_eq_some_iff.1 hbit).1
    exact .decMalformed nbits bits cur syms k _ hp ha hn (by omega) hcur
  · exact .decWalk nbits bits cur syms _ hp ha hn (by omega) hcur

/-- Every command that ends in a next state has one of the effects. -/
theorem exec_effect {i : Instr} {s t : State} (h : exec i s = .next t) : Effect s i t := by
  cases i with
  | clear => cases h; exact .clear
  | count sym =>
    rcases execCount_next h with ⟨-, rfl⟩ | ⟨-, -, rfl⟩ | ⟨hp, hm, rfl⟩
    · exact .withResult ..
    · exact .withResult ..
    · exact .count sym hp hm
  | build =>
    rcases execBuild_next h with ⟨-, rfl⟩ | ⟨hp, rfl⟩
    · exact .withResult ..
    · exact .build hp
  | encStart =>
    rcases execEncStart_next h with ⟨-, rfl⟩ | ⟨hp, rfl⟩
    · exact .withResult ..
    · exact .encStart hp
  | encSym sym =>
    rcases execEncSym_next h with ⟨c, -, rfl⟩ | ⟨hp, ha, -, rfl⟩ | ⟨hp, ha, -, code, -, hroom, rfl⟩
    · exact .withResult ..
    · exact .encFail sym _ hp ha
    · exact .encCode sym code hp ha hroom
  | encEnd =>
    rcases execEncEnd_next h with ⟨c, -, rfl⟩ | ⟨hp, ha, hroom, rfl⟩
    · exact .withResult ..
    · exact .encEnd hp ha hroom
  | decStart =>
    rcases execDecStart_next h with ⟨-, rfl⟩ | ⟨hp, rfl⟩
    · exact .withResult ..
    · exact .decStart hp
  | decBits nbits bits =>
    rcases execDecBits_next h with ⟨c, -, rfl⟩ | ⟨hp, ha, -, rfl⟩ | ⟨hp, ha, hn, hroom, hw⟩
    · exact .withResult ..
    · exact .decEmpty nbits bits _ hp ha
    · exact decChunk_effect hp ha hn hroom hw
  | decEnd =>
    rcases execDecEnd_next h with ⟨c, -, rfl⟩ | ⟨hp, ha, -, rfl⟩ | ⟨hp, ha, -, rfl⟩
    · exact .withResult ..
    · exact .decTruncated _ hp ha
    · exact .decEnd hp ha
  | queryFreq sym => cases h; exact .answer ..
  | queryNode idx =>
    rcases execQueryNode_next h with ⟨c, -, rfl⟩ | ⟨-, -, nd, -, rfl⟩
    · exact .withResult ..
    · exact .answer ..

/-! ### Who writes PHASE, the frequency table and ERR_INFO (R32, R35, R38, R48) -/

theorem Effect.phase_eq {i : Instr} {s t : State} (h : Effect s i t) :
    t.phase = s.phase ∨ (i = .build ∧ t.phase = .built) ∨ (i = .clear ∧ t.phase = .count) := by
  cases h with
  | clear => exact .inr (.inr ⟨rfl, rfl⟩)
  | build hp => exact .inr (.inl ⟨rfl, rfl⟩)
  | encCode sym code hp ha hroom => rw [emitCode_frame]; exact .inl rfl
  | encEnd hp ha hroom => rw [flushWord_frame]; exact .inl rfl
  | _ => exact .inl rfl

theorem Effect.table_eq {i : Instr} {s t : State} (h : Effect s i t) :
    (t.freq = s.freq ∧ t.total = s.total) ∨ (s.phase = .count ∧ ∃ sym, i = .count sym) ∨ i = .clear := by
  cases h with
  | clear => exact .inr (.inr rfl)
  | count sym hp hm => exact .inr (.inl ⟨hp, sym, rfl⟩)
  | encCode sym code hp ha hroom => rw [emitCode_frame]; exact .inl ⟨rfl, rfl⟩
  | encEnd hp ha hroom => rw [flushWord_frame]; exact .inl ⟨rfl, rfl⟩
  | _ => exact .inl ⟨rfl, rfl⟩

theorem Effect.errInfo_eq {i : Instr} {s t : State} (h : Effect s i t) :
    t.errInfo = s.errInfo ∨ (1 ≤ Statements.codeNumber t.result ∧ Statements.codeNumber t.result ≤ 4) ∨ i = .clear := by
  cases h with
  | clear => exact .inr (.inr rfl)
  | encFail sym info hp ha => exact .inr (.inl (by simp [Statements.codeNumber]))
  | decEmpty nbits bits info hp ha => exact .inr (.inl (by simp [Statements.codeNumber]))
  | decTruncated info hp ha => exact .inr (.inl (by simp [Statements.codeNumber]))
  | decMalformed nbits bits cur syms n info hp ha hn hroom hcur => exact .inr (.inl (by simp [Statements.codeNumber]))
  | encCode sym code hp ha hroom => rw [emitCode_frame]; exact .inl rfl
  | encEnd hp ha hroom => rw [flushWord_frame]; exact .inl rfl
  | _ => exact .inl rfl

/-- A step leaves PHASE, the frequency table, TOTAL and ERR_INFO alone, or it executes a command, or it is a reset. -/
theorem step_command_or_reset {s t : State} (h : step s = .next t) :
    (t.phase = s.phase ∧ t.freq = s.freq ∧ t.total = s.total ∧ t.errInfo = s.errInfo) ∨
      (∃ i es u, Executes s i ∧ Effect { s with events := es } i u ∧ t = u.unlatch) ∨
      (Resets s ∧ ∃ es, t = resetDevice { s with events := es }) := by
  rcases step_device h with ⟨d, p, o, e, r, rfl⟩ | ⟨w, ws, d, r, e, -, rfl⟩ | ⟨w, ws, d, r, e, -, rfl⟩ | ⟨e, rfl⟩ |
    ⟨i, es, u, hx, hu, rfl⟩ | hr
  · exact .inl ⟨rfl, rfl, rfl, rfl⟩
  · exact .inl ⟨rfl, rfl, rfl, rfl⟩
  · exact .inl ⟨rfl, rfl, rfl, rfl⟩
  · exact .inl ⟨rfl, rfl, rfl, rfl⟩
  · exact .inr (.inl ⟨i, es, u, hx, exec_effect hu, rfl⟩)
  · exact .inr (.inr hr)

/-- Settles O26: BUILD and CLEAR are the only commands whose effect moves PHASE. -/
theorem phaseMovesOnlyByBuildClearOrReset : Obligations.PhaseMovesOnlyByBuildClearOrReset := by
  unfold Obligations.PhaseMovesOnlyByBuildClearOrReset
  intro s t h
  rcases step_command_or_reset h with ⟨hp, -⟩ | ⟨i, es, u, hx, hu, rfl⟩ | ⟨hr, es, rfl⟩
  · simp +contextual [hp]
  · rcases hu.phase_eq with hp | ⟨rfl, hp⟩ | ⟨rfl, hp⟩
    · simp +contextual [hp]
    · exact ⟨fun _ _ => hx, fun _ hq => by simp [hp] at hq⟩
    · exact ⟨fun _ hq => by simp [hp] at hq, fun _ _ => .inl hx⟩
  · exact ⟨fun _ hq => by simp at hq, fun _ _ => .inr hr⟩

/-- Settles O27: COUNT in COUNT phase and CLEAR are the only commands whose effect writes the table. -/
theorem frequencyTableIsWrittenOnlyByCountClearReset : Obligations.FrequencyTableIsWrittenOnlyByCountClearReset := by
  unfold Obligations.FrequencyTableIsWrittenOnlyByCountClearReset
  intro s t h hne
  rcases step_command_or_reset h with ⟨-, hf, ht, -⟩ | ⟨i, es, u, hx, hu, rfl⟩ | ⟨hr, -⟩
  · simp [hf, ht] at hne
  · rcases hu.table_eq with ⟨hf, ht⟩ | ⟨hp, sym, rfl⟩ | rfl
    · simp [hf, ht] at hne
    · exact .inl ⟨hp, sym, hx⟩
    · exact .inr (.inl hx)
  · exact .inr (.inr hr)

/-- Settles O31: an effect that writes ERR_INFO is CLEAR's or ends with one of the codes 1 to 4. -/
theorem errInfoIsWrittenOnlyByFailClearReset : Obligations.ErrInfoIsWrittenOnlyByFailClearReset := by
  unfold Obligations.ErrInfoIsWrittenOnlyByFailClearReset
  intro s t h hne
  rcases step_command_or_reset h with ⟨-, -, -, he⟩ | ⟨i, es, u, hx, hu, rfl⟩ | ⟨hr, -⟩
  · exact absurd he hne
  · rcases hu.errInfo_eq with he | hc | rfl
    · exact absurd he hne
    · exact .inl ⟨i, hx, hc⟩
    · exact .inr (.inl hx)
  · exact .inr (.inr hr)

/-! ### Who writes OVERRUN (R44, R69, R239) -/

theorem step_overrun {s t : State} (h : step s = .next t) :
    t.overrun = s.overrun ∨ (s.busy = true ∧ (∃ w es, s.events = .write 0x0C 4 w :: es) ∧ t.overrun = true) ∨
      (Resets s ∧ t.overrun = false) := by
  obtain ⟨-, es, ⟨-, -, rfl⟩ | ⟨-, w, u, -, hu, rfl⟩ | ⟨off, size, r, -, -, rfl⟩ | ⟨off, size, v, r, he, hr, rfl⟩ |
    ⟨he, rfl⟩⟩ := step_next h
  · exact .inl rfl
  · rcases execute_cases hu with rfl | ⟨i, -, hx⟩
    · exact .inl rfl
    · obtain ⟨-, -, ho, -⟩ := exec_bus hx
      exact .inl ho
  · rcases readReg_frame r { s with events := es } with hf | hf | ⟨w, ws, -, hf⟩ | ⟨x, xs, -, hf⟩ <;>
      exact .inl (by simp [hf])
  · rcases writeReg_frame r v { s with events := es } with hf | ⟨rfl, hb, hf⟩ | ⟨-, -, hf⟩ <;> rw [hf]
    · exact .inl rfl
    · obtain ⟨rfl, rfl⟩ := accessedReg_inv hr
      exact .inr (.inl ⟨hb, ⟨v, es, he⟩, rfl⟩)
    · exact .inl rfl
  · exact .inr (.inr ⟨⟨es, he⟩, rfl⟩)

/-- Settles O16: of the three things a step can do to OVERRUN, one sets it and one clears it. -/
theorem overrunIsSticky : Obligations.OverrunIsSticky := by
  unfold Obligations.OverrunIsSticky
  intro s t h
  rcases step_overrun h with ho | ⟨hb, hw, ho⟩ | ⟨hr, ho⟩
  · simp +contextual [ho]
  · exact ⟨fun _ hf => by simp [ho] at hf, fun _ _ => ⟨hb, hw⟩⟩
  · exact ⟨fun _ _ => hr, fun _ ht => by simp [ho] at ht⟩

end Sys2Proof.Machine

/-! SUPPORT. The invariant, unit by unit: what each effect of a command keeps of it (10_state.md R34, R38 to R43). -/

namespace Sys2Proof.Machine

/-! ### Reset values and the frequency table -/

theorem countSum_replicate_zero : countSum (Vector.replicate 256 0) = 0 := by
  rw [countSum, Vector.toList_replicate, List.map_replicate, List.sum_replicate]
  rfl

/-- The values CLEAR gives meet the invariant, whatever the state was before (R121). -/
theorem inv_cleared {s : State} (hl : s.params.Legal) : Inv s.cleared :=
  ⟨hl, ⟨countSum_replicate_zero, Nat.zero_le _⟩, ⟨fun _ => ⟨rfl, rfl, rfl⟩, fun h => by cases h⟩,
    fun _ => ⟨rfl, rfl, rfl, rfl⟩,
    ⟨rfl, Nat.zero_le _, Nat.zero_mod _, fun _ => rfl, fun h => absurd rfl h⟩,
    ⟨fun _ => rfl, fun h => (by cases h), Nat.zero_le _, fun h => absurd rfl h, fun h => absurd rfl h⟩⟩

/-- An accepted COUNT keeps TOTAL the sum of the counts (R39, R123, R124). -/
theorem countsInv_count {s : State} (hl : s.params.Legal) (hc : CountsInv s) (hm : s.total.toNat ≠ maxTotal s.params)
    (sym : Sym) :
    countSum (setFreq s.freq sym (addCount s.params (freqAt s.freq sym) 1)) =
        (addCount s.params s.total 1).toNat ∧
      (addCount s.params s.total 1).toNat ≤ maxTotal s.params := by
  obtain ⟨ht, hs⟩ := addCount_one hl hc hm sym
  have hset := countSum_setFreq s.freq sym (addCount s.params (freqAt s.freq sym) 1)
  obtain ⟨hsum, hmax⟩ := hc
  omega

theorem phaseInv_of_built {s : State} (h : s.phase = .built) : PhaseInv s := fun hc => by simp [h] at hc

/-! ### The encoder -/

theorem encInv_openEncoder (s : State) : EncInv s.openEncoder :=
  ⟨rfl, Nat.zero_le _, Nat.zero_mod _, fun h => (by cases h), fun _ => rfl⟩

theorem encInv_failSession {s : State} (h : EncInv s) (ha : s.encState = .active) (info : Word) :
    EncInv (s.failSession .encoder .unknownSymbol info) := by
  obtain ⟨-, hf, hz, -, hm⟩ := h
  exact ⟨rfl, hf, hz, fun hi => (by cases hi), fun _ => hm (by simp [ha])⟩

/-- A code appended within the free words keeps the packing (R155 to R157). -/
theorem encInv_emitCode {s : State} (h : EncInv s) {code : List Bool} (ha : s.encState = .active)
    (hroom : wordsCompleted s code ≤ s.params.encDepth - s.encFifo.length) : EncInv (emitCode s code) := by
  obtain ⟨he, hf, hz, -, hm⟩ := h
  obtain ⟨-, hn, hlen, -, hz'⟩ := appendBits_spec code s
  rw [emitCode_frame]
  refine ⟨he, ?_, hz' hz, fun hi => by simp [ha] at hi, fun _ => ?_⟩
  · simp only [hlen]
    unfold wordsCompleted at hroom
    omega
  · have := hm (by simp [ha])
    simp only [hn, BitVec.toNat_add, BitVec.toNat_ofNat]
    omega

theorem flushWord_encAccn (s : State) : (flushWord s).encAccn = 0 := by
  unfold flushWord
  split
  · assumption
  · rfl

/-- The partial word pushed in the free entry leaves none held (R160). -/
theorem encInv_flushWord {s : State} (h : EncInv s) (ha : s.encState = .active)
    (hroom : s.encAccn ≠ 0 → 1 ≤ s.params.encDepth - s.encFifo.length) :
    EncInv { flushWord s with encState := .idle } := by
  obtain ⟨he, hf, hz, -, -⟩ := h
  refine ⟨by simp [he, ha], ?_, ?_, fun _ => flushWord_encAccn s, fun hi => absurd rfl hi⟩
  · unfold flushWord
    split
    · exact hf
    · next hn =>
      have := hroom hn
      simp
      omega
  · unfold flushWord
    split
    · exact hz
    · exact Nat.zero_mod _

/-! ### The decoder -/

theorem decInv_openDecoder (s : State) : DecInv s.openDecoder :=
  ⟨fun _ => rfl, fun h => (by cases h), Nat.zero_le _, fun _ => .inl rfl, fun _ _ => rfl⟩

theorem decInv_failSession {s : State} (h : DecInv s) {c : ResultCode} (ha : s.decState = .active)
    (hc : c = .malformedEncoding ∨ c = .truncatedEncoding ∨ c = .emptyTreeDecode) (info : Word) :
    DecInv (s.failSession .decoder c info) := by
  obtain ⟨-, -, hf, hcur, hpos⟩ := h
  have hopen : s.decState ≠ .idle := by simp [ha]
  exact ⟨fun hi => absurd rfl hi, fun _ => hc, hf, fun _ => hcur hopen, fun _ => hpos hopen⟩

/-- The walk keeps the decoder's bounds where its symbols have room (R186, R187). -/
theorem decInv_walked {s : State} (h : DecInv s) {cur : NodeIdx} {syms : List Sym} {n : Nat} (ha : s.decState = .active)
    (hn : s.nleaf ≠ 0) (hroom : syms.length ≤ s.params.decDepth - s.decFifo.length)
    (hcur : CursorInv s → CursorInv (s.walked cur syms n)) : DecInv (s.walked cur syms n) := by
  obtain ⟨he, hfail, hf, hc, -⟩ := h
  refine ⟨he, hfail, ?_, fun _ => hcur (hc (by simp [ha])), fun _ h0 => absurd h0 hn⟩
  simp only [State.walked, List.length_append]
  omega

theorem decInv_of_idle {s : State} (hf : s.decFifo.length ≤ s.params.decDepth) (hi : s.decState = .idle)
    (he : s.decErr = .ok) : DecInv s :=
  ⟨fun _ => he, fun h => by simp [hi] at h, hf, fun h => absurd hi h, fun h => absurd hi h⟩

/-! ### Every effect, and every step, keeps the invariant -/

theorem Effect.inv {i : Instr} {s t : State} (h : Effect s i t) (hs : Inv s) : Inv t := by
  obtain ⟨hl, hc, ht, hp, he, hd⟩ := hs
  cases h with
  | answer i c r0 r1 => exact ⟨hl, hc, ht, hp, he, hd⟩
  | clear => exact inv_cleared hl
  | count sym hcount hm =>
    exact ⟨hl, countsInv_count hl hc hm sym, ⟨ht.1, fun hb => by simp [hcount] at hb⟩, hp, he, hd⟩
  | build hcount =>
    obtain ⟨-, hidle, -, -⟩ := hp hcount
    obtain ⟨hok, -, hf, -, -⟩ := hd
    exact ⟨hl, hc, ⟨fun hb => (by cases hb), fun _ => ⟨rfl, rfl, rfl⟩⟩, phaseInv_of_built rfl, he,
      decInv_of_idle hf hidle (hok (by simp [hidle]))⟩
  | encStart hb => exact ⟨hl, hc, ht, phaseInv_of_built hb, encInv_openEncoder s, hd⟩
  | encFail sym info hb ha => exact ⟨hl, hc, ht, phaseInv_of_built hb, encInv_failSession he ha info, hd⟩
  | encCode sym code hb ha hroom =>
    have he' := encInv_emitCode he ha hroom
    rw [emitCode_frame] at he' ⊢
    exact ⟨hl, hc, ht, phaseInv_of_built hb, he', hd⟩
  | encEnd hb ha hroom =>
    have he' := encInv_flushWord he ha hroom
    rw [flushWord_frame] at he' ⊢
    exact ⟨hl, hc, ht, phaseInv_of_built hb, he', hd⟩
  | decStart hb => exact ⟨hl, hc, ht, phaseInv_of_built hb, he, decInv_openDecoder s⟩
  | decEmpty nbits bits info hb ha =>
    exact ⟨hl, hc, ht, phaseInv_of_built hb, he, decInv_failSession hd ha (.inr (.inr rfl)) info⟩
  | decTruncated info hb ha =>
    exact ⟨hl, hc, ht, phaseInv_of_built hb, he, decInv_failSession hd ha (.inr (.inl rfl)) info⟩
  | decWalk nbits bits cur syms n hb ha hn hroom hcur =>
    exact ⟨hl, hc, ht, phaseInv_of_built hb, he, decInv_walked hd ha hn hroom hcur⟩
  | decMalformed nbits bits cur syms n info hb ha hn hroom hcur =>
    exact ⟨hl, hc, ht, phaseInv_of_built hb, he,
      decInv_failSession (decInv_walked hd ha hn hroom hcur) ha (.inl rfl) info⟩
  | decEnd hb ha =>
    obtain ⟨hok, -, hf, -, -⟩ := hd
    exact ⟨hl, hc, ht, phaseInv_of_built hb, he, decInv_of_idle hf rfl (hok (by simp [ha]))⟩

/-- A read that takes the head of ENC_FIFO keeps the invariant (R65). -/
theorem inv_pop_encFifo {s : State} {w : Word} {ws : List Word} (hs : Inv s) (h : s.encFifo = w :: ws) :
    Inv { s with encFifo := ws } := by
  obtain ⟨hl, hc, ht, hp, ⟨he, hf, hz⟩, hd⟩ := hs
  refine ⟨hl, hc, ht, fun hcount => ?_, ⟨he, ?_, hz⟩, hd⟩
  · obtain ⟨-, -, hempty, -⟩ := hp hcount
    simp [h] at hempty
  · simp only [h, List.length_cons] at hf
    simp only
    omega

/-- A read that takes the head of DEC_FIFO keeps the invariant (R65). -/
theorem inv_pop_decFifo {s : State} {x : Sym} {xs : List Sym} (hs : Inv s) (h : s.decFifo = x :: xs) :
    Inv { s with decFifo := xs } := by
  obtain ⟨hl, hc, ht, hp, he, ⟨hok, hfail, hf, hcur⟩⟩ := hs
  refine ⟨hl, hc, ht, fun hcount => ?_, he, ⟨hok, hfail, ?_, hcur⟩⟩
  · obtain ⟨-, -, -, hempty⟩ := hp hcount
    simp [h] at hempty
  · simp only [h, List.length_cons] at hf
    simp only
    omega

/-- Settles O20: a bus access leaves what the invariant speaks of or takes the head of a FIFO, every effect of a command keeps
the invariant, and a reset gives it the values of CLEAR. -/
theorem everyStepKeepsTheInvariant : Obligations.EveryStepKeepsTheInvariant := by
  unfold Obligations.EveryStepKeepsTheInvariant
  intro s t hs h
  rcases step_device h with ⟨d, p, o, e, r, rfl⟩ | ⟨w, ws, d, r, e, hf, rfl⟩ | ⟨x, xs, d, r, e, hf, rfl⟩ | ⟨e, rfl⟩ |
    ⟨i, es, u, -, hu, rfl⟩ | ⟨-, es, rfl⟩
  · exact hs
  · exact inv_pop_encFifo hs hf
  · exact inv_pop_decFifo hs hf
  · exact hs
  · exact (exec_effect hu).inv hs
  · obtain ⟨hl, -⟩ := hs
    exact inv_cleared hl

end Sys2Proof.Machine

/-! SUPPORT. The tree of a BUILT state as the source's invariants see it, and that no rule reads an entry without a value
(10_state.md R40, R47; 40_builder.md R133; 43_inspect.md R215). -/

namespace Sys2Proof.Machine

/-! ### The node store: the leaves, then the merges (R128, R130) -/

/-- What follows the leaves in a store of `n` nodes: internal nodes with two children inside the store. -/
def InternalBelow (n : Nat) (nd : Node) : Prop :=
  nd.leaf = false ∧ nd.left.toNat < n ∧ nd.right.toNat < n ∧ nd.left ≠ nd.right

theorem BuiltStore.internals {seeds node : List Node} {total : Nat} (h : BuiltStore seeds total node) :
    ∀ nd ∈ node.drop seeds.length, InternalBelow node.length nd := by
  intro nd hnd
  obtain ⟨i, hi⟩ := List.mem_iff_getElem?.1 hnd
  rw [List.getElem?_drop] at hi
  have hlt := (List.getElem?_eq_some_iff.1 hi).1
  obtain ⟨hl, -, hleft, hright, hne, -, -, -, -, -⟩ := h.merged _ nd (by omega) hi
  exact ⟨hl, by omega, by omega, fun e => hne (by rw [e])⟩

/-- The store of a BUILT state: one leaf per counted symbol, then one internal node less than there are leaves. -/
theorem node_eq_leaves_append {s : State} (hs : Inv s) (hb : s.phase = .built) :
    ∃ inner, s.node = seedLeaves s.freq ++ inner ∧ inner.length = leafCount s.freq - 1 ∧
      ∀ nd ∈ inner, InternalBelow s.node.length nd := by
  obtain ⟨hl, hc, ht, -⟩ := hs
  have hseeds := seedLeaves_length s.freq
  by_cases hL : leafCount s.freq = 0
  · obtain ⟨hnode, -, -⟩ := ht.2 hb
    rw [buildNodes_empty _ _ hL] at hnode
    have hnil := List.length_eq_zero_iff.1 (hseeds.trans hL)
    exact ⟨[], by rw [hnode, hnil]; rfl, by simp [hL], by simp⟩
  · have h := builtStore_of_inv hl hc ht hb hL
    have hlen := h.length
    refine ⟨s.node.drop (seedLeaves s.freq).length, ?_, ?_, h.internals⟩
    · conv_lhs => rw [← List.take_append_drop (seedLeaves s.freq).length s.node, h.seeded]
    · rw [List.length_drop]
      omega

theorem filter_leaf_seedLeaves (freq : Vector Count 256) :
    (seedLeaves freq).filter (fun nd => nd.leaf) = seedLeaves freq :=
  List.filter_eq_self.2 (seedLeaves_leaf freq)

theorem filter_internal_seedLeaves (freq : Vector Count 256) : (seedLeaves freq).filter (fun nd => !nd.leaf) = [] :=
  List.filter_eq_nil_iff.2 fun nd h => by simp [seedLeaves_leaf freq nd h]

theorem seedLeaves_map_sym (freq : Vector Count 256) : (seedLeaves freq).map Node.sym = presentSymbols freq := by
  rw [seedLeaves, List.map_map]
  exact List.map_id _

/-- The leaves of a BUILT store are those BUILD seeds. -/
theorem filter_leaf_node {s : State} (hs : Inv s) (hb : s.phase = .built) :
    (s.node.filter fun nd => nd.leaf) = seedLeaves s.freq := by
  obtain ⟨inner, hnode, -, hin⟩ := node_eq_leaves_append hs hb
  have hnone : inner.filter (fun nd => nd.leaf) = [] :=
    List.filter_eq_nil_iff.2 fun nd h => by simp [(hin nd h).1]
  rw [hnode, List.filter_append, filter_leaf_seedLeaves, hnone, List.append_nil]

theorem filter_internal_length {s : State} (hs : Inv s) (hb : s.phase = .built) :
    (s.node.filter fun nd => !nd.leaf).length = leafCount s.freq - 1 := by
  obtain ⟨inner, hnode, hlen, hin⟩ := node_eq_leaves_append hs hb
  have hall : inner.filter (fun nd => !nd.leaf) = inner :=
    List.filter_eq_self.2 fun nd h => by simp [(hin nd h).1]
  rw [hnode, List.filter_append, filter_internal_seedLeaves, hall, List.nil_append, hlen]

theorem internal_of_mem_node {s : State} (hs : Inv s) (hb : s.phase = .built) {nd : Node} (h : nd ∈ s.node)
    (hl : nd.leaf = false) : InternalBelow s.node.length nd := by
  obtain ⟨inner, hnode, -, hin⟩ := node_eq_leaves_append hs hb
  rw [hnode] at h
  rcases List.mem_append.1 h with h | h
  · simp [seedLeaves_leaf s.freq nd h] at hl
  · exact hin nd h

theorem freq_of_mem_seedLeaves {freq : Vector Count 256} {nd : Node} (h : nd ∈ seedLeaves freq) :
    nd.freq = freqAt freq nd.sym := by
  obtain ⟨sym, -, rfl⟩ := List.mem_map.1 h
  rfl

theorem counted_length (s : State) : (Statements.counted s).length = leafCount s.freq := by
  unfold Statements.counted leafCount presentSymbols allSymbols
  congr 1
  exact List.filter_congr fun sym _ => Bool.eq_iff_iff.2 (by simp)

/-- Settles O39: the leaves of the store are the counted symbols in order, each with its count, and every other node is a merge
of two nodes of the store. -/
theorem builtTreeMeetsTheSourcesInvariants : Obligations.BuiltTreeMeetsTheSourcesInvariants := by
  unfold Obligations.BuiltTreeMeetsTheSourcesInvariants
  intro s hs hb
  have hleaf := filter_leaf_node hs hb
  have ⟨_, ⟨hsum, _⟩, _⟩ := hs
  rw [hleaf, seedLeaves_map_sym, seedLeaves_sum, counted_length, filter_internal_length hs hb]
  refine ⟨presentSymbols_nodup s.freq, mem_presentSymbols s.freq, ?_, fun nd h hl => ?_, hsum, fun nd h hl => ?_⟩
  · split <;> omega
  · exact (internal_of_mem_node hs hb h hl).2
  · have hmem : nd ∈ s.node.filter fun nd => nd.leaf := List.mem_filter.2 ⟨h, hl⟩
    rw [hleaf] at hmem
    exact freq_of_mem_seedLeaves hmem

/-! ### Where a command could fault (logs 8 and 9) -/

theorem execEncSym_fault {sym : Sym} {s : State} {f : Fault} (h : execEncSym sym s = .fault f) :
    s.phase = .built ∧ freqAt s.freq sym ≠ 0 ∧ codeOf s sym = none := by
  unfold execEncSym at h
  split at h
  · cases h
  · next hc =>
    split at h
    · cases h
    · next hf =>
      split at h
      · next hcode => exact ⟨(sessionCheck_none hc).1, hf, hcode⟩
      · split at h <;> cases h

theorem execDecBits_fault {nbits : BitVec 5} {bits : BitVec 16} {s : State} {f : Fault}
    (h : execDecBits nbits bits s = .fault f) :
    s.phase = .built ∧ s.decState = .active ∧ s.nleaf ≠ 0 ∧ decChunk (chunkBits nbits bits) s = .fault f := by
  unfold execDecBits at h
  split at h
  · cases h
  · split at h
    · cases h
    · next hc =>
      obtain ⟨hp, ha⟩ := sessionCheck_none hc
      split at h
      · cases h
      · next hn =>
        split at h
        · cases h
        · exact ⟨hp, ha, hn, h⟩

theorem execQueryNode_fault {idx : NodeIdx} {s : State} {f : Fault} (h : execQueryNode idx s = .fault f) :
    s.phase = .built ∧ idx.toNat < nnode s ∧ s.node[idx.toNat]? = none := by
  unfold execQueryNode at h
  split at h
  · cases h
  · next hp =>
    split at h
    · cases h
    · next hi =>
      split at h
      · next hn => exact ⟨by cases hq : s.phase <;> simp_all, by omega, hn⟩
      · cases h

/-- Only ENC_SYM, DEC_BITS and QUERY_NODE have a path that faults. -/
theorem exec_fault {i : Instr} {s : State} {f : Fault} (h : exec i s = .fault f) :
    (∃ sym, execEncSym sym s = .fault f) ∨ (∃ nbits bits, execDecBits nbits bits s = .fault f) ∨
      ∃ idx, execQueryNode idx s = .fault f := by
  cases i with
  | encSym sym => exact .inl ⟨sym, h⟩
  | decBits nbits bits => exact .inr (.inl ⟨nbits, bits, h⟩)
  | queryNode idx => exact .inr (.inr ⟨idx, h⟩)
  | clear => cases h
  | queryFreq sym => cases h
  | count sym =>
    simp only [exec, execCount] at h
    split at h
    · cases h
    · split at h <;> cases h
  | build => simp only [exec, execBuild] at h; split at h <;> cases h
  | encStart => simp only [exec, execEncStart] at h; split at h <;> cases h
  | decStart => simp only [exec, execDecStart] at h; split at h <;> cases h
  | encEnd =>
    simp only [exec, execEncEnd] at h
    split at h
    · cases h
    · split at h <;> cases h
  | decEnd =>
    simp only [exec, execDecEnd] at h
    split at h
    · cases h
    · split at h <;> cases h

/-- Complete faults only in the command it executes (R67, R95). -/
theorem complete_fault {s : State} {f : Fault} (h : complete s = .fault f) : ∃ i, exec i s = .fault f := by
  unfold complete at h
  split at h
  · cases h
  · next w _ =>
    cases hx : execute w s with
    | next u => rw [hx] at h; cases h
    | refused r => rw [hx] at h; cases h
    | fault g =>
      rw [hx] at h
      cases h
      unfold execute at hx
      split at hx
      · cases hx
      · next i _ => exact ⟨i, hx⟩

/-- A step that faults is a command that faults: no bus access and no reset does. -/
theorem step_fault {s : State} {f : Fault} (h : step s = .fault f) : ∃ es i, exec i { s with events := es } = .fault f := by
  unfold step at h
  split at h
  · unfold takeStep at h
    split at h
    · exact ⟨s.events, complete_fault h⟩
    · next e es _ =>
      cases e with
      | complete => exact ⟨es, complete_fault h⟩
      | read off size => simp only [handleEvent, hostRead] at h; split at h <;> cases h
      | write off size v => simp only [handleEvent, hostWrite] at h; split at h <;> cases h
      | reset => cases h
  · cases h

/-! ### Under the invariant none of them does -/

theorem codeOf_isSome {s : State} (hs : Inv s) (hb : s.phase = .built) {sym : Sym} (hf : freqAt s.freq sym ≠ 0) :
    ∃ code, codeOf s sym = some code := by
  obtain ⟨hl, hc, ht, -⟩ := hs
  have hn := nleaf_toNat ht hb
  have hlt := leafIdx_lt s.freq hf
  rcases Nat.lt_or_ge s.nleaf.toNat 2 with h | h
  · exact ⟨[false], codeOf_single (BitVec.eq_of_toNat_eq (by simp; omega)) sym⟩
  · obtain ⟨code, hcode, -⟩ := codeOf_path hl hc ht hb h hf
    exact ⟨code, hcode⟩

/-- ROOT and the children of every internal node hold a value: the walk reads no other entry (R40, R187). -/
def WalkDefined (node : List Node) (root : NodeIdx) : Prop :=
  root.toNat < node.length ∧
    ∀ nd ∈ node, nd.leaf = false → nd.left.toNat < node.length ∧ nd.right.toNat < node.length

theorem walkDefined_of_inv {s : State} (hs : Inv s) (hb : s.phase = .built) (hn : s.nleaf ≠ 0) :
    WalkDefined s.node s.root := by
  refine ⟨?_, fun nd h hl => ?_⟩
  · obtain ⟨hl, hc, ht, -⟩ := hs
    have hlen := node_length hl hc ht hb
    have hpos : 0 < s.nleaf.toNat := Nat.pos_of_ne_zero fun e => hn (BitVec.eq_of_toNat_eq e)
    rw [nnode, if_neg hn] at hlen
    rw [root_eq_lastIdx hl hc ht hb, BitVec.toNat_ofNat]
    omega
  · obtain ⟨-, hleft, hright, -⟩ := internal_of_mem_node hs hb h hl
    exact ⟨hleft, hright⟩

/-- A bit is undefined only where the cursor's node, or the child of it that the bit names, holds no value. -/
theorem decBit_undefined {b : Bool} {s : State} (h : decBit b s = .undefinedNode) :
    s.node[s.decCursor.toNat]? = none ∨
      ∃ c ∈ s.node, c.leaf = false ∧ s.node[(if b then c.right else c.left).toNat]? = none := by
  unfold decBit at h
  split at h
  · next hc => exact .inl hc
  · next c hc =>
    split at h
    · split at h <;> cases h
    · next hl =>
      dsimp only at h
      split at h
      · next hm => exact .inr ⟨c, List.mem_of_getElem? hc, by simpa using hl, hm⟩
      · split at h <;> cases h

theorem decBit_defined {b : Bool} {s : State} (h : WalkDefined s.node s.root) (hc : CursorInv s) :
    decBit b s ≠ .undefinedNode := by
  obtain ⟨hroot, hchild⟩ := h
  intro hu
  rcases decBit_undefined hu with hnone | ⟨c, hmem, hl, hnone⟩
  · rcases hc with e | e
    · rw [e, List.getElem?_eq_none_iff] at hnone
      omega
    · simp [hnone] at e
  · obtain ⟨hleft, hright⟩ := hchild c hmem hl
    rw [List.getElem?_eq_none_iff] at hnone
    split at hnone <;> omega

theorem decBit_tree {b : Bool} {s u : State} (h : decBit b s = .more u) : u.node = s.node ∧ u.root = s.root := by
  rcases decBit_cases (b := b) (s := s) with hc | ⟨hc, -⟩ | ⟨cur, syms, -, hc⟩ <;> rw [hc] at h <;> cases h
  exact ⟨rfl, rfl⟩

theorem decChunk_ne_fault {bs : List Bool} {s : State} {f : Fault} (h : WalkDefined s.node s.root) (hc : CursorInv s) :
    decChunk bs s ≠ .fault f := by
  induction bs generalizing s with
  | nil => simp [decChunk, finishOk]
  | cons b bs ih =>
    cases hb : decBit b s with
    | undefinedNode => exact absurd hb (decBit_defined h hc)
    | stop u => simp [decChunk, hb]
    | more u =>
      obtain ⟨hnode, hroot⟩ := decBit_tree hb
      simp only [decChunk, hb]
      exact ih (by rwa [hnode, hroot]) (decBit_cursor hb hc)

theorem exec_ne_fault {s : State} (hs : Inv s) (i : Instr) (f : Fault) : exec i s ≠ .fault f := by
  intro h
  rcases exec_fault h with ⟨sym, h⟩ | ⟨nbits, bits, h⟩ | ⟨idx, h⟩
  · obtain ⟨hb, hf, hnone⟩ := execEncSym_fault h
    obtain ⟨code, hcode⟩ := codeOf_isSome hs hb hf
    simp [hnone] at hcode
  · obtain ⟨hb, ha, hn, hw⟩ := execDecBits_fault h
    have hdef := walkDefined_of_inv hs hb hn
    obtain ⟨-, -, -, -, -, hd⟩ := hs
    obtain ⟨-, -, -, hcur, -⟩ := hd
    exact decChunk_ne_fault hdef (hcur (by simp [ha])) hw
  · obtain ⟨hb, hi, hnone⟩ := execQueryNode_fault h
    obtain ⟨hl, hc, ht, -⟩ := hs
    have hlen := node_length hl hc ht hb
    have := List.getElem?_eq_none_iff.1 hnone
    omega

/-- Settles O21: every counted symbol has a code, the walk stays on nodes of the store, and an index below NNODE names one. -/
theorem noStepFaultsUnderTheInvariant : Obligations.NoStepFaultsUnderTheInvariant := by
  unfold Obligations.NoStepFaultsUnderTheInvariant
  intro s f hs h
  obtain ⟨es, i, hx⟩ := step_fault h
  exact exec_ne_fault (s := { s with events := es }) hs i f hx

end Sys2Proof.Machine

/-! SUPPORT. What one step does with the event it takes: the device's turn, a host read and a host write as equations of the
step, and the statements of the host port that follow from them (20_memory.md R62 to R70). -/

namespace Sys2Proof.Machine

/-! ### The step as an equation, event by event (R14, R67) -/

theorem step_event {s : State} {e : Event} {es : List Event} (hl : s.params.Legal) (he : s.events = e :: es) :
    step s = handleEvent e { s with events := es } := by
  rw [step, if_pos hl, takeStep, he]

/-- On the device's turn, listed or not, the step is Complete (log 4). -/
theorem step_deviceTurn {s : State} {es : List Event} (hl : s.params.Legal) (hd : DeviceTurn s es) :
    step s = complete { s with events := es } := by
  rcases hd with ⟨hn, rfl⟩ | he
  · have hs : { s with events := [] } = s := by rw [← hn]
    rw [hs, step, if_pos hl, takeStep, hn]
  · exact step_event hl he

theorem step_read {s : State} {off : Nat} {es : List Event} (hl : s.params.Legal) (he : s.events = .read off 4 :: es)
    (r : Reg) (ho : off = r.offset) :
    step s = .next ((readReg r { s with events := es }).2.hostGot (readReg r { s with events := es }).1) := by
  rw [step_event hl he, ho, handleEvent, hostRead, accessedReg_offset]

theorem step_write {s : State} {off : Nat} {v : Word} {es : List Event} (hl : s.params.Legal)
    (he : s.events = .write off 4 v :: es) (r : Reg) (ho : off = r.offset) :
    step s = .next (writeReg r v { s with events := es }) := by
  rw [step_event hl he, ho, handleEvent, hostWrite, accessedReg_offset]

/-! ### The latched command (R67, R95, R97) -/

theorem execute_legal {w : Word} {i : Instr} (h : decode w = .ok i) (s : State) : execute w s = exec i s := by
  rw [execute, h]

theorem execute_illegal {w : Word} (h : ∀ i, decode w ≠ .ok i) (s : State) :
    execute w s = reject .illegalCommand s := by
  cases hd : decode w with
  | error e => rw [execute, hd]
  | ok i => exact absurd hd (h i)

/-- `execute` is the reject of R97 or one command: what holds of every command's outcome holds of it. -/
theorem execute_eq (w : Word) (s : State) : execute w s = reject .illegalCommand s ∨ ∃ i, execute w s = exec i s := by
  cases hd : decode w with
  | error e => exact .inl (execute_illegal (by simp [hd]) s)
  | ok i => exact .inr ⟨i, execute_legal hd s⟩

theorem execute_ne_refused (w : Word) (s : State) (r : Refusal) : execute w s ≠ .refused r := by
  rcases execute_eq w s with h | ⟨i, h⟩ <;> rw [h]
  · simp [reject]
  · exact exec_not_refused i s r

theorem execute_ne_fault {s : State} (hs : Inv s) (w : Word) (f : Fault) : execute w s ≠ .fault f := by
  rcases execute_eq w s with h | ⟨i, h⟩ <;> rw [h]
  · simp [reject]
  · exact exec_ne_fault hs i f

theorem step_latched {s : State} {w : Word} {es : List Event} (hl : s.params.Legal) (hd : DeviceTurn s es)
    (hw : s.pending = some w) : step s = thenUnlatch (execute w { s with events := es }) := by
  rw [step_deviceTurn hl hd, complete, hw]

theorem step_nothing_latched {s : State} {es : List Event} (hl : s.params.Legal) (hd : DeviceTurn s es)
    (hw : s.pending = none) : step s = .next { s with events := es } := by
  rw [step_deviceTurn hl hd, complete, hw]

/-- Settles O7: the step on the device's turn is `execute` of the latched word, and its next state has PENDING cleared. -/
theorem stepExecutesTheLatchedCommand : Obligations.StepExecutesTheLatchedCommand := by
  unfold Obligations.StepExecutesTheLatchedCommand
  intro s es hl hd
  refine ⟨fun w hw => ?_, step_nothing_latched hl hd.symm⟩
  have hstep := step_latched hl hd.symm hw
  refine ⟨fun t ht => ?_, fun f hf => ?_, execute_ne_refused w _, fun i hi => execute_legal hi _, fun hi => ?_⟩
  · rw [hstep, ht]; rfl
  · rw [hstep, hf]; rfl
  · rw [hstep, execute_illegal hi]; rfl

/-- Settles O8: `withFetchWord` latches the word and gives the device the next turn. -/
theorem placedWordIsExecutedNext : Obligations.PlacedWordIsExecutedNext := by
  unfold Obligations.PlacedWordIsExecutedNext
  intro s w i t hl hi ht
  have hplaced : s.withFetchWord 32 w.toNat = placeCommand s w := by
    rw [State.withFetchWord, Nat.mod_eq_of_lt w.isLt, BitVec.ofNat_toNat, BitVec.setWidth_eq]
  have hstep : step (placeCommand s w) = thenUnlatch (execute w { s with pending := some w }) :=
    step_latched (s := placeCommand s w) hl (.inr rfl) rfl
  rw [hplaced, hstep, execute_legal hi, ht]
  rfl

/-- Settles O15: under the invariant the latched word's command neither faults nor is refused, and completing clears BUSY. -/
theorem latchedCommandCompletesInOneStep : Obligations.LatchedCommandCompletesInOneStep := by
  unfold Obligations.LatchedCommandCompletesInOneStep
  intro s hs hb hturn
  have ⟨hl, _⟩ := hs
  obtain ⟨w, hw⟩ := Option.isSome_iff_exists.1 hb
  obtain ⟨es, hd⟩ : ∃ es, DeviceTurn s es := by
    rcases hturn with hn | ⟨es, he⟩
    · exact ⟨[], .inl ⟨hn, rfl⟩⟩
    · exact ⟨es, .inr he⟩
  have hstep := step_latched hl hd hw
  cases hx : execute w { s with events := es } with
  | next t => exact ⟨t.unlatch, by rw [hstep, hx]; rfl, rfl⟩
  | fault f => exact absurd hx (execute_ne_fault (s := { s with events := es }) hs w f)
  | refused r => exact absurd hx (execute_ne_refused w _ r)

/-! ### Writes (R66, R69, R70) -/

theorem writeReg_cmd_idle {s : State} (hb : s.busy = false) (v : Word) : writeReg .cmd v s = s.latch v := by
  simp [writeReg, hb]

theorem writeReg_cmd_busy {s : State} (hb : s.busy = true) (v : Word) :
    writeReg .cmd v s = { s with overrun := true } := by
  simp [writeReg, hb]

theorem writeReg_other {r : Reg} (hr : r ≠ .cmd) (v : Word) (s : State) : writeReg r v s = s := by
  cases r with
  | cmd => exact absurd rfl hr
  | _ => rfl

/-- Settles O9: the write reaches CMD, which latches the word while nothing is latched. -/
theorem cmdWriteLatchesTheWord : Obligations.CmdWriteLatchesTheWord := by
  unfold Obligations.CmdWriteLatchesTheWord
  intro s w es hl hb he
  refine ⟨?_, rfl⟩
  rw [step_write hl he .cmd rfl, writeReg_cmd_idle (s := { s with events := es }) hb]
  rfl

/-- Settles O10: the write reaches CMD, which only records the overrun while a command is latched. -/
theorem cmdWriteWhileBusyIsDropped : Obligations.CmdWriteWhileBusyIsDropped := by
  unfold Obligations.CmdWriteWhileBusyIsDropped
  intro s w es hl hb he
  rw [step_write hl he .cmd rfl, writeReg_cmd_busy (s := { s with events := es }) hb]

/-- Settles O11: every other aligned offset of the window reaches a register that keeps its value. -/
theorem otherWritesChangeNothing : Obligations.OtherWritesChangeNothing := by
  unfold Obligations.OtherWritesChangeNothing
  intro s off v es hl h1 h2 hne he
  obtain ⟨r, -, rfl⟩ := accessedReg_ok h1 h2
  have hr : r ≠ .cmd := fun h => hne (congrArg Reg.offset h)
  rw [step_write hl he r rfl, writeReg_other hr]

/-! ### Reads while BUSY = 0 (R31, R65) -/

theorem Session.bits_toNat (x : Session) : x.bits.toNat = Statements.sessionNumber x := by cases x <;> rfl

theorem ResultCode.bits_toNat (c : ResultCode) : c.bits.toNat = Statements.codeNumber c := by cases c <;> rfl

theorem Phase.bits_getLsbD (p : Phase) : p.bits.getLsbD 0 = decide (p = .built) := by cases p <;> rfl

/-- The fields of STATUS have the numbers that R31 and R230 give. -/
theorem statusFields_statusWord {s : State} (hb : s.busy = false) : Statements.StatusFields s (statusWord s) := by
  obtain ⟨hbusy, hphase, henc, hdec, hover, h7, hresult, hencErr, hdecErr, hzero⟩ := statusWord_fields s
  have hbit : (statusWord s).getLsbD 1 = ((statusWord s).extractLsb' 1 1).getLsbD 0 := by
    simp
  refine ⟨hbusy.trans hb, ?_, ?_, ?_, hover, h7, ?_, ?_, ?_, hzero⟩
  · rw [hbit, hphase, Phase.bits_getLsbD]
  · rw [henc, Session.bits_toNat]
  · rw [hdec, Session.bits_toNat]
  · rw [hresult, ResultCode.bits_toNat]
  · rw [hencErr, ResultCode.bits_toNat]
  · rw [hdecErr, ResultCode.bits_toNat]

theorem readIdle_encData_nil {s : State} (h : s.encFifo = []) : readIdle .encData s = (0, s) := by
  simp only [readIdle, h]

theorem readIdle_encData_cons {s : State} {w : Word} {ws : List Word} (h : s.encFifo = w :: ws) :
    readIdle .encData s = (w, { s with encFifo := ws }) := by
  simp only [readIdle, h]

theorem readIdle_decData_nil {s : State} (h : s.decFifo = []) : readIdle .decData s = (0, s) := by
  simp only [readIdle, h]

theorem readIdle_decData_cons {s : State} {sym : Sym} {syms : List Sym} (h : s.decFifo = sym :: syms) :
    readIdle .decData s = (decDataWord sym, { s with decFifo := syms }) := by
  simp only [readIdle, h]

theorem step_readIdle {s : State} {off : Nat} {es : List Event} (hl : s.params.Legal) (hb : s.busy = false)
    (he : s.events = .read off 4 :: es) (r : Reg) (ho : off = r.offset) :
    step s = .next ((readIdle r { s with events := es }).2.hostGot (readIdle r { s with events := es }).1) := by
  have hread : readReg r { s with events := es } = readIdle r { s with events := es } := by simp [readReg, hb]
  rw [step_read hl he r ho, hread]

/-- Settles O12: register by register the step is `readIdle`, whose two FIFO registers look at their FIFO first. -/
theorem readsWhileIdleReturnTheRegisters : Obligations.ReadsWhileIdleReturnTheRegisters := by
  unfold Obligations.ReadsWhileIdleReturnTheRegisters
  intro s off es hl hb he
  have hread := step_readIdle hl hb he
  refine ⟨hread .id, hread .config, hread .depths, hread .cmd,
    fun ho => ⟨statusWord s, hread .status ho, statusFields_statusWord hb⟩, hread .errInfo, hread .treeInfo,
    hread .total, fun ho h => ?_, fun ho w ws h => ?_, hread .encBitcntLo, hread .encBitcntHi, fun ho h => ?_,
    fun ho sym syms h => ?_, hread .levels, hread .rdata0, hread .rdata1, hread .reserved⟩
  · rw [hread .encData ho, readIdle_encData_nil (s := { s with events := es }) h]; rfl
  · rw [hread .encData ho, readIdle_encData_cons (s := { s with events := es }) h]; rfl
  · rw [hread .decData ho, readIdle_decData_nil (s := { s with events := es }) h]; rfl
  · rw [hread .decData ho, readIdle_decData_cons (s := { s with events := es }) h]; rfl

/-! ### Reads while BUSY = 1 (R68) -/

theorem Reg.offset_injective : Function.Injective Reg.offset := by
  intro a b h
  have hab : (Except.ok a : Except Refusal Reg) = .ok b := by rw [← accessedReg_offset a, h, accessedReg_offset]
  exact Except.ok.inj hab

/-- A read while BUSY = 1 draws a free value or does not; it does nothing else. -/
theorem readBusy_state (r : Reg) (s : State) : ∃ d, (readBusy r s).2 = { s with draws := d } := by
  cases r with
  | id | config | depths | cmd | reserved => exact ⟨s.draws, rfl⟩
  | _ => exact ⟨s.draws + 1, rfl⟩

theorem step_readBusy {s : State} {off : Nat} {es : List Event} (hl : s.params.Legal) (hb : s.busy = true)
    (he : s.events = .read off 4 :: es) (r : Reg) (ho : off = r.offset) :
    step s = .next ((readBusy r { s with events := es }).2.hostGot (readBusy r { s with events := es }).1) := by
  have hread : readReg r { s with events := es } = readBusy r { s with events := es } := by simp [readReg, hb]
  rw [step_read hl he r ho, hread]

/-- Settles O13: the step is `readBusy` of the register at the offset, which pops nothing and leaves only the open values to
the free draw. -/
theorem readsWhileBusyChangeNothing : Obligations.ReadsWhileBusyChangeNothing := by
  unfold Obligations.ReadsWhileBusyChangeNothing
  intro s off es hl hb h1 h2 he
  obtain ⟨r, -, rfl⟩ := accessedReg_ok h1 h2
  obtain ⟨d, hd⟩ := readBusy_state r { s with events := es }
  have hreg (q : Reg) (ho : r.offset = q.offset) : r = q := Reg.offset_injective ho
  refine ⟨(readBusy r { s with events := es }).1, d, ?_, fun ho => ?_, fun ho => ?_, fun ho => ?_, fun ho => ?_,
    fun ho => ?_, fun ho => ?_⟩
  · rw [step_readBusy hl hb he r rfl, hd]; rfl
  · rw [hreg .id ho]; rfl
  · rw [hreg .config ho]; rfl
  · rw [hreg .depths ho]; rfl
  · rw [hreg .cmd ho]; rfl
  · rw [hreg .reserved ho]; rfl
  · rw [hreg .status ho]
    exact statusWordBusy_fields { s with events := es } _

end Sys2Proof.Machine

/-! SUPPORT. The decoder and the encoder agree: what a word needs to decode, the fields of each format, and the statements of
30_encoding.md that follow from them (R92 to R97). -/

namespace Sys2Proof.Machine

/-! ### The opcode map (R94) -/

theorem ofField_eq_some_iff {f : BitVec 4} {op : Opcode} : Opcode.ofField f = some op ↔ f = op.field := by
  revert f
  cases op <;> decide

theorem opcodeField_injective : Function.Injective Opcode.field := fun _ _ h =>
  Option.some.inj ((ofField_eq_some_iff.2 rfl).symm.trans (ofField_eq_some_iff.2 h))

theorem exists_opcode_iff {f : BitVec 4} : (∃ op : Opcode, f = op.field) ↔ f.toNat ≤ 0xA := by
  simp only [← ofField_eq_some_iff, ← Option.isSome_iff_exists]
  revert f
  decide

theorem opcodeField_toNat_eq_seven {op : Opcode} : op.field.toNat = 0x7 ↔ op = .decBits := by cases op <;> decide

/-- The row of an opcode in the map written out in the statements. -/
theorem opcodeMap_field (op : Opcode) :
    Statements.opcodeMap[op.field.toNat]? = some (op.base, op.format.mask) := by cases op <;> rfl

/-! ### What a word needs to decode (R95, R96) -/

/-- A word is in the row of an opcode (R96): its OP, `w AND mask = match`, and the chunk length of DEC_BITS. -/
def InRow (op : Opcode) (w : Word) : Prop :=
  opField w = op.field ∧ w &&& op.format.mask = op.base ∧ (op = .decBits → legalChunkLength (nbitsField w))

theorem legalWord_iff {w : Word} : legalWord w = true ↔ ∃ op, InRow op w := by
  simp only [InRow, ← ofField_eq_some_iff]
  unfold legalWord
  cases hop : Opcode.ofField (opField w) with
  | none => simp
  | some op => simp [imp_iff_not_or]

theorem operands_wellFormed (op : Opcode) (w : Word) :
    (op.operands w).wellFormed = true ↔ (op = .decBits → legalChunkLength (nbitsField w)) := by
  cases op <;> simp [Opcode.operands, Instr.wellFormed]

theorem decode_eq_ok_iff {w : Word} {i : Instr} : decode w = .ok i ↔ ∃ op, InRow op w ∧ op.operands w = i := by
  simp only [InRow, ← ofField_eq_some_iff, ← operands_wellFormed]
  unfold decode
  cases hop : Opcode.ofField (opField w) with
  | none => simp
  | some op =>
    by_cases hm : w &&& op.format.mask = op.base <;> by_cases hwf : (op.operands w).wellFormed = true <;> simp [hm, hwf]

theorem exists_decode_iff {w : Word} : (∃ i, decode w = .ok i) ↔ ∃ op, InRow op w := by
  simp only [decode_eq_ok_iff]
  exact ⟨fun ⟨_, op, h, _⟩ => ⟨op, h⟩, fun ⟨op, h⟩ => ⟨op.operands w, op, h, rfl⟩⟩

/-! ### The fields of each format (R92, R93) -/

@[simp] theorem opField_wordN (op : BitVec 4) : opField (wordN op) = op := BitVec.extractLsb'_append_eq_left

@[simp] theorem opField_wordS (op : BitVec 4) (sym : Sym) : opField (wordS op sym) = op :=
  (BitVec.extractLsb'_append_eq_of_le (by omega)).trans BitVec.extractLsb'_append_eq_left

@[simp] theorem opField_wordI (op : BitVec 4) (idx : NodeIdx) : opField (wordI op idx) = op :=
  (BitVec.extractLsb'_append_eq_of_le (by omega)).trans BitVec.extractLsb'_append_eq_left

@[simp] theorem opField_wordB (op : BitVec 4) (nbits : BitVec 5) (bits : BitVec 16) :
    opField (wordB op nbits bits) = op := by
  unfold opField wordB
  rw [BitVec.extractLsb'_append_eq_of_le (by omega), BitVec.extractLsb'_append_eq_of_le (by omega)]
  exact BitVec.extractLsb'_append_eq_left

@[simp] theorem symField_wordS (op : BitVec 4) (sym : Sym) : symField (wordS op sym) = sym :=
  BitVec.extractLsb'_append_eq_right

@[simp] theorem idxField_wordI (op : BitVec 4) (idx : NodeIdx) : idxField (wordI op idx) = idx :=
  BitVec.extractLsb'_append_eq_right

@[simp] theorem nbitsField_wordB (op : BitVec 4) (nbits : BitVec 5) (bits : BitVec 16) :
    nbitsField (wordB op nbits bits) = nbits :=
  (BitVec.extractLsb'_append_eq_of_le (by omega)).trans BitVec.extractLsb'_append_eq_right

@[simp] theorem bitsField_wordB (op : BitVec 4) (nbits : BitVec 5) (bits : BitVec 16) :
    bitsField (wordB op nbits bits) = bits := BitVec.extractLsb'_append_eq_right

/-! ### Decoding what was encoded -/

/-- The opcode of a command (R94). -/
def opcodeOf : Instr → Opcode
  | .clear => .clear
  | .count _ => .count
  | .build => .build
  | .encStart => .encStart
  | .encSym _ => .encSym
  | .encEnd => .encEnd
  | .decStart => .decStart
  | .decBits _ _ => .decBits
  | .decEnd => .decEnd
  | .queryFreq _ => .queryFreq
  | .queryNode _ => .queryNode

theorem opField_encode (i : Instr) : opField (encode i) = (opcodeOf i).field := by
  cases i <;> simp [encode, opcodeOf, Opcode.field]

theorem operands_encode (i : Instr) : (opcodeOf i).operands (encode i) = i := by
  cases i <;> simp [encode, opcodeOf, Opcode.operands]

theorem legalWord_encode (i : Instr) (h : i.wellFormed = true) : legalWord (encode i) = true := by
  cases i with
  | clear => exact Laws.EncodingLegal.clear h
  | count sym => exact Laws.EncodingLegal.count sym h
  | build => exact Laws.EncodingLegal.build h
  | encStart => exact Laws.EncodingLegal.encStart h
  | encSym sym => exact Laws.EncodingLegal.encSym sym h
  | encEnd => exact Laws.EncodingLegal.encEnd h
  | decStart => exact Laws.EncodingLegal.decStart h
  | decBits nbits bits => exact Laws.EncodingLegal.decBits nbits bits h
  | decEnd => exact Laws.EncodingLegal.decEnd h
  | queryFreq sym => exact Laws.EncodingLegal.queryFreq sym h
  | queryNode idx => exact Laws.EncodingLegal.queryNode idx h

/-- Settles O1: the word of a well-formed command is legal, its row is the command's own, and its fields are the operands. -/
theorem decodeOfEncodeIsTheCommand : Obligations.DecodeOfEncodeIsTheCommand := by
  unfold Obligations.DecodeOfEncodeIsTheCommand
  intro i hwf
  obtain ⟨op, hrow⟩ := legalWord_iff.1 (legalWord_encode i hwf)
  have ⟨hfield, _⟩ := hrow
  have hop : opcodeOf i = op := opcodeField_injective ((opField_encode i).symm.trans hfield)
  exact decode_eq_ok_iff.2 ⟨op, hrow, hop ▸ operands_encode i⟩

/-! ### Encoding what was decoded -/

/-- A word whose bits at and above `n` are `x` is `x` and its own low `n` bits. -/
theorem append_extract_of_and_mask {m n : Nat} (x : BitVec m) (w : BitVec (m + n))
    (h : w &&& (BitVec.allOnes m ++ 0#n) = x ++ 0#n) : x ++ w.extractLsb' 0 n = w := by
  have hhigh : w.extractLsb' n m = x := by
    have := congrArg (BitVec.extractLsb' n m) h
    rwa [BitVec.extractLsb'_and, BitVec.extractLsb'_append_eq_left, BitVec.extractLsb'_append_eq_left,
      BitVec.and_allOnes] at this
  rw [← hhigh]
  exact BitVec.extractLsb'_append_extractLsb'

theorem wordS_symField {op : BitVec 4} {w : Word} (h : w &&& Format.s.mask = wordS op 0) : wordS op (symField w) = w :=
  append_extract_of_and_mask (n := 8) (op ++ 0#20) w h

theorem wordI_idxField {op : BitVec 4} {w : Word} (h : w &&& Format.i.mask = wordI op 0) : wordI op (idxField w) = w :=
  append_extract_of_and_mask (n := 9) (op ++ 0#19) w h

theorem wordB_nbitsField_bitsField {op : BitVec 4} {w : Word} (h : w &&& Format.b.mask = wordB op 0 0) :
    wordB op (nbitsField w) (bitsField w) = w := by
  have hzero : wordB op 0 0 = op ++ 0#7 ++ 0#21 := BitVec.append_assoc
  have hfields : nbitsField w ++ bitsField w = w.extractLsb' 0 21 :=
    BitVec.extractLsb'_append_extractLsb'_eq_extractLsb' rfl
  calc wordB op (nbitsField w) (bitsField w)
      = op ++ 0#7 ++ (nbitsField w ++ bitsField w) := BitVec.append_assoc
    _ = op ++ 0#7 ++ w.extractLsb' 0 21 := by rw [hfields]
    _ = w := append_extract_of_and_mask (n := 21) (op ++ 0#7) w (h.trans hzero)

theorem encode_operands {op : Opcode} {w : Word} (h : w &&& op.format.mask = op.base) : encode (op.operands w) = w := by
  have hwhole : op.format = .n → w = op.base := fun hn => by
    rw [← h, hn]
    exact BitVec.and_allOnes.symm
  cases op with
  | clear => exact (hwhole rfl).symm
  | build => exact (hwhole rfl).symm
  | encStart => exact (hwhole rfl).symm
  | encEnd => exact (hwhole rfl).symm
  | decStart => exact (hwhole rfl).symm
  | decEnd => exact (hwhole rfl).symm
  | count => exact wordS_symField h
  | encSym => exact wordS_symField h
  | queryFreq => exact wordS_symField h
  | queryNode => exact wordI_idxField h
  | decBits => exact wordB_nbitsField_bitsField h

/-- Settles O2: the row fixes every bit that is no operand, and the operands are all the others. -/
theorem encodeOfDecodeIsTheWord : Obligations.EncodeOfDecodeIsTheWord := by
  unfold Obligations.EncodeOfDecodeIsTheWord
  intro w i h
  obtain ⟨op, ⟨-, hmask, hchunk⟩, rfl⟩ := decode_eq_ok_iff.1 h
  exact ⟨(operands_wellFormed op w).2 hchunk, encode_operands hmask⟩

/-! ### Legal and illegal words (R96, R97) -/

/-- Settles O3: the row of the word's OP is the one row the map has at that place. -/
theorem legalWordsAreThoseOfTheOpcodeMap : Obligations.LegalWordsAreThoseOfTheOpcodeMap := by
  unfold Obligations.LegalWordsAreThoseOfTheOpcodeMap
  intro w
  rw [exists_decode_iff]
  constructor
  · rintro ⟨op, hop, hmask, hchunk⟩
    rw [show w.extractLsb' 28 4 = op.field from hop]
    exact ⟨exists_opcode_iff.1 ⟨op, rfl⟩, ⟨_, opcodeMap_field op, hmask⟩, hchunk ∘ opcodeField_toNat_eq_seven.1⟩
  · rintro ⟨hle, ⟨r, hr, hmask⟩, hchunk⟩
    obtain ⟨op, hop⟩ := exists_opcode_iff.2 hle
    rw [hop, opcodeMap_field, Option.some.injEq] at hr
    rw [hop] at hchunk
    subst hr
    exact ⟨op, hop, hmask, hchunk ∘ opcodeField_toNat_eq_seven.2⟩

theorem base_and_belowOp (op : Opcode) : op.base &&& 0x0FFFFFFF = 0 := by cases op <;> rfl

/-- Settles O4: each of the three kinds of word breaks a clause of its row, so the word is rejected undecoded. -/
theorem illegalWordsAreRejected : Obligations.IllegalWordsAreRejected := by
  unfold Obligations.IllegalWordsAreRejected
  refine ⟨rfl, rfl, fun w s hill => execute_illegal (fun i hi => ?_) s⟩
  obtain ⟨op, hop, hmask, hchunk⟩ := exists_decode_iff.1 ⟨i, hi⟩
  rw [show w.extractLsb' 28 4 = op.field from hop] at hill
  rcases hill with hreserved | ⟨r, hr, hbits⟩ | ⟨hseven, hlen⟩
  · have := exists_opcode_iff.1 ⟨op, rfl⟩
    omega
  · cases (opcodeMap_field op).symm.trans hr
    exact hbits (by rw [← BitVec.and_assoc, hmask, base_and_belowOp])
  · have hlegal : legalChunkLength (w.extractLsb' 16 5) := hchunk (opcodeField_toNat_eq_seven.1 hseven)
    omega

/-! ### The bits below a chunk (R93) -/

theorem chunkBits_congr {nbits : BitVec 5} {b b' : BitVec 16}
    (h : ∀ k, k < nbits.toNat → b.getLsbD (15 - k) = b'.getLsbD (15 - k)) : chunkBits nbits b = chunkBits nbits b' :=
  List.map_congr_left fun k hk => h k (List.mem_range.1 hk)

/-- Settles O5: DEC_BITS reads its BITS through the chunk alone. -/
theorem bitsBelowTheChunkAreIgnored : Obligations.BitsBelowTheChunkAreIgnored := by
  unfold Obligations.BitsBelowTheChunkAreIgnored
  intro nbits b b' s h
  simp only [exec, execDecBits, chunkBits_congr h]

end Sys2Proof.Machine

/-! SUPPORT. What BUILD leaves in a BUILT state, node by node and path by path: every internal node is a merge, every counted
symbol has one leaf and one path to it (40_builder.md R130 to R133). -/

namespace Sys2Proof.Machine

/-! ### The nodes of a BUILT state (R128, R130) -/

/-- A BUILT state with a node has the store of a tree that is not empty. -/
theorem builtStore_of_node {s : State} (hs : Inv s) (hb : s.phase = .built) {i : Nat} {nd : Node}
    (h : s.node[i]? = some nd) : BuiltStore (seedLeaves s.freq) s.total.toNat s.node := by
  obtain ⟨hl, hc, ht, -⟩ := hs
  refine builtStore_of_inv hl hc ht hb fun hL => ?_
  obtain ⟨hnode, -, -⟩ := ht.2 hb
  rw [hnode, buildNodes_empty _ _ hL] at h
  simp at h

theorem mergedAt_of_nleaf_le {s : State} (hs : Inv s) (hb : s.phase = .built) {i : Nat} {nd : Node}
    (hi : s.nleaf.toNat ≤ i) (h : s.node[i]? = some nd) : MergedAt s.node i nd := by
  have ⟨_, _, ht, _⟩ := hs
  refine (builtStore_of_node hs hb h).merged i nd ?_ h
  rwa [seedLeaves_length, ← nleaf_toNat ht hb]

/-- The children of a merge stand in the order of their keys: LEFT was extracted first (R131, R132). -/
theorem MergedAt.keyBefore_left_right {node : List Node} {i : Nat} {nd : Node} (m : MergedAt node i nd) :
    KeyBefore node nd.left.toNat nd.right.toNat :=
  m.left_min _ m.right_lt m.ne.symm m.right_free

/-- Settles O37: a node at NLEAF or above is a merge, and the children of a merge are below it in the store. -/
theorem internalNodesMergeTheTwoSmallest : Obligations.InternalNodesMergeTheTwoSmallest := by
  unfold Obligations.InternalNodesMergeTheTwoSmallest
  intro s i nd hs hb hi h
  have m := mergedAt_of_nleaf_le hs hb hi h
  have hlt := (List.getElem?_eq_some_iff.1 h).1
  have hx := List.getElem?_eq_getElem (m.left_lt.trans hlt)
  have hy := List.getElem?_eq_getElem (m.right_lt.trans hlt)
  exact ⟨m.leaf, m.sym, m.left_lt, m.right_lt, fun e => m.ne (congrArg BitVec.toNat e), m.left_free, m.right_free,
    m.keyBefore_left_right, fun j hj h1 h2 hfree => ⟨m.left_min j hj h1 hfree, m.right_min j hj h1 h2 hfree⟩,
    _, _, hx, hy, m.sum _ _ hx hy⟩

/-! ### The leaf of a symbol (R128, R133) -/

theorem leafIdx_inj {freq : Vector Count 256} {a b : Sym} (ha : freqAt freq a ≠ 0) (hb : freqAt freq b ≠ 0)
    (h : leafIdx freq a = leafIdx freq b) : a = b := by
  have hpa := presentSymbols_leafIdx freq ha
  rw [h, presentSymbols_leafIdx freq hb] at hpa
  exact (Option.some.inj hpa).symm

/-- A leaf of a BUILT state stands at the place of its symbol: no symbol has two leaves. -/
theorem eq_leafIdx_of_leaf {s : State} (hs : Inv s) (hb : s.phase = .built) {i : Nat} {nd : Node}
    (h : s.node[i]? = some nd) (hl : nd.leaf = true) : i = leafIdx s.freq nd.sym := by
  have ⟨_, _, ht, _⟩ := hs
  have hlt : i < leafCount s.freq := by
    by_contra hge
    have m := mergedAt_of_nleaf_le hs hb (by rw [nleaf_toNat ht hb]; omega) h
    simp [m.leaf] at hl
  have hsym : (presentSymbols s.freq)[i]? = some nd.sym := by
    rw [(builtStore_of_node hs hb h).seed_at (by rwa [seedLeaves_length])] at h
    rw [← seedLeaves_map_sym, List.getElem?_map, h, Option.map_some]
  have hcounted := (mem_presentSymbols s.freq nd.sym).1 (List.mem_of_getElem? hsym)
  exact (List.getElem?_inj hlt (presentSymbols_nodup s.freq)).1
    (hsym.trans (presentSymbols_leafIdx s.freq hcounted).symm)

/-- The node index of a symbol's leaf, where the symbol's code ends (R128, R151). -/
def leafNodeIdx (freq : Vector Count 256) (sym : Sym) : NodeIdx := BitVec.ofNat 9 (leafIdx freq sym)

theorem leafNodeIdx_toNat {freq : Vector Count 256} {sym : Sym} (h : freqAt freq sym ≠ 0) :
    (leafNodeIdx freq sym).toNat = leafIdx freq sym := by
  have := leafIdx_lt freq h
  have := leafCount_le freq
  rw [leafNodeIdx, BitVec.toNat_ofNat]
  omega

theorem node_leafNodeIdx {s : State} (hs : Inv s) (hb : s.phase = .built) {sym : Sym} (h : freqAt s.freq sym ≠ 0) :
    s.node[(leafNodeIdx s.freq sym).toNat]? = some (leafNode s.freq sym) := by
  obtain ⟨hl, hc, ht, -⟩ := hs
  rw [leafNodeIdx_toNat h]
  exact leaf_at_leafIdx hl hc ht hb h

/-! ### Paths from ROOT (R133, R151) -/

/-- Settles O41: every node of the store is reached from ROOT, by one path only, and the symbol's leaf is one of them. -/
theorem everyCountedSymbolHasExactlyOnePath : Obligations.EveryCountedSymbolHasExactlyOnePath := by
  unfold Obligations.EveryCountedSymbolHasExactlyOnePath
  intro s sym hs hb hf
  have hnode := node_leafNodeIdx hs hb hf
  have hstore := builtStore_of_node hs hb hnode
  have hleaves := seedLeaves_leaf s.freq
  have hL : (seedLeaves s.freq).length ≤ 256 := by rw [seedLeaves_length]; exact leafCount_le s.freq
  have ⟨hl, hc, ht, _⟩ := hs
  rw [root_eq_lastIdx hl hc ht hb]
  obtain ⟨p, hp⟩ := hstore.reach hleaves hL _ (List.getElem?_eq_some_iff.1 hnode).1
  refine ⟨p, _, _, hp, hnode, rfl, rfl, ?_⟩
  rintro p' n' nd' hp' hn' hleaf rfl
  have hn : n' = leafNodeIdx s.freq nd'.sym :=
    BitVec.eq_of_toNat_eq ((eq_leafIdx_of_leaf hs hb hn' hleaf).trans (leafNodeIdx_toNat hf).symm)
  subst hn
  exact ⟨hstore.path_unique hleaves hL hp' hp, rfl⟩

/-- A walk goes nowhere from a leaf. -/
theorem walk_from_leaf {node : List Node} {p : List Bool} {n m : NodeIdx} {nd : Node} (hn : node[n.toNat]? = some nd)
    (hl : nd.leaf = true) (h : walk node p n = some m) : m = n := by
  cases p with
  | nil => exact (Option.some.inj h).symm
  | cons b bs => simp [walk, hn, hl] at h

/-- Settles O42: the walk along a longer code passes the leaf where the shorter one ends, and cannot go on from there. -/
theorem codesArePrefixFree : Obligations.CodesArePrefixFree := by
  unfold Obligations.CodesArePrefixFree
  intro s a b ca cb hs hb h2 ha hb' hne hca hcb hprefix
  have ⟨hl, hc, ht, _⟩ := hs
  have path {sym code} (hf : freqAt s.freq sym ≠ 0) (hcode : codeOf s sym = some code) :
      walk s.node code s.root = some (leafNodeIdx s.freq sym) := by
    obtain ⟨code', hcode', hwalk, -⟩ := codeOf_path hl hc ht hb h2 hf
    cases hcode.symm.trans hcode'
    exact hwalk
  obtain ⟨rest, rfl⟩ := hprefix
  have hrest : walk s.node rest (leafNodeIdx s.freq a) = some (leafNodeIdx s.freq b) := by
    simpa [walk_append, path ha hca] using path hb' hcb
  have hsame := congrArg BitVec.toNat (walk_from_leaf (node_leafNodeIdx hs hb ha) rfl hrest)
  rw [leafNodeIdx_toNat ha, leafNodeIdx_toNat hb'] at hsame
  exact hne (leafIdx_inj ha hb' hsame.symm)

/-- Settles O40: ROOT is the last entry of the store, whose FREQ the merges made the sum of the counts. -/
theorem rootFrequencyIsTheTotal : Obligations.RootFrequencyIsTheTotal := by
  unfold Obligations.RootFrequencyIsTheTotal
  intro s hs hb hn
  obtain ⟨hl, hc, ht, -⟩ := hs
  have hcount : leafCount s.freq ≠ 0 := fun h => hn (BitVec.eq_of_toNat_eq ((nleaf_toNat ht hb).trans h))
  have hstore := builtStore_of_inv hl hc ht hb hcount
  have hlen := hstore.length
  rw [seedLeaves_length] at hlen
  rw [root_eq_lastIdx hl hc ht hb, hstore.lastIdx_toNat (by rw [seedLeaves_length]; exact leafCount_le s.freq)]
  have hlast := List.getElem?_eq_getElem (show s.node.length - 1 < s.node.length by omega)
  exact ⟨by omega, _, hlast, BitVec.eq_of_toNat_eq (hstore.rootFreq _ hlast)⟩

end Sys2Proof.Machine

/-! SUPPORT. What the builder's commands do from any state: CLEAR, COUNT and BUILD as equations, the size of the store BUILD
leaves, and the order of COUNT commands (40_builder.md R121 to R131). -/

namespace Sys2Proof.Machine

/-! ### CLEAR (R121) -/

/-- Only CLEAR's own word decodes with OP 0x0 (R94, R97). -/
theorem eq_zero_of_decode_op_zero {w : Word} {i : Instr} (hop : opField w = 0) (h : decode w = .ok i) : w = 0 := by
  obtain ⟨op, ⟨hfield, hmask, -⟩, -⟩ := decode_eq_ok_iff.1 h
  have hclear : op = .clear := opcodeField_injective (hfield.symm.trans hop)
  subst hclear
  exact (encode_operands hmask).symm

/-- Settles O32: CLEAR's values are those of reset, and another word with OP 0x0 does not decode. -/
theorem clearGivesTheResetValues : Obligations.ClearGivesTheResetValues := by
  unfold Obligations.ClearGivesTheResetValues
  exact ⟨rfl, fun w s hop hne => execute_illegal (fun i hi => hne (eq_zero_of_decode_op_zero hop hi)) s,
    fun s => rfl, rfl⟩

/-! ### COUNT (R123, R124) -/

/-- What an accepted COUNT leaves (R123). -/
def State.countedOnce (s : State) (sym : Sym) : State :=
  { s with
    freq := setFreq s.freq sym (addCount s.params (freqAt s.freq sym) 1)
    total := addCount s.params s.total 1, result := .ok }

theorem exec_count_built {s : State} (hp : s.phase = .built) (sym : Sym) :
    exec (.count sym) s = .next { s with result := .phaseError } := by
  simp [exec, execCount, reject, State.withResult, hp]

theorem exec_count_full {s : State} (hp : s.phase = .count) (hm : s.total.toNat = maxTotal s.params) (sym : Sym) :
    exec (.count sym) s = .next { s with result := .freqOverflow } := by
  simp [exec, execCount, reject, State.withResult, hp, hm]

theorem exec_count_accepted {s : State} (hp : s.phase = .count) (hm : s.total.toNat ≠ maxTotal s.params) (sym : Sym) :
    exec (.count sym) s = .next (s.countedOnce sym) := by
  simp [exec, execCount, finishOk, State.withResult, State.countedOnce, hp, hm]

/-- A format S word is its OP and its SYM in disjoint bits (R92). -/
theorem wordS_eq_or (op : BitVec 4) (sym : Sym) : wordS op sym = wordS op 0 ||| sym.setWidth 32 := by
  apply BitVec.eq_of_getLsbD_eq
  intro i hi
  simp only [wordS, BitVec.getLsbD_or, BitVec.getLsbD_append, BitVec.getLsbD_setWidth, hi]
  split
  · simp
  · simp [BitVec.getLsbD_of_ge sym i (by omega)]

/-- Settles O33: the three equations of COUNT, whose two additions stay below 2^FREQ_W. -/
theorem countCommand : Obligations.CountCommand := by
  unfold Obligations.CountCommand
  refine ⟨wordS_eq_or 0x1, fun sym s hp => exec_count_built hp sym, fun sym s hp hm => exec_count_full hp hm sym,
    fun sym s hl hc hp hm => ?_⟩
  obtain ⟨htotal, hfreq⟩ := addCount_one hl hc hm sym
  have hsum : addCount s.params s.total 1 = s.total + 1 := by
    apply BitVec.eq_of_toNat_eq
    have hlt := (addCount s.params s.total 1).isLt
    rw [htotal] at hlt ⊢
    exact (BitVec.toNat_add_of_lt (x := s.total) (y := 1) hlt).symm
  rw [hsum] at htotal
  refine ⟨setFreq s.freq sym (addCount s.params (freqAt s.freq sym) 1), ?_, ?_, htotal, fun x hx => ?_⟩
  · rw [exec_count_accepted hp hm, State.countedOnce, hsum]
  · rw [freqAt_setFreq, if_pos rfl, hfreq]
  · rw [freqAt_setFreq, if_neg hx]

/-! ### BUILD as equations (R126) -/

theorem exec_build_built {s : State} (hp : s.phase = .built) : exec .build s = .next { s with result := .phaseError } := by
  simp [exec, execBuild, reject, State.withResult, hp]

theorem exec_build_accepted {s : State} (hp : s.phase = .count) : exec .build s = .next (s.builtTree.withResult .ok) := by
  simp [exec, execBuild, finishOk, hp]

/-! ### The order of COUNT commands (R125) -/

/-- Whether COUNT is accepted depends on PHASE and TOTAL, not on its symbol (R123). -/
theorem runOk_count_cons (sym : Sym) (is : List Instr) (s : State) :
    runOk (.count sym :: is) s =
      if s.phase = .count ∧ s.total.toNat ≠ maxTotal s.params then runOk is (s.countedOnce sym) else none := by
  cases hp : s.phase with
  | built => simp [runOk, exec_count_built hp]
  | count =>
    by_cases hm : s.total.toNat = maxTotal s.params
    · simp [runOk, exec_count_full hp hm, hm]
    · simp [runOk, exec_count_accepted hp hm, hm, State.countedOnce]

theorem countedOnce_comm (s : State) (a b : Sym) : (s.countedOnce a).countedOnce b = (s.countedOnce b).countedOnce a := by
  by_cases h : a = b
  · rw [h]
  · simp only [State.countedOnce, freqAt_setFreq, if_neg h, if_neg (Ne.symm h), setFreq_comm s.freq h]

theorem runOk_count_swap (a b : Sym) (is : List Instr) (s : State) :
    runOk (.count a :: .count b :: is) s = runOk (.count b :: .count a :: is) s := by
  simp only [runOk_count_cons]
  rw [countedOnce_comm]
  rfl

/-- Two lists of COUNT commands with the same symbols end alike: neighbours may be swapped (R125). -/
theorem runOk_count_perm {l l' : List Sym} (h : l.Perm l') (s : State) :
    runOk (l.map .count) s = runOk (l'.map .count) s := by
  induction h generalizing s with
  | nil => rfl
  | cons x _ ih => simp only [List.map_cons, runOk_count_cons, ih]
  | swap x y l => exact runOk_count_swap y x _ s
  | trans _ _ ih1 ih2 => exact (ih1 s).trans (ih2 s)

/-- Settles O34: COUNT commands commute, and BUILD reads the parameters and the frequency table alone. -/
theorem orderOfCountsDoesNotMatter : Obligations.OrderOfCountsDoesNotMatter := by
  unfold Obligations.OrderOfCountsDoesNotMatter
  refine ⟨fun l l' s h => runOk_count_perm h s, fun s s' hp hp' hparams hfreq => ?_⟩
  refine ⟨_, _, exec_build_accepted hp, exec_build_accepted hp', ?_⟩
  simp [hparams, hfreq]

/-! ### The store BUILD leaves, whatever the counts are (R128 to R130) -/

/-- Each merge takes two members and makes one node and one member, so members and nodes together stay as many (R130). -/
theorem buildNodes_length (p : Params) (freq : Vector Count 256) :
    (buildNodes p freq).length = leafCount freq + (leafCount freq - 1) := by
  have hitems := seedItems_length 0 (seedLeaves freq)
  have hleaves := seedLeaves_length freq
  obtain ⟨w, hnone, hone, hsum⟩ := reduceForest_induction p
    (fun w node => w.length + node.length = 2 * leafCount freq)
    (fun w node a w1 b w2 h ha hb => by
      have := extractMin_length ha
      have := extractMin_length hb
      simp only [List.length_append, List.length_singleton]
      omega)
    (seedLeaves freq).length (seedItems 0 (seedLeaves freq)) (seedLeaves freq) (by omega) (by omega)
  change w.length + (buildNodes p freq).length = _ at hsum
  by_cases hL : leafCount freq = 0
  · have := List.length_eq_zero_iff.2 (hnone (List.length_eq_zero_iff.1 (by omega)))
    omega
  · have := hone (fun h => by simp [h] at hitems; omega)
    omega

theorem seedLeaves_prefix_buildNodes (p : Params) (freq : Vector Count 256) : seedLeaves freq <+: buildNodes p freq := by
  obtain ⟨-, -, -, h⟩ := reduceForest_induction p (fun _ node => seedLeaves freq <+: node)
    (fun w node a w1 b w2 h _ _ => h.trans (List.prefix_append _ _))
    (seedLeaves freq).length (seedItems 0 (seedLeaves freq)) (seedLeaves freq)
    (by rw [seedItems_length]; omega) List.prefix_rfl
  exact h

theorem buildRoot_toNat (p : Params) (freq : Vector Count 256) :
    (buildRoot p freq).toNat = if leafCount freq ≤ 1 then 0 else 2 * leafCount freq - 2 := by
  have := leafCount_le freq
  have := buildNodes_length p freq
  unfold buildRoot
  split
  · rfl
  · rw [BitVec.toNat_ofNat]
    omega

theorem builtTree_nleaf_toNat (s : State) : s.builtTree.nleaf.toNat = leafCount s.freq := by
  have := leafCount_le s.freq
  rw [State.builtTree_nleaf, BitVec.toNat_ofNat]
  omega

/-- `P` as the statements write it out is `P` as BUILD reads it (R128). -/
theorem counted_eq_presentSymbols (s : State) : Statements.counted s = presentSymbols s.freq :=
  List.filter_congr fun sym _ => Bool.eq_iff_iff.2 (by simp)

/-- Settles O35: the sizes of the store are those of the forest reduction, which keeps members and nodes together constant. -/
theorem buildCommand : Obligations.BuildCommand := by
  unfold Obligations.BuildCommand
  refine ⟨rfl, fun s hp => exec_build_built hp, fun s hp => ?_⟩
  rw [counted_length]
  refine ⟨_, _, _, exec_build_accepted hp, builtTree_nleaf_toNat s, buildRoot_toNat s.params s.freq, ?_⟩
  rw [State.builtTree_node, buildNodes_length]
  split <;> omega

/-- Settles O36: the leaves BUILD seeds are the first entries of the store it leaves. -/
theorem leavesStandInSymbolOrder : Obligations.LeavesStandInSymbolOrder := by
  unfold Obligations.LeavesStandInSymbolOrder
  intro s t hp ht
  cases (exec_build_accepted hp).symm.trans ht
  have hprefix := seedLeaves_prefix_buildNodes s.params s.freq
  rw [counted_eq_presentSymbols]
  refine ⟨builtTree_nleaf_toNat s, ?_, fun sym hf => ⟨leafNode s.freq sym, ?_, rfl⟩⟩
  · have htake := List.prefix_iff_eq_take.1 hprefix
    rw [seedLeaves_length] at htake
    exact htake.symm
  · obtain ⟨inner, hnode⟩ := hprefix
    change s.builtTree.node[leafIdx s.freq sym]? = _
    rw [State.builtTree_node, ← hnode, List.getElem?_append_left (by rw [seedLeaves_length]; exact leafIdx_lt s.freq hf),
      seedLeaves, List.getElem?_map, presentSymbols_leafIdx s.freq hf, Option.map_some]

/-! ### The priority queue (R131) -/

/-- Settles O38: nothing in the set is before the member taken, which is one of the set. -/
theorem extractMinTakesTheSmallestKey : Obligations.ExtractMinTakesTheSmallestKey := by
  unfold Obligations.ExtractMinTakesTheSmallestKey
  refine ⟨fun w rest m h => ⟨extractMin_perm h, fun x hx => ?_⟩, fun w => extractMin_isSome⟩
  obtain ⟨-, -, hmin⟩ := extractMin_eq_some h
  have hnot : ¬x.before m = true := by simp [hmin x hx]
  rw [Item.before_iff] at hnot
  omega

end Sys2Proof.Machine

/-! SUPPORT. What the commands of the two codecs do from any state: ENC_START, ENC_SYM and ENC_END as equations, what they
leave unchanged, and the sessions on the empty tree (41_encoder.md R151 to R163). -/

namespace Sys2Proof.Machine

/-! ### The code of a symbol (R151, R152, R162) -/

/-- Settles O43: a code is the single bit of a one-leaf tree, or the path from ROOT to the symbol's leaf. -/
theorem codesAreThePathsAndTheirLengthsAreBounded : Obligations.CodesAreThePathsAndTheirLengthsAreBounded := by
  unfold Obligations.CodesAreThePathsAndTheirLengthsAreBounded
  intro s sym hs hb hf
  obtain ⟨code, hcode⟩ := codeOf_isSome hs hb hf
  refine ⟨code, hcode, fun h1 => ?_, fun h2 => ?_⟩
  · exact Option.some.inj (hcode.symm.trans (codeOf_single h1 sym))
  · have ⟨hl, hc, ht, _⟩ := hs
    have hn := nleaf_toNat ht hb
    have hle := leafCount_le s.freq
    obtain ⟨path, hpath, hwalk, hpos, hlen⟩ := codeOf_path hl hc ht hb h2 hf
    cases hcode.symm.trans hpath
    exact ⟨⟨_, _, hwalk, node_leafNodeIdx hs hb hf, rfl, rfl⟩, hpos, by omega, by omega⟩

/-! ### ENC_START (R153) -/

theorem exec_encStart_count {s : State} (hp : s.phase = .count) : exec .encStart s = .next (s.withResult .phaseError) := by
  simp [exec, execEncStart, reject, hp]

theorem exec_encStart_built {s : State} (hp : s.phase = .built) : exec .encStart s = .next (s.openEncoder.withResult .ok) := by
  simp [exec, execEncStart, finishOk, hp]

/-- Settles O44: the two equations of ENC_START. -/
theorem encStartCommand : Obligations.EncStartCommand := by
  unfold Obligations.EncStartCommand
  exact ⟨rfl, fun s hp => exec_encStart_count hp, fun s hp => exec_encStart_built hp⟩

/-! ### ENC_SYM (R155, R156) -/

theorem exec_encSym_rejected {s : State} {c : ResultCode} (h : sessionCheck .encoder s = some c) (sym : Sym) :
    exec (.encSym sym) s = .next (s.withResult c) := by
  simp [exec, execEncSym, reject, h]

theorem exec_encSym_uncounted {s : State} {sym : Sym} (hp : s.phase = .built) (ha : s.encState = .active)
    (hf : freqAt s.freq sym = 0) :
    exec (.encSym sym) s = .next (s.failSession .encoder .unknownSymbol (sym.setWidth 32)) := by
  simp [exec, execEncSym, sessionCheck_active (u := .encoder) hp ha, hf]

theorem exec_encSym_full {s : State} {sym : Sym} {code : List Bool} (hp : s.phase = .built) (ha : s.encState = .active)
    (hf : freqAt s.freq sym ≠ 0) (hcode : codeOf s sym = some code)
    (hfull : s.params.encDepth - s.encFifo.length < wordsCompleted s code) :
    exec (.encSym sym) s = .next (s.withResult .outputFull) := by
  simp only [exec, execEncSym, reject, sessionCheck_active (u := .encoder) hp ha, if_neg hf, hcode, if_pos hfull]

theorem exec_encSym_accepted {s : State} {sym : Sym} {code : List Bool} (hp : s.phase = .built) (ha : s.encState = .active)
    (hf : freqAt s.freq sym ≠ 0) (hcode : codeOf s sym = some code)
    (hroom : wordsCompleted s code ≤ s.params.encDepth - s.encFifo.length) :
    exec (.encSym sym) s = .next ((emitCode s code).withResult .ok) := by
  simp only [exec, execEncSym, finishOk, sessionCheck_active (u := .encoder) hp ha, if_neg hf, hcode,
    if_neg (Nat.not_lt.2 hroom)]

/-- Settles O46: the checks of ENC_SYM in their order, each as an equation. -/
theorem encSymRejectsAndFails : Obligations.EncSymRejectsAndFails := by
  unfold Obligations.EncSymRejectsAndFails
  refine ⟨wordS_eq_or 0x4, fun sym s => ⟨fun hp => ?_, fun hp hi => ?_, fun hp hx => ?_, fun hp ha hf => ?_,
    fun hp ha hf code hcode hfull => ?_⟩⟩
  · exact exec_encSym_rejected (sessionCheck_count hp) sym
  · exact exec_encSym_rejected (sessionCheck_idle hi) sym
  · exact exec_encSym_rejected (sessionCheck_failed hp hx) sym
  · exact exec_encSym_uncounted hp ha hf
  · exact exec_encSym_full hp ha hf hcode hfull

/-- Settles O45: the code's bits go behind the bits held, and the words completed behind those in ENC_FIFO. -/
theorem encSymAppendsTheCode : Obligations.EncSymAppendsTheCode := by
  unfold Obligations.EncSymAppendsTheCode
  intro sym s code hp ha hf hcode hroom
  obtain ⟨hbits, haccn, hlen, ⟨fifo, hfifo⟩, -⟩ := appendBits_spec code s
  refine ⟨(appendBits s code).encAcc, (appendBits s code).encAccn, fifo, ?_, ?_, ?_, haccn⟩
  · rw [exec_encSym_accepted hp ha hf hcode hroom, emitCode_frame, hfifo]
    rfl
  · rw [hfifo]
    exact hbits
  · rw [← hfifo, List.length_append] at hlen
    omega

/-- One code completes at most 8 words: 31 bits held and a code of 255 bits are fewer than 9 words (R9, R157). -/
theorem wordsCompleted_le {s : State} {sym : Sym} {code : List Bool} (h : codeOf s sym = some code) :
    wordsCompleted s code ≤ 8 := by
  have := codeOf_length h
  have := s.encAccn.isLt
  unfold wordsCompleted
  omega

/-- Settles O47: ENC_DEPTH is at least the 8 words a code can complete. -/
theorem encSymIntoAnEmptyFifoHasRoom : Obligations.EncSymIntoAnEmptyFifoHasRoom := by
  unfold Obligations.EncSymIntoAnEmptyFifoHasRoom
  intro sym s hs hp ha hf
  refine ⟨fun code hcode => wordsCompleted_le hcode, fun hempty => ?_⟩
  obtain ⟨code, hcode⟩ := codeOf_isSome hs hp hf
  obtain ⟨⟨-, ⟨hdepth, -⟩, -⟩, -⟩ := hs
  have hwords := wordsCompleted_le hcode
  exact ⟨_, exec_encSym_accepted hp ha hf hcode (by rw [hempty, List.length_nil]; omega), rfl⟩

/-! ### ENC_END (R160) -/

theorem exec_encEnd_rejected {s : State} {c : ResultCode} (h : sessionCheck .encoder s = some c) :
    exec .encEnd s = .next (s.withResult c) := by
  simp [exec, execEncEnd, reject, h]

/-- ENC_END of an open session closes it, unless a partial word finds no free entry. -/
theorem exec_encEnd_active {s : State} (hp : s.phase = .built) (ha : s.encState = .active) :
    exec .encEnd s = .next
      (if s.encAccn ≠ 0 ∧ s.params.encDepth - s.encFifo.length < 1 then s.withResult .outputFull
        else { flushWord s with encState := .idle, result := .ok }) := by
  simp only [exec, execEncEnd, sessionCheck_active (u := .encoder) hp ha]
  split <;> rfl

theorem exec_encEnd_aligned {s : State} (hp : s.phase = .built) (ha : s.encState = .active) (hn : s.encAccn = 0) :
    exec .encEnd s = .next { s with encState := .idle, result := .ok } := by
  rw [exec_encEnd_active hp ha, if_neg (fun h => h.1 hn), flushWord, if_pos hn]

/-- Settles O48: the equations of ENC_END, and what the invariant says of the partial word. -/
theorem encEndCommand : Obligations.EncEndCommand := by
  unfold Obligations.EncEndCommand
  refine ⟨rfl, fun s => ⟨fun hp => ?_, fun hp hi => ?_, fun hp hx => ?_, fun hp ha hn hroom => ?_,
    fun hp ha hn => exec_encEnd_aligned hp ha hn, fun hp ha hn hroom => ?_, fun hs ha => ?_⟩⟩
  · exact exec_encEnd_rejected (sessionCheck_count hp)
  · exact exec_encEnd_rejected (sessionCheck_idle hi)
  · exact exec_encEnd_rejected (sessionCheck_failed hp hx)
  · rw [exec_encEnd_active hp ha, if_pos ⟨hn, hroom⟩]
    rfl
  · rw [exec_encEnd_active hp ha, if_neg (by omega), flushWord, if_neg hn]
  · obtain ⟨-, -, -, -, ⟨-, -, hzero, -, hcount⟩, -⟩ := hs
    refine ⟨?_, (lowZero_iff _ _).1 hzero⟩
    rw [hcount (by simp [ha])]
    exact BitVec.toNat_inj (y := 0)

/-! ### What the codec's commands may write (R154, R183) -/

/-- `t` differs from `s` at most in the encoder's own fields, RESULT and ERR_INFO. -/
def EncoderFrame (s t : State) : Prop :=
  t = { s with
        encState := t.encState, encErr := t.encErr, encAcc := t.encAcc, encAccn := t.encAccn
        encBitcnt := t.encBitcnt, encFifo := t.encFifo, result := t.result, errInfo := t.errInfo }

/-- `t` differs from `s` at most in the decoder's own fields, RESULT and ERR_INFO. -/
def DecoderFrame (s t : State) : Prop :=
  t = { s with
        decState := t.decState, decErr := t.decErr, decCursor := t.decCursor, decPos := t.decPos
        decFifo := t.decFifo, result := t.result, errInfo := t.errInfo }

theorem encoderFrame_encStart {s t : State} (h : execEncStart s = .next t) : EncoderFrame s t := by
  rcases execEncStart_next h with ⟨-, rfl⟩ | ⟨-, rfl⟩ <;> rfl

theorem encoderFrame_encSym {sym : Sym} {s t : State} (h : execEncSym sym s = .next t) : EncoderFrame s t := by
  rcases execEncSym_next h with ⟨c, -, rfl⟩ | ⟨-, -, -, rfl⟩ | ⟨-, -, -, code, -, -, rfl⟩
  · rfl
  · rfl
  · rw [emitCode_frame]
    rfl

theorem encoderFrame_encEnd {s t : State} (h : execEncEnd s = .next t) : EncoderFrame s t := by
  rcases execEncEnd_next h with ⟨c, -, rfl⟩ | ⟨-, -, -, rfl⟩
  · rfl
  · rw [flushWord_frame]
    rfl

theorem decoderFrame_decStart {s t : State} (h : execDecStart s = .next t) : DecoderFrame s t := by
  rcases execDecStart_next h with ⟨-, rfl⟩ | ⟨-, rfl⟩ <;> rfl

theorem decoderFrame_decChunk {bs : List Bool} {s t : State} (h : decChunk bs s = .next t) : DecoderFrame s t := by
  rcases decChunk_cases bs s with hc | ⟨cur, syms, k, -, -, -, hc⟩ | ⟨cur, syms, -, hc⟩ <;> cases hc.symm.trans h <;> rfl

theorem decoderFrame_decBits {nbits : BitVec 5} {bits : BitVec 16} {s t : State} (h : execDecBits nbits bits s = .next t) :
    DecoderFrame s t := by
  rcases execDecBits_next h with ⟨c, -, rfl⟩ | ⟨-, -, -, rfl⟩ | ⟨-, -, -, -, hwalk⟩
  · rfl
  · rfl
  · exact decoderFrame_decChunk hwalk

theorem decoderFrame_decEnd {s t : State} (h : execDecEnd s = .next t) : DecoderFrame s t := by
  rcases execDecEnd_next h with ⟨c, -, rfl⟩ | ⟨-, -, -, rfl⟩ | ⟨-, -, -, rfl⟩ <;> rfl

/-- Settles O28: command by command, what it can have done is an update of its own unit's fields. -/
theorem codecCommandsNeverWriteTheTree : Obligations.CodecCommandsNeverWriteTheTree := by
  unfold Obligations.CodecCommandsNeverWriteTheTree
  intro i s t h
  constructor
  · rintro (rfl | rfl | ⟨sym, rfl⟩)
    · exact encoderFrame_encStart h
    · exact encoderFrame_encEnd h
    · exact encoderFrame_encSym h
  · rintro (rfl | rfl | ⟨nbits, bits, rfl⟩)
    · exact decoderFrame_decStart h
    · exact decoderFrame_decEnd h
    · exact decoderFrame_decBits h

/-! ### The empty tree (R163, R192) -/

theorem exec_decStart_built {s : State} (hp : s.phase = .built) : exec .decStart s = .next (s.openDecoder.withResult .ok) := by
  simp [exec, execDecStart, finishOk, hp]

theorem exec_decBits_empty {s : State} (hp : s.phase = .built) (ha : s.decState = .active) (hn : s.nleaf = 0)
    {nbits : BitVec 5} (hlegal : legalChunkLength nbits) (bits : BitVec 16) :
    exec (.decBits nbits bits) s = .next (s.failSession .decoder .emptyTreeDecode (s.decPos.setWidth 32)) := by
  simp [exec, execDecBits, sessionCheck_active (u := .decoder) hp ha, hn, hlegal]

theorem exec_decEnd_closed {s : State} (hp : s.phase = .built) (ha : s.decState = .active) (hc : s.decCursor = s.root) :
    exec .decEnd s = .next { s with decState := .idle, result := .ok } := by
  simp [exec, execDecEnd, finishOk, State.withResult, sessionCheck_active (u := .decoder) hp ha, hc]

/-- The tree without a leaf is that of a table without a count (R41, R129). -/
theorem freqAt_eq_zero_of_nleaf {s : State} (hs : Inv s) (hp : s.phase = .built) (hn : s.nleaf = 0) (sym : Sym) :
    freqAt s.freq sym = 0 := by
  obtain ⟨-, -, ht, -⟩ := hs
  by_contra hf
  have hlt := leafIdx_lt s.freq hf
  rw [← nleaf_toNat ht hp, hn] at hlt
  exact absurd hlt (Nat.not_lt_zero _)

/-- Where both commands of a pair end OK, the pair runs to the state of the second. -/
theorem runOk_pair {i j : Instr} {s t u : State} (hi : exec i s = .next t) (ht : t.result = .ok) (hj : exec j t = .next u)
    (hu : u.result = .ok) : runOk [i, j] s = some u := by
  simp [runOk, hi, ht, hj, hu]

/-- Settles O50: a new session holds no bit and its cursor rests at ROOT, no symbol is counted, and no bit is consumed. -/
theorem emptyTreeSessions : Obligations.EmptyTreeSessions := by
  unfold Obligations.EmptyTreeSessions
  intro s hs hp hn
  refine ⟨⟨_, runOk_pair (exec_encStart_built hp) rfl (exec_encEnd_aligned hp rfl rfl) rfl, rfl, rfl⟩,
    ⟨_, runOk_pair (exec_decStart_built hp) rfl (exec_decEnd_closed hp rfl rfl) rfl, rfl⟩,
    fun ha sym => exec_encSym_uncounted hp ha (freqAt_eq_zero_of_nleaf hs hp hn sym),
    fun ha nbits bits h1 h16 => ?_⟩
  obtain ⟨-, -, -, -, -, ⟨-, -, -, -, hpos⟩⟩ := hs
  have hinfo : s.decPos.setWidth 32 = (0 : Word) := by rw [hpos (by simp [ha]) hn]; rfl
  rw [exec_decBits_empty hp ha hn ⟨h1, h16⟩ bits, hinfo]
  rfl

end Sys2Proof.Machine

/-! SUPPORT. The encoder's output law (41_encoder.md R159 to R161): what is read, in ENC_FIFO and in ENC_ACC is the sequence of
codes, whatever the host reads between the commands. -/

namespace Sys2Proof.Machine

open Statements (runReadingWords)

/-! ### From one state of a session to a later one -/

/-- From `s` to `t` the session's bits grow by `bits`, in order, and the host has read `words` of them; every symbol keeps
its code. -/
structure Emits (s : State) (words : List Word) (bits : List Bool) (t : State) : Prop where
  held : words.flatMap wordBits ++ encodedBits t = encodedBits s ++ bits
  bitcnt : t.encBitcnt = s.encBitcnt + BitVec.ofNat 64 bits.length
  code : codeOf t = codeOf s

theorem Emits.refl (s : State) : Emits s [] [] s :=
  ⟨by simp, by simp, rfl⟩

theorem Emits.trans {s t u : State} {ws ws' : List Word} {bs bs' : List Bool} (h : Emits s ws bs t)
    (h' : Emits t ws' bs' u) : Emits s (ws ++ ws') (bs ++ bs') u where
  held := by
    calc (ws ++ ws').flatMap wordBits ++ encodedBits u
      _ = ws.flatMap wordBits ++ (ws'.flatMap wordBits ++ encodedBits u) := by simp
      _ = ws.flatMap wordBits ++ encodedBits t ++ bs' := by rw [h'.held, List.append_assoc]
      _ = encodedBits s ++ (bs ++ bs') := by rw [h.held, List.append_assoc]
  bitcnt := by rw [h'.bitcnt, h.bitcnt, List.length_append, BitVec.ofNat_add, BitVec.add_assoc]
  code := h'.code.trans h.code

/-- Reads of ENC_DATA take words from the head of ENC_FIFO and leave the session's bits (R65). -/
theorem emits_read (s : State) (k : Nat) : Emits s (s.encFifo.take k) [] { s with encFifo := s.encFifo.drop k } where
  held := by
    simp only [encodedBits]
    rw [← List.append_assoc, ← List.flatMap_append, List.take_append_drop, List.append_nil]
  bitcnt := by simp
  code := rfl

theorem emits_emitCode (s : State) (code : List Bool) : Emits s [] code ((emitCode s code).withResult .ok) := by
  obtain ⟨hbits, -⟩ := appendBits_spec code s
  rw [emitCode_frame]
  exact ⟨hbits, rfl, rfl⟩

/-! ### ENC_START, ENC_SYM and ENC_END that end OK -/

theorem encStart_ok {s t : State} (h : exec .encStart s = .next t) (hok : t.result = .ok) :
    t = s.openEncoder.withResult .ok := by
  rcases execEncStart_next h with ⟨-, rfl⟩ | ⟨-, rfl⟩
  · simp at hok
  · rfl

theorem encSym_ok {sym : Sym} {s t : State} (h : exec (.encSym sym) s = .next t) (hok : t.result = .ok) :
    ∃ code, codeOf s sym = some code ∧ Emits s [] code t := by
  rcases execEncSym_next h with ⟨c, hc, rfl⟩ | ⟨-, -, -, rfl⟩ | ⟨-, -, -, code, hcode, -, rfl⟩
  · rcases hc with rfl | rfl | rfl <;> simp at hok
  · simp at hok
  · exact ⟨code, hcode, emits_emitCode s code⟩

/-- The word a session holds in part (R42), as ENC_END pushes it (R160). -/
def State.partialWord (s : State) : List Word := if s.encAccn = 0 then [] else [s.encAcc]

theorem flushWord_encFifo (s : State) : (flushWord s).encFifo = s.encFifo ++ s.partialWord := by
  unfold flushWord State.partialWord
  split <;> simp

theorem partialWord_length (s : State) : s.partialWord.length = (s.encAccn.toNat + 31) / 32 := by
  have hlt := s.encAccn.isLt
  unfold State.partialWord
  split
  · next h => simp [h]
  · next h =>
    have hpos : 0 < s.encAccn.toNat := Nat.pos_of_ne_zero fun e => h (BitVec.eq_of_toNat_eq e)
    simp only [List.length_singleton]
    omega

theorem partialWord_take (s : State) :
    (s.partialWord.flatMap wordBits).take s.encAccn.toNat = (wordBits s.encAcc).take s.encAccn.toNat := by
  unfold State.partialWord
  split
  · next h => simp [h]
  · simp

theorem encEnd_ok {s t : State} (h : exec .encEnd s = .next t) (hok : t.result = .ok) :
    t.encBitcnt = s.encBitcnt ∧ t.encFifo = s.encFifo ++ s.partialWord := by
  rcases execEncEnd_next h with ⟨c, hc, rfl⟩ | ⟨-, -, -, rfl⟩
  · rcases hc with rfl | rfl | rfl <;> simp at hok
  · exact ⟨flushWord_encBitcnt s, flushWord_encFifo s⟩

/-! ### Commands with reads between them -/

theorem runReadingWords_cons {k : Nat} {i : Instr} {rest : List (Nat × Instr)} {s t : State} {res : List ResultCode}
    {out : List Word} (h : runReadingWords ((k, i) :: rest) s = some (res, out, t)) :
    ∃ u res' out', exec i { s with encFifo := s.encFifo.drop k } = .next u ∧
      runReadingWords rest u = some (res', out', t) ∧ res = u.result :: res' ∧ out = s.encFifo.take k ++ out' := by
  simp only [runReadingWords] at h
  split at h
  · next u hu =>
    obtain ⟨⟨res', out', t'⟩, hrest, heq⟩ := Option.map_eq_some_iff.1 h
    cases heq
    exact ⟨u, res', out', hu, hrest, rfl, rfl⟩
  · cases h
  · cases h

/-- ENC_SYM commands that all end OK append their codes, whatever the host reads between them (R159). -/
theorem runReadingWords_encSym {syms : List (Nat × Sym)} {s t : State} {res : List ResultCode} {out : List Word}
    (h : runReadingWords (syms.map fun c => (c.1, .encSym c.2)) s = some (res, out, t)) (hok : ∀ r ∈ res, r = .ok) :
    ∃ codes : List (List Bool), (syms.map fun c => codeOf s c.2) = codes.map some ∧ Emits s out codes.flatten t := by
  induction syms generalizing s res out with
  | nil =>
    cases h
    exact ⟨[], rfl, .refl _⟩
  | cons c syms ih =>
    obtain ⟨u, res', out', hexec, hrest, rfl, rfl⟩ := runReadingWords_cons h
    obtain ⟨hu, hres'⟩ := List.forall_mem_cons.1 hok
    obtain ⟨code, hcode, hemit⟩ := encSym_ok hexec hu
    have hstep := (emits_read s c.1).trans hemit
    obtain ⟨codes, hcodes, hrun⟩ := ih hrest hres'
    refine ⟨code :: codes, ?_, ?_⟩
    · rw [hstep.code] at hcodes
      rw [List.map_cons, List.map_cons, hcodes]
      exact congrArg (· :: codes.map some) hcode
    · simpa using hstep.trans hrun

/-- A session that is all OK so far has emitted the codes of its symbols from the empty session on (R153, R159). -/
theorem runReadingWords_session {syms : List (Nat × Sym)} {s t : State} {res : List ResultCode} {out : List Word}
    (h : runReadingWords ((0, .encStart) :: syms.map fun c => (c.1, .encSym c.2)) s = some (res, out, t))
    (hok : ∀ r ∈ res, r = .ok) :
    ∃ codes : List (List Bool), (syms.map fun c => codeOf s c.2) = codes.map some ∧
      Emits s.openEncoder out codes.flatten t := by
  obtain ⟨u, res', out', hexec, hrest, rfl, rfl⟩ := runReadingWords_cons h
  obtain ⟨hu, hres'⟩ := List.forall_mem_cons.1 hok
  cases encStart_ok hexec hu
  obtain ⟨codes, hcodes, hheld, hcnt, hcode⟩ := runReadingWords_encSym hrest hres'
  exact ⟨codes, hcodes, hheld, hcnt, hcode⟩

/-- The end of a session: whatever the host reads before it, the words still held and the partial word are read or in
ENC_FIFO (R160). -/
theorem runReadingWords_encEnd {k : Nat} {t u : State} {out : List Word}
    (h : runReadingWords [(k, .encEnd)] t = some ([.ok], out, u)) :
    u.encBitcnt = t.encBitcnt ∧ out ++ u.encFifo = t.encFifo ++ t.partialWord := by
  obtain ⟨u', res', out', hexec, hnil, hres, rfl⟩ := runReadingWords_cons h
  cases hnil
  obtain ⟨hu, -⟩ := List.cons.inj hres
  obtain ⟨hcnt, hfifo⟩ := encEnd_ok hexec hu.symm
  refine ⟨hcnt, ?_⟩
  rw [hfifo, List.append_nil, ← List.append_assoc, List.take_append_drop]
  rfl

/-! ### The words of a closed session (R160, R161) -/

theorem flatMap_wordBits_length (ws : List Word) : (ws.flatMap wordBits).length = 32 * ws.length := by
  simp [List.length_flatMap, Nat.mul_comm]

/-- The words of a session and its partial word are as many as its bits need (R160). -/
theorem length_append_partialWord {ws : List Word} {s : State} {bits : List Bool}
    (h : ws.flatMap wordBits ++ (wordBits s.encAcc).take s.encAccn.toNat = bits) :
    (ws ++ s.partialWord).length = (bits.length + 31) / 32 := by
  have hlt := s.encAccn.isLt
  have hlen := congrArg List.length h
  rw [List.length_append, flatMap_wordBits_length, List.length_take, wordBits_length] at hlen
  rw [List.length_append, partialWord_length]
  omega

/-- The session's bits are the first bits of its words and its partial word (R161). -/
theorem take_append_partialWord {ws : List Word} {s : State} {bits : List Bool}
    (h : ws.flatMap wordBits ++ (wordBits s.encAcc).take s.encAccn.toNat = bits) :
    ((ws ++ s.partialWord).flatMap wordBits).take bits.length = bits := by
  have hlt := s.encAccn.isLt
  have hlen : bits.length = (ws.flatMap wordBits).length + s.encAccn.toNat := by
    rw [← h, List.length_append, List.length_take, wordBits_length]
    omega
  rw [hlen, List.flatMap_append, List.take_length_add_append, partialWord_take, h]

/-- Settles O49: the session has emitted the codes, and ENC_END leaves its words and its partial word to the host. -/
theorem encoderOutputLaw : Obligations.EncoderOutputLaw := by
  unfold Obligations.EncoderOutputLaw
  intro syms s t res out h hok
  obtain ⟨codes, hcodes, hemit⟩ := runReadingWords_session h hok
  have hheld : (out ++ t.encFifo).flatMap wordBits ++ (wordBits t.encAcc).take t.encAccn.toNat = codes.flatten := by
    simpa [encodedBits] using hemit.held
  have hcnt : t.encBitcnt = BitVec.ofNat 64 codes.flatten.length := by simpa using hemit.bitcnt
  have hcntNat : t.encBitcnt.toNat = codes.flatten.length % 2 ^ 64 := by rw [hcnt, BitVec.toNat_ofNat]
  rw [List.length_flatten] at hcnt hcntNat
  refine ⟨codes, hcodes, hheld, hcnt, hcntNat, fun k out' u hend => ?_⟩
  obtain ⟨hkept, hrest⟩ := runReadingWords_encEnd hend
  have htake := take_append_partialWord hheld
  rw [hkept, List.append_assoc, hrest, ← List.append_assoc]
  refine ⟨rfl, length_append_partialWord hheld, htake, fun hsmall => ?_⟩
  rw [hcntNat, ← List.length_flatten, Nat.mod_eq_of_lt hsmall, htake]

end Sys2Proof.Machine

/-! SUPPORT. What DEC_START, DEC_BITS and DEC_END do from any state, as equations, and the walk of DEC_BITS on a tree of two
leaves or more and on a one-leaf tree (42_decoder.md R181 to R190). -/

namespace Sys2Proof.Machine

/-! ### DEC_START (R182) -/

theorem exec_decStart_count {s : State} (hp : s.phase = .count) : exec .decStart s = .next (s.withResult .phaseError) := by
  simp [exec, execDecStart, reject, hp]

/-- Settles O51: the two equations of DEC_START. -/
theorem decStartCommand : Obligations.DecStartCommand := by
  unfold Obligations.DecStartCommand
  exact ⟨rfl, fun s hp => exec_decStart_count hp, fun s hp => exec_decStart_built hp⟩

/-! ### DEC_BITS before its first bit (R185, R186) -/

/-- A format B word is its OP, its NBITS and its BITS in disjoint bits (R92). -/
theorem wordB_eq_or (op : BitVec 4) (nbits : BitVec 5) (bits : BitVec 16) :
    wordB op nbits bits = wordB op 0 0 ||| (nbits.setWidth 32 <<< 16) ||| bits.setWidth 32 := by
  apply BitVec.eq_of_getLsbD_eq
  intro i hi
  simp only [wordB, BitVec.getLsbD_or, BitVec.getLsbD_append, BitVec.getLsbD_setWidth, BitVec.getLsbD_shiftLeft, hi]
  rcases Nat.lt_or_ge i 16 with h16 | h16
  · simp [h16]
  · rcases Nat.lt_or_ge (i - 16) 5 with h5 | h5
    · simp [h5, Nat.not_lt.2 h16, BitVec.getLsbD_of_ge bits i h16, show i - 16 < 32 by omega]
    · simp [Nat.not_lt.2 h5, Nat.not_lt.2 h16, BitVec.getLsbD_of_ge bits i h16, BitVec.getLsbD_of_ge nbits (i - 16) h5]

section
variable {s : State} {nbits : BitVec 5} (bits : BitVec 16)

theorem exec_decBits_illegal (h : ¬legalChunkLength nbits) :
    exec (.decBits nbits bits) s = .next (s.withResult .illegalCommand) := by
  simp only [exec, execDecBits, reject, if_pos h]

theorem exec_decBits_rejected {c : ResultCode} (hlegal : legalChunkLength nbits) (h : sessionCheck .decoder s = some c) :
    exec (.decBits nbits bits) s = .next (s.withResult c) := by
  simp only [exec, execDecBits, reject, if_neg (not_not.2 hlegal), h]

theorem exec_decBits_full (hp : s.phase = .built) (ha : s.decState = .active) (hn : s.nleaf ≠ 0)
    (hlegal : legalChunkLength nbits) (hfull : s.params.decDepth - s.decFifo.length < nbits.toNat) :
    exec (.decBits nbits bits) s = .next (s.withResult .outputFull) := by
  simp only [exec, execDecBits, reject, if_neg (not_not.2 hlegal), sessionCheck_active (u := .decoder) hp ha, if_neg hn,
    if_pos hfull]

theorem exec_decBits_accepted (hp : s.phase = .built) (ha : s.decState = .active) (hn : s.nleaf ≠ 0)
    (hlegal : legalChunkLength nbits) (hroom : nbits.toNat ≤ s.params.decDepth - s.decFifo.length) :
    exec (.decBits nbits bits) s = decChunk (chunkBits nbits bits) s := by
  simp only [exec, execDecBits, if_neg (not_not.2 hlegal), sessionCheck_active (u := .decoder) hp ha, if_neg hn,
    if_neg (Nat.not_lt.2 hroom)]

end

/-- Settles O54: the checks of DEC_BITS in their order, each as an equation. -/
theorem decBitsRejectsAndFails : Obligations.DecBitsRejectsAndFails := by
  unfold Obligations.DecBitsRejectsAndFails
  refine ⟨wordB_eq_or 0x7, fun nbits bits s => ⟨fun hill => ?_, fun h1 h16 => ⟨fun hp => ?_, fun hp hi => ?_, fun hp hx => ?_,
    fun hp ha hn => ?_, fun hp ha hn hfull => ?_⟩⟩⟩
  · exact exec_decBits_illegal bits (by omega)
  · exact exec_decBits_rejected bits ⟨h1, h16⟩ (sessionCheck_count hp)
  · exact exec_decBits_rejected bits ⟨h1, h16⟩ (sessionCheck_idle hi)
  · exact exec_decBits_rejected bits ⟨h1, h16⟩ (sessionCheck_failed hp hx)
  · exact exec_decBits_empty hp ha hn ⟨h1, h16⟩ bits
  · exact exec_decBits_full bits hp ha hn ⟨h1, h16⟩ hfull

/-! ### DEC_END (R190) -/

theorem exec_decEnd_rejected {s : State} {c : ResultCode} (h : sessionCheck .decoder s = some c) :
    exec .decEnd s = .next (s.withResult c) := by
  simp only [exec, execDecEnd, reject, h]

theorem exec_decEnd_truncated {s : State} (hp : s.phase = .built) (ha : s.decState = .active) (hc : s.decCursor ≠ s.root) :
    exec .decEnd s = .next (s.failSession .decoder .truncatedEncoding (s.decPos.setWidth 32)) := by
  simp only [exec, execDecEnd, sessionCheck_active (u := .decoder) hp ha, if_pos hc]

/-- Settles O55: the equations of DEC_END. -/
theorem decEndCommand : Obligations.DecEndCommand := by
  unfold Obligations.DecEndCommand
  refine ⟨rfl, fun s => ⟨fun hp => ?_, fun hp hi => ?_, fun hp hx => ?_, fun hp ha hc => ?_,
    fun hp ha hc => exec_decEnd_closed hp ha hc⟩⟩
  · exact exec_decEnd_rejected (sessionCheck_count hp)
  · exact exec_decEnd_rejected (sessionCheck_idle hi)
  · exact exec_decEnd_rejected (sessionCheck_failed hp hx)
  · exact exec_decEnd_truncated hp ha hc

/-! ### The walk in a tree of two leaves or more (R181, R187) -/

theorem nleaf_ne_zero_of_two_le {s : State} (h : 2 ≤ s.nleaf.toNat) : s.nleaf ≠ 0 := fun e => by simp [e] at h

/-- In a tree of two leaves or more the walk from any cursor a session can hold finds every child (R47, R181). -/
theorem sourceWalk_isSome {s : State} (hs : Inv s) (hp : s.phase = .built) (h2 : 2 ≤ s.nleaf.toNat) (hcur : CursorInv s)
    (bs : List Bool) : ∃ cur syms, sourceWalk s.node s.root bs s.decCursor = some (cur, syms) := by
  obtain ⟨hl, hc, ht, -⟩ := hs
  have hn := nleaf_toNat ht hp
  have hstore := builtStore_of_inv hl hc ht hp (by omega)
  have hlen := hstore.length
  have hL := leafCount_le s.freq
  have hseeds := seedLeaves_length s.freq
  have hroot : s.root.toNat = s.node.length - 1 := by
    rw [root_eq_lastIdx hl hc ht hp, hstore.lastIdx_toNat (by omega)]
  have hinner : ∃ nd, s.node[s.decCursor.toNat]? = some nd ∧ nd.leaf = false := by
    rcases hcur with e | e
    · have hlast := List.getElem?_eq_getElem (show s.root.toNat < s.node.length by omega)
      rw [e]
      exact ⟨_, hlast, (hstore.merged _ _ (by omega) hlast).leaf⟩
    · simpa [Option.any_eq_true] using e
  obtain ⟨cur, syms, hwalk, -⟩ := sourceWalk_total hstore (seedLeaves_leaf s.freq) (by omega) (by omega) bs _ hinner
  exact ⟨cur, syms, by rw [root_eq_lastIdx hl hc ht hp]; exact hwalk⟩

theorem cursorInv_of_active {s : State} (hs : Inv s) (ha : s.decState = .active) : CursorInv s := by
  obtain ⟨-, -, -, -, -, ⟨-, -, -, hcur, -⟩⟩ := hs
  exact hcur (by simp [ha])

/-- Settles O52: the walk finds every child, and the machine's bits are the walk. -/
theorem decBitsIsTheSourcesWalk : Obligations.DecBitsIsTheSourcesWalk := by
  unfold Obligations.DecBitsIsTheSourcesWalk
  intro nbits bits s hs hp ha h2 h1 h16 hroom
  obtain ⟨cur, syms, hwalk⟩ := sourceWalk_isSome hs hp h2 (cursorInv_of_active hs ha) (chunkBits nbits bits)
  refine ⟨cur, syms, hwalk, ?_⟩
  rw [exec_decBits_accepted bits hp ha (nleaf_ne_zero_of_two_le h2) ⟨h1, h16⟩ hroom, decChunk_of_sourceWalk hwalk,
    chunkBits_length, BitVec.ofNat_toNat]

/-! ### The walk in a one-leaf tree (R187, R188) -/

section
variable {s : State} {leaf : Node} (hnode : s.node[s.decCursor.toNat]? = some leaf) (hleaf : leaf.leaf = true)
include hnode hleaf

theorem decBit_zero_at_leaf : decBit false s = .more (s.walked s.decCursor [leaf.sym] 1) := by
  simp only [decBit, hnode, hleaf, if_true, Bool.false_eq_true, if_false]
  rfl

/-- A bit 1 at a leaf fails, and the bits after it are discarded. -/
theorem decChunk_one_at_leaf (bs : List Bool) :
    decChunk (true :: bs) s = .next (s.failSession .decoder .malformedEncoding (s.decPos.setWidth 32)) := by
  simp only [decChunk, decBit, hnode, hleaf, if_true]

end

theorem State.walked_zero (s : State) : s.walked s.decCursor [] 0 = s := by simp [State.walked]

/-- Two walks one after the other are one walk. -/
theorem State.walked_walked (s : State) (c c' : NodeIdx) (xs ys : List Sym) (m n : Nat) :
    (s.walked c xs m).walked c' ys n = s.walked c' (xs ++ ys) (m + n) := by
  simp [State.walked, BitVec.ofNat_add, BitVec.add_assoc]

/-- Where the cursor rests on a leaf, each bit 0 emits the leaf's symbol and the cursor stays. -/
theorem decChunk_zeros_at_leaf {s : State} {leaf : Node} (hnode : s.node[s.decCursor.toNat]? = some leaf)
    (hleaf : leaf.leaf = true) (n : Nat) (bs : List Bool) :
    decChunk (List.replicate n false ++ bs) s =
      decChunk bs (s.walked s.decCursor (List.replicate n leaf.sym) n) := by
  induction n generalizing s with
  | zero => simp [State.walked_zero]
  | succ n ih =>
    calc decChunk (List.replicate (n + 1) false ++ bs) s
      _ = decChunk (List.replicate n false ++ bs) (s.walked s.decCursor [leaf.sym] 1) := by
        rw [List.replicate_succ, List.cons_append, decChunk, decBit_zero_at_leaf hnode hleaf]
      _ = decChunk bs ((s.walked s.decCursor [leaf.sym] 1).walked s.decCursor (List.replicate n leaf.sym) n) := ih hnode
      _ = decChunk bs (s.walked s.decCursor (List.replicate (n + 1) leaf.sym) (n + 1)) := by
        rw [State.walked_walked, Nat.add_comm 1 n, List.replicate_succ, List.singleton_append]

/-- The store of a one-leaf tree is that leaf, at ROOT, and its symbol is the only one counted (R129, R188). -/
theorem oneLeaf_store {s : State} (hs : Inv s) (hp : s.phase = .built) (hn : s.nleaf = 1) :
    ∃ sym, presentSymbols s.freq = [sym] ∧ s.node = [leafNode s.freq sym] ∧ s.root = 0 := by
  have ⟨_, _, ht, _⟩ := hs
  have hcount : leafCount s.freq = 1 := by rw [← nleaf_toNat ht hp, hn]; rfl
  obtain ⟨sym, hsym⟩ := List.length_eq_one_iff.1 hcount
  obtain ⟨inner, hnode, hinner, -⟩ := node_eq_leaves_append hs hp
  obtain ⟨-, -, hroot⟩ := ht.2 hp
  refine ⟨sym, hsym, ?_, ?_⟩
  · have hnil : inner = [] := List.length_eq_zero_iff.1 (by omega)
    simp [hnode, hnil, seedLeaves, hsym]
  · rw [hroot, buildRoot, if_pos (by omega)]

/-- In a one-leaf tree the cursor of a session is ROOT: there is no internal node (R189). -/
theorem cursor_eq_root_of_oneLeaf {s : State} {leaf : Node} (hcur : CursorInv s) (hnode : s.node = [leaf])
    (hleaf : leaf.leaf = true) : s.decCursor = s.root := by
  refine hcur.resolve_right fun h => ?_
  obtain ⟨nd, hnd, hinner⟩ := Option.any_eq_true _ _ |>.1 h
  rw [hnode] at hnd
  cases List.mem_singleton.1 (List.mem_of_getElem? hnd)
  simp [hleaf] at hinner

theorem chunkBits_getElem {nbits : BitVec 5} {bits : BitVec 16} {k : Nat} (h : k < (chunkBits nbits bits).length) :
    (chunkBits nbits bits)[k] = bits.getLsbD (15 - k) := by simp [chunkBits]

/-- The first `k` bits of a chunk are 0 where the bits of BITS they come from are (R184). -/
theorem chunkBits_take_of_zeros {nbits : BitVec 5} {bits : BitVec 16} {k : Nat} (hk : k ≤ nbits.toNat)
    (h : ∀ j, j < k → bits.getLsbD (15 - j) = false) : (chunkBits nbits bits).take k = List.replicate k false := by
  refine List.ext_getElem (by simpa using hk) fun j hj _ => ?_
  rw [List.length_take] at hj
  rw [List.getElem_take, chunkBits_getElem, List.getElem_replicate, h j (by omega)]

/-- Settles O53: the cursor rests on the one leaf, so the bits 0 emit its symbol up to the first bit 1, which fails. -/
theorem decBitsOnAOneLeafTree : Obligations.DecBitsOnAOneLeafTree := by
  unfold Obligations.DecBitsOnAOneLeafTree
  intro nbits bits s hs hp ha hn h1 h16 hroom
  obtain ⟨sym, hsym, hstore, hroot⟩ := oneLeaf_store hs hp hn
  have hcursor := cursor_eq_root_of_oneLeaf (cursorInv_of_active hs ha) hstore rfl
  have hnode : s.node[s.decCursor.toNat]? = some (leafNode s.freq sym) := by rw [hcursor, hroot, hstore]; rfl
  have hexec := exec_decBits_accepted bits hp ha (by simp [hn]) ⟨h1, h16⟩ hroom
  refine ⟨sym, (mem_presentSymbols s.freq sym).1 (by simp [hsym]), fun hzero => ?_, fun k hk hzero hone => ?_⟩
  · have hbits := chunkBits_take_of_zeros le_rfl hzero
    rw [List.take_of_length_le (by simp)] at hbits
    rw [hexec, hbits, ← List.append_nil (List.replicate _ _), decChunk_zeros_at_leaf hnode rfl, ← BitVec.ofNat_toNat]
    rfl
  · have hlt : k < (chunkBits nbits bits).length := by rwa [chunkBits_length]
    have hbits := (List.take_append_drop k (chunkBits nbits bits)).symm
    rw [chunkBits_take_of_zeros hk.le hzero, List.drop_eq_getElem_cons hlt, chunkBits_getElem, hone] at hbits
    rw [hexec, hbits, decChunk_zeros_at_leaf hnode rfl]
    exact decChunk_one_at_leaf (s := s.walked s.decCursor (List.replicate k sym) k) hnode rfl _

end Sys2Proof.Machine

/-! SUPPORT. The round-trip law (42_decoder.md R191): the codes of counted symbols, cut into chunks in any way, walk the decoder
back to ROOT and emit the symbols, whatever the host reads between the commands. -/

namespace Sys2Proof.Machine

open Statements (runReading)

/-! ### The walk of a session, in a tree of any size (R181, R187) -/

/-- The bits `bs` lead the cursor from `c` to `c'` and emit `syms`: by the source's walk, or, in a one-leaf tree, each bit is 0
and emits the leaf's symbol. -/
def CursorWalk (node : List Node) (root : NodeIdx) (bs : List Bool) (c c' : NodeIdx) (syms : List Sym) : Prop :=
  sourceWalk node root bs c = some (c', syms) ∨
    ∃ leaf, node[c.toNat]? = some leaf ∧ leaf.leaf = true ∧ c' = c ∧ bs = List.replicate bs.length false ∧
      syms = List.replicate bs.length leaf.sym

section
variable {node : List Node} {root c c' : NodeIdx} {syms : List Sym}

theorem CursorWalk.nil_iff : CursorWalk node root [] c c' syms ↔ c' = c ∧ syms = [] := by
  simp only [CursorWalk, sourceWalk, Option.some.injEq, Prod.mk.injEq, List.length_nil, List.replicate_zero, true_and]
  constructor
  · rintro (⟨rfl, rfl⟩ | ⟨-, -, -, h⟩)
    · exact ⟨rfl, rfl⟩
    · exact h
  · rintro ⟨rfl, rfl⟩
    exact .inl ⟨rfl, rfl⟩

/-- A walk over two pieces is a walk over the first and one over the second: a code may be split between commands (R180). -/
theorem CursorWalk.split {bs cs : List Bool} (h : CursorWalk node root (bs ++ cs) c c' syms) :
    ∃ m now later, CursorWalk node root bs c m now ∧ CursorWalk node root cs m c' later ∧ syms = now ++ later := by
  rcases h with h | ⟨leaf, hnode, hleaf, rfl, hbits, rfl⟩
  · rw [sourceWalk_append] at h
    obtain ⟨⟨m, now⟩, hnow, h⟩ := Option.bind_eq_some_iff.1 h
    obtain ⟨⟨_, later⟩, hlater, h⟩ := Option.map_eq_some_iff.1 h
    cases h
    exact ⟨m, now, later, .inl hnow, .inl hlater, rfl⟩
  · obtain ⟨-, hbs, hcs⟩ := List.append_eq_replicate_iff.1 hbits
    refine ⟨c', _, _, .inr ⟨leaf, hnode, hleaf, rfl, hbs, rfl⟩, .inr ⟨leaf, hnode, hleaf, rfl, hcs, rfl⟩, ?_⟩
    rw [List.length_append, List.replicate_add]

/-- Each bit emits at most one symbol (R186). -/
theorem CursorWalk.length_le {bs : List Bool} (h : CursorWalk node root bs c c' syms) : syms.length ≤ bs.length := by
  rcases h with h | ⟨leaf, -, -, -, -, rfl⟩
  · exact sourceWalk_length h
  · rw [List.length_replicate]

end

/-- The machine's bits are the walk of the session. -/
theorem decChunk_of_cursorWalk {bs : List Bool} {s : State} {cur : NodeIdx} {syms : List Sym}
    (h : CursorWalk s.node s.root bs s.decCursor cur syms) :
    decChunk bs s = .next ((s.walked cur syms bs.length).withResult .ok) := by
  rcases h with h | ⟨leaf, hnode, hleaf, rfl, hbits, rfl⟩
  · exact decChunk_of_sourceWalk h
  · conv_lhs => rw [hbits, ← List.append_nil (List.replicate _ _)]
    exact decChunk_zeros_at_leaf hnode hleaf _ _

/-! ### Codes from ROOT (R133, R151, R162) -/

/-- The bits of a symbol's code, from ROOT, emit the symbol and lead back to ROOT. -/
theorem sourceWalk_code {s : State} (hs : Inv s) (hp : s.phase = .built) (h1 : s.nleaf ≠ 1) {sym : Sym}
    (hf : freqAt s.freq sym ≠ 0) {code : List Bool} (hcode : codeOf s sym = some code) :
    sourceWalk s.node s.root code s.root = some (s.root, [sym]) := by
  have ⟨hl, hc, ht, _⟩ := hs
  have h0 : s.nleaf ≠ 0 := fun h => hf (freqAt_eq_zero_of_nleaf hs hp h sym)
  have h2 : 2 ≤ s.nleaf.toNat := by bv_omega
  obtain ⟨path, hpath, hwalk, hpos, -⟩ := codeOf_path hl hc ht hp h2 hf
  cases hcode.symm.trans hpath
  exact sourceWalk_path (List.length_pos_iff.1 hpos) hwalk (node_leafNodeIdx hs hp hf) rfl

theorem sourceWalk_codes {s : State} (hs : Inv s) (hp : s.phase = .built) (h1 : s.nleaf ≠ 1) {syms : List Sym}
    {codes : List (List Bool)} (hf : ∀ sym ∈ syms, freqAt s.freq sym ≠ 0) (hcodes : syms.map (codeOf s) = codes.map some) :
    sourceWalk s.node s.root codes.flatten s.root = some (s.root, syms) := by
  induction syms generalizing codes with
  | nil =>
    cases List.map_eq_nil_iff.1 hcodes.symm
    rfl
  | cons sym syms ih =>
    obtain ⟨code, codes, rfl, hcode, hrest⟩ := List.map_eq_cons_iff.1 hcodes.symm
    obtain ⟨hsym, hsyms⟩ := List.forall_mem_cons.1 hf
    rw [List.flatten_cons, sourceWalk_append, sourceWalk_code hs hp h1 hsym hcode.symm, Option.bind_some,
      ih hsyms hrest.symm, Option.map_some, List.singleton_append]

/-- In a one-leaf tree every code is the bit 0, and every counted symbol is the leaf's (R162). -/
theorem codes_of_oneLeaf {s : State} (hs : Inv s) (hp : s.phase = .built) (h1 : s.nleaf = 1) {syms : List Sym}
    {codes : List (List Bool)} (hf : ∀ sym ∈ syms, freqAt s.freq sym ≠ 0) (hcodes : syms.map (codeOf s) = codes.map some) :
    ∃ leaf, s.node[s.root.toNat]? = some leaf ∧ leaf.leaf = true ∧ syms = List.replicate syms.length leaf.sym ∧
      codes.flatten = List.replicate syms.length false := by
  obtain ⟨x, hpresent, hstore, hroot⟩ := oneLeaf_store hs hp h1
  refine ⟨leafNode s.freq x, by rw [hroot, hstore]; rfl, rfl, List.eq_replicate_iff.2 ⟨rfl, fun sym hsym => ?_⟩, ?_⟩
  · have := (mem_presentSymbols s.freq sym).2 (hf sym hsym)
    rw [hpresent] at this
    exact List.mem_singleton.1 this
  · have hsingle : codes = List.replicate syms.length [false] := by
      refine List.map_injective_iff.2 (Option.some_injective _) ?_
      rw [← hcodes, List.map_replicate, List.map_congr_left fun sym _ => codeOf_single h1 sym, List.map_const']
    rw [hsingle, List.flatten_replicate_singleton]

/-- The codes of counted symbols, one after the other, emit the symbols and lead from ROOT back to it. -/
theorem cursorWalk_codes {s : State} (hs : Inv s) (hp : s.phase = .built) {syms : List Sym} {codes : List (List Bool)}
    (hf : ∀ sym ∈ syms, freqAt s.freq sym ≠ 0) (hcodes : syms.map (codeOf s) = codes.map some) :
    CursorWalk s.node s.root codes.flatten s.root s.root syms := by
  by_cases h1 : s.nleaf = 1
  · obtain ⟨leaf, hnode, hleaf, hsyms, hbits⟩ := codes_of_oneLeaf hs hp h1 hf hcodes
    refine .inr ⟨leaf, hnode, hleaf, rfl, ?_, ?_⟩ <;> rw [hbits, List.length_replicate]
    exact hsyms
  · exact .inl (sourceWalk_codes hs hp h1 hf hcodes)

/-! ### A session that awaits the bits of whole codes -/

/-- The bits a list of chunks carries, in the order of the commands (R184). -/
def chunksBits (chunks : List (BitVec 5 × BitVec 16)) : List Bool := chunks.flatMap fun c => chunkBits c.1 c.2

/-- An open session on a tree: the bits still to come lead its cursor back to ROOT and emit `syms`. -/
structure Awaits (s : State) (bits : List Bool) (syms : List Sym) : Prop where
  built : s.phase = .built
  active : s.decState = .active
  tree : bits ≠ [] → s.nleaf ≠ 0
  walk : CursorWalk s.node s.root bits s.decCursor s.root syms

/-- DEC_START on a tree awaits the codes of any counted symbols (R182). -/
theorem awaits_openDecoder {s : State} (hs : Inv s) (hp : s.phase = .built) {syms : List Sym} {codes : List (List Bool)}
    (hf : ∀ sym ∈ syms, freqAt s.freq sym ≠ 0) (hcodes : syms.map (codeOf s) = codes.map some) :
    Awaits (s.openDecoder.withResult .ok) codes.flatten syms where
  built := hp
  active := rfl
  tree := by
    intro hne h0
    have hnil : syms = [] :=
      List.eq_nil_iff_forall_not_mem.2 fun sym hsym => hf sym hsym (freqAt_eq_zero_of_nleaf hs hp h0 sym)
    rw [hnil] at hcodes
    rw [List.map_eq_nil_iff.1 hcodes.symm] at hne
    exact hne rfl
  walk := cursorWalk_codes hs hp hf hcodes

section
variable {s : State} {bits : List Bool} {syms : List Sym}

/-- Reads of DEC_DATA leave what the session awaits (R65). -/
theorem Awaits.read (h : Awaits s bits syms) (k : Nat) : Awaits { s with decFifo := s.decFifo.drop k } bits syms :=
  ⟨h.built, h.active, h.tree, h.walk⟩

/-- A chunk of the awaited bits, where there is room for it, ends OK, and the session awaits the rest. -/
theorem Awaits.decBits {c : BitVec 5 × BitVec 16} (h : Awaits s (chunkBits c.1 c.2 ++ bits) syms)
    (hlegal : legalChunkLength c.1) (hroom : c.1.toNat ≤ s.params.decDepth - s.decFifo.length) :
    ∃ cur now later,
      exec (.decBits c.1 c.2) s = .next ((s.walked cur now c.1.toNat).withResult .ok) ∧
        Awaits ((s.walked cur now c.1.toNat).withResult .ok) bits later ∧ syms = now ++ later ∧ now.length ≤ c.1.toNat := by
  obtain ⟨hbuilt, hactive, htree, hwalk⟩ := h
  obtain ⟨cur, now, later, hnow, hlater, hsyms⟩ := hwalk.split
  have hn := htree (List.ne_nil_of_length_pos (by rw [List.length_append, chunkBits_length]; omega))
  have hlen := hnow.length_le
  have hchunk := decChunk_of_cursorWalk hnow
  rw [chunkBits_length] at hlen hchunk
  exact ⟨cur, now, later, (exec_decBits_accepted c.2 hbuilt hactive hn hlegal hroom).trans hchunk,
    ⟨hbuilt, hactive, fun _ => hn, hlater⟩, hsyms, hlen⟩

/-- A session that awaits no bit more has its cursor at ROOT, and DEC_END closes it (R189, R190). -/
theorem Awaits.decEnd (h : Awaits s [] syms) :
    s.root = s.decCursor ∧ syms = [] ∧ exec .decEnd s = .next { s with decState := .idle, result := .ok } := by
  obtain ⟨hroot, hsyms⟩ := CursorWalk.nil_iff.1 h.walk
  exact ⟨hroot, hsyms, exec_decEnd_closed h.built h.active hroot.symm⟩

end

/-! ### The round trip, with room for all the symbols -/

theorem runOk_cons_of_exec {i : Instr} {is : List Instr} {s t : State} (hi : exec i s = .next t) (ht : t.result = .ok) :
    runOk (i :: is) s = runOk is t := by
  simp [runOk, hi, ht]

/-- The awaited chunks and DEC_END all end OK where DEC_FIFO has room for a symbol a bit. -/
theorem runOk_decBits_decEnd {chunks : List (BitVec 5 × BitVec 16)} {s : State} {syms : List Sym}
    (h : Awaits s (chunksBits chunks) syms) (hlegal : ∀ c ∈ chunks, legalChunkLength c.1)
    (hroom : s.decFifo.length + (chunksBits chunks).length ≤ s.params.decDepth) :
    runOk ((chunks.map fun c => .decBits c.1 c.2) ++ [.decEnd]) s =
      some { s.walked s.root syms (chunksBits chunks).length with decState := .idle, result := .ok } := by
  induction chunks generalizing s syms with
  | nil =>
    obtain ⟨hroot, rfl, hend⟩ := h.decEnd
    rw [hroot, chunksBits, List.flatMap_nil, List.length_nil, State.walked_zero]
    exact runOk_cons_of_exec hend rfl
  | cons c chunks ih =>
    obtain ⟨hc, hchunks⟩ := List.forall_mem_cons.1 hlegal
    have hbits : chunksBits (c :: chunks) = chunkBits c.1 c.2 ++ chunksBits chunks := List.flatMap_cons
    rw [hbits, List.length_append, chunkBits_length] at hroom ⊢
    obtain ⟨cur, now, later, hexec, hnext, rfl, hlen⟩ := (hbits ▸ h).decBits hc (by omega)
    have hfifo : (s.decFifo ++ now).length + (chunksBits chunks).length ≤ s.params.decDepth := by
      rw [List.length_append]
      omega
    rw [List.map_cons, List.cons_append, runOk_cons_of_exec hexec rfl, ih hnext hchunks hfifo, ← State.walked_walked s cur]
    rfl

/-- Settles O56: DEC_START awaits the codes, and an empty DEC_FIFO has room for a symbol a bit. -/
theorem roundTripLaw : Obligations.RoundTripLaw := by
  unfold Obligations.RoundTripLaw
  intro syms codes chunks s hs hp hf hcodes hlegal hbits hroom
  have hbits : chunksBits chunks = codes.flatten := hbits
  have hstart := awaits_openDecoder hs hp hf hcodes
  rw [← hbits] at hstart hroom ⊢
  have hrun := runOk_decBits_decEnd hstart hlegal (by simpa using hroom)
  refine ⟨_, (runOk_cons_of_exec (exec_decStart_built hp) rfl).trans hrun, ?_, ?_, rfl, rfl, rfl⟩
  · exact List.nil_append _
  · exact BitVec.zero_add _

/-! ### The round trip, with reads between the commands -/

theorem runReading_cons {k : Nat} {i : Instr} {rest : List (Nat × Instr)} {s t : State} {res : List ResultCode}
    {out : List Sym} (h : runReading ((k, i) :: rest) s = some (res, out, t)) :
    ∃ u res' out', exec i { s with decFifo := s.decFifo.drop k } = .next u ∧
      runReading rest u = some (res', out', t) ∧ res = u.result :: res' ∧ out = s.decFifo.take k ++ out' := by
  simp only [runReading] at h
  split at h
  · next u hu =>
    obtain ⟨⟨res', out', t'⟩, hrest, heq⟩ := Option.map_eq_some_iff.1 h
    cases heq
    exact ⟨u, res', out', hu, hrest, rfl, rfl⟩
  · cases h
  · cases h

/-- Where no awaited chunk finds DEC_FIFO full, all end OK, and the symbols read and those left are those held before and those
awaited. -/
theorem runReading_decBits_decEnd {chunks : List (Nat × BitVec 5 × BitVec 16)} {k : Nat} {s t : State} {syms out : List Sym}
    {res : List ResultCode} (h : Awaits s (chunksBits (chunks.map Prod.snd)) syms)
    (hlegal : ∀ c ∈ chunks, legalChunkLength c.2.1)
    (hrun : runReading ((chunks.map fun c => (c.1, .decBits c.2.1 c.2.2)) ++ [(k, .decEnd)]) s = some (res, out, t))
    (hfull : .outputFull ∉ res) : (∀ r ∈ res, r = .ok) ∧ out ++ t.decFifo = s.decFifo ++ syms := by
  induction chunks generalizing s syms res out with
  | nil =>
    obtain ⟨u, res', out', hexec, hnil, rfl, rfl⟩ := runReading_cons hrun
    obtain ⟨-, rfl, hend⟩ := (h.read k).decEnd
    cases hexec.symm.trans hend
    cases hnil
    exact ⟨by simp, by simp⟩
  | cons c chunks ih =>
    obtain ⟨hc, hchunks⟩ := List.forall_mem_cons.1 hlegal
    obtain ⟨u, res', out', hexec, hrest, rfl, rfl⟩ := runReading_cons hrun
    obtain ⟨hu, hres'⟩ := not_or.1 (List.mem_cons.not.1 hfull)
    have hbits : chunksBits ((c :: chunks).map Prod.snd) = chunkBits c.2.1 c.2.2 ++ chunksBits (chunks.map Prod.snd) :=
      List.flatMap_cons
    have hread := (hbits ▸ h).read c.1
    rcases Nat.lt_or_ge (s.params.decDepth - (s.decFifo.drop c.1).length) c.2.1.toNat with hsmall | hroom
    · have hn := hread.tree (List.ne_nil_of_length_pos (by rw [List.length_append, chunkBits_length]; omega))
      cases hexec.symm.trans (exec_decBits_full c.2.2 hread.built hread.active hn hc hsmall)
      exact absurd rfl hu
    · obtain ⟨cur, now, later, hok, hnext, rfl, -⟩ := hread.decBits hc hroom
      cases hexec.symm.trans hok
      obtain ⟨hall, hsyms⟩ := ih hnext hchunks hrest hres'
      refine ⟨List.forall_mem_cons.2 ⟨rfl, hall⟩, ?_⟩
      calc s.decFifo.take c.1 ++ out' ++ t.decFifo
        _ = s.decFifo.take c.1 ++ (s.decFifo.drop c.1 ++ now ++ later) := by rw [List.append_assoc, hsyms]; rfl
        _ = s.decFifo ++ (now ++ later) := by
          rw [List.append_assoc, ← List.append_assoc, List.take_append_drop]

/-- Settles O57: DEC_START discards what was held and awaits the codes, and every chunk that is not rejected walks on. -/
theorem roundTripLawWithReads : Obligations.RoundTripLawWithReads := by
  unfold Obligations.RoundTripLawWithReads
  intro syms out codes chunks k s t res hs hp hf hcodes hlegal hbits hrun hfull
  have hbits : chunksBits (chunks.map Prod.snd) = codes.flatten := by rw [← hbits, chunksBits, List.flatMap_map]; rfl
  obtain ⟨u, res', out', hexec, hrest, rfl, rfl⟩ := runReading_cons hrun
  cases hexec.symm.trans (exec_decStart_built (s := { s with decFifo := s.decFifo.drop 0 }) hp)
  have hstart := awaits_openDecoder (s := { s with decFifo := s.decFifo.drop 0 }) hs hp hf hcodes
  rw [← hbits] at hstart
  obtain ⟨hall, hsyms⟩ := runReading_decBits_decEnd hstart hlegal hrest (List.not_mem_of_not_mem_cons hfull)
  exact ⟨List.forall_mem_cons.2 ⟨rfl, hall⟩, hsyms⟩

end Sys2Proof.Machine

/-! SUPPORT. The recipe that feeds encoder output to the decoder (42_decoder.md R194): its chunks are the halves of the words. -/

namespace Sys2Proof.Machine

/-- A chunk of the upper half of a word carries the first bits of the word (R184). -/
theorem chunkBits_upperHalf (w : Word) {nbits : BitVec 5} {n : Nat} (hn : nbits.toNat = n) (h : n ≤ 16) :
    chunkBits nbits (upperHalf w) = (wordBits w).take n := by
  refine List.ext_getElem (by simp; omega) fun k hk _ => ?_
  rw [chunkBits_length] at hk
  rw [chunkBits_getElem, List.getElem_take, wordBits_getElem, upperHalf, BitVec.getLsbD_extractLsb',
    show 16 + (15 - k) = 31 - k by omega]
  simp only [show 15 - k < 16 by omega, decide_true, Bool.true_and]

/-- The upper half of a word and a chunk of its lower half carry the first bits of the word (R184). -/
theorem chunkBits_upperHalf_lowerHalf (w : Word) {nbits : BitVec 5} {n : Nat} (hn : nbits.toNat = n) (h : n ≤ 16) :
    chunkBits 16 (upperHalf w) ++ chunkBits nbits (lowerHalf w) = (wordBits w).take (16 + n) := by
  have hlower : chunkBits nbits (lowerHalf w) = ((wordBits w).drop 16).take n := by
    refine List.ext_getElem (by simp; omega) fun k hk _ => ?_
    rw [chunkBits_length] at hk
    rw [chunkBits_getElem, List.getElem_take, List.getElem_drop, wordBits_getElem, lowerHalf, BitVec.getLsbD_extractLsb',
      show 31 - (16 + k) = 0 + (15 - k) by omega]
    simp only [show 15 - k < 16 by omega, decide_true, Bool.true_and]
  rw [List.take_add, hlower, chunkBits_upperHalf w (n := 16) rfl le_rfl]

/-- The chunks of the recipe carry the first `n` bits of the words (R161, R194). -/
theorem feedCommands_bits (n : Nat) (words : List Word) :
    (feedCommands n words).flatMap commandBits = (words.flatMap wordBits).take n := by
  induction words generalizing n with
  | nil => simp [feedCommands]
  | cons w ws ih =>
    have hlen := wordBits_length w
    unfold feedCommands
    rw [List.flatMap_cons]
    split
    · next hfull =>
      have hword := chunkBits_upperHalf_lowerHalf w (nbits := 16) (n := 16) rfl le_rfl
      rw [List.take_of_length_le hlen.le] at hword
      rw [List.take_append, hlen, List.take_of_length_le (hlen.le.trans hfull), ← ih, ← hword, List.append_assoc]
      rfl
    · next hpart =>
      rw [List.take_append_of_le_length (by omega)]
      split
      · next hzero => rw [hzero]; rfl
      · split
        · next hupper =>
          rw [List.flatMap_singleton]
          exact chunkBits_upperHalf w (by rw [BitVec.toNat_ofNat]; omega) hupper
        · next hlower =>
          have hbits := chunkBits_upperHalf_lowerHalf w (nbits := BitVec.ofNat 5 (n - 16)) (n := n - 16)
            (by rw [BitVec.toNat_ofNat]; omega) (by omega)
          rw [Nat.add_sub_cancel' (by omega)] at hbits
          rw [← hbits, List.flatMap_cons, List.flatMap_singleton]
          rfl

/-- Every command of the recipe is a DEC_BITS of 1 to 16 bits (R96, R194). -/
theorem feedCommands_legal {n : Nat} {words : List Word} {i : Instr} (h : i ∈ feedCommands n words) :
    ∃ nbits bits, i = .decBits nbits bits ∧ legalChunkLength nbits := by
  induction words generalizing n with
  | nil => simp [feedCommands] at h
  | cons w ws ih =>
    unfold feedCommands at h
    split at h
    · rcases List.mem_cons.1 h with rfl | h
      · exact ⟨_, _, rfl, by decide⟩
      · rcases List.mem_cons.1 h with rfl | h
        · exact ⟨_, _, rfl, by decide⟩
        · exact ih h
    · split at h
      · simp at h
      · split at h
        · cases List.mem_singleton.1 h
          exact ⟨_, _, rfl, by rw [legalChunkLength, BitVec.toNat_ofNat]; omega⟩
        · rcases List.mem_cons.1 h with rfl | h
          · exact ⟨_, _, rfl, by decide⟩
          · cases List.mem_singleton.1 h
            exact ⟨_, _, rfl, by rw [legalChunkLength, BitVec.toNat_ofNat]; omega⟩

/-- Settles O58: the bits and the legality of the recipe's commands. -/
theorem feedRecipeCarriesTheBitSequence : Obligations.FeedRecipeCarriesTheBitSequence := by
  unfold Obligations.FeedRecipeCarriesTheBitSequence
  exact fun n words _ => ⟨feedCommands_bits n words, fun i hi => feedCommands_legal hi⟩

end Sys2Proof.Machine

/-! SUPPORT. The inspection commands: QUERY_FREQ and QUERY_NODE as equations, and who writes the read-back words
(43_inspect.md R211 to R216). -/

namespace Sys2Proof.Machine

/-! ### Who writes RDATA0 and RDATA1 (R216) -/

/-- `t` holds the read-back words of `s`. -/
def KeepsRdata (s t : State) : Prop := t.rdata0 = s.rdata0 ∧ t.rdata1 = s.rdata1

theorem EncoderFrame.keepsRdata {s t : State} (h : EncoderFrame s t) : KeepsRdata s t := by
  rw [EncoderFrame] at h
  exact ⟨by rw [h], by rw [h]⟩

theorem DecoderFrame.keepsRdata {s t : State} (h : DecoderFrame s t) : KeepsRdata s t := by
  rw [DecoderFrame] at h
  exact ⟨by rw [h], by rw [h]⟩

/-- A command keeps the read-back words, or it is a query that ends OK, or CLEAR. -/
theorem exec_rdata {i : Instr} {s t : State} (h : exec i s = .next t) :
    KeepsRdata s t ∨ (((∃ sym, i = .queryFreq sym) ∨ ∃ idx, i = .queryNode idx) ∧ t.result = .ok) ∨ i = .clear := by
  cases i with
  | clear => exact .inr (.inr rfl)
  | count sym => rcases execCount_next h with ⟨-, rfl⟩ | ⟨-, -, rfl⟩ | ⟨-, -, rfl⟩ <;> exact .inl ⟨rfl, rfl⟩
  | build => rcases execBuild_next h with ⟨-, rfl⟩ | ⟨-, rfl⟩ <;> exact .inl ⟨rfl, rfl⟩
  | encStart => exact .inl (encoderFrame_encStart h).keepsRdata
  | encSym sym => exact .inl (encoderFrame_encSym h).keepsRdata
  | encEnd => exact .inl (encoderFrame_encEnd h).keepsRdata
  | decStart => exact .inl (decoderFrame_decStart h).keepsRdata
  | decBits nbits bits => exact .inl (decoderFrame_decBits h).keepsRdata
  | decEnd => exact .inl (decoderFrame_decEnd h).keepsRdata
  | queryFreq sym => cases h; exact .inr (.inl ⟨.inl ⟨sym, rfl⟩, rfl⟩)
  | queryNode idx =>
    rcases execQueryNode_next h with ⟨c, -, rfl⟩ | ⟨-, -, nd, -, rfl⟩
    · exact .inl ⟨rfl, rfl⟩
    · exact .inr (.inl ⟨.inr ⟨idx, rfl⟩, rfl⟩)

/-- A step keeps the read-back words, or it executes a command, or it is a reset. -/
theorem step_rdata {s t : State} (h : step s = .next t) :
    KeepsRdata s t ∨ (∃ i es u, Executes s i ∧ exec i { s with events := es } = .next u ∧ t = u.unlatch) ∨ Resets s := by
  rcases step_device h with ⟨d, p, o, e, r, rfl⟩ | ⟨w, ws, d, r, e, -, rfl⟩ | ⟨x, xs, d, r, e, -, rfl⟩ | ⟨e, rfl⟩ |
    hcommand | ⟨hreset, -⟩
  · exact .inl ⟨rfl, rfl⟩
  · exact .inl ⟨rfl, rfl⟩
  · exact .inl ⟨rfl, rfl⟩
  · exact .inl ⟨rfl, rfl⟩
  · exact .inr (.inl hcommand)
  · exact .inr (.inr hreset)

/-- Settles O30: the two queries, where they end OK, and CLEAR are the only commands that write the read-back words. -/
theorem rdataIsWrittenOnlyByQueriesClearReset : Obligations.RdataIsWrittenOnlyByQueriesClearReset := by
  unfold Obligations.RdataIsWrittenOnlyByQueriesClearReset
  intro s t h hne
  have hwritten : ¬ KeepsRdata s t := fun ⟨h0, h1⟩ => hne.elim (absurd h0) (absurd h1)
  rcases step_rdata h with hkeep | ⟨i, es, u, hx, hu, rfl⟩ | hreset
  · exact absurd hkeep hwritten
  · rcases exec_rdata hu with hkeep | ⟨⟨sym, rfl⟩ | ⟨idx, rfl⟩, hok⟩ | rfl
    · exact absurd hkeep hwritten
    · exact .inl ⟨.inl ⟨sym, hx⟩, hok⟩
    · exact .inl ⟨.inr ⟨idx, hx⟩, hok⟩
    · exact .inr (.inl hx)
  · exact .inr (.inr hreset)

/-! ### QUERY_FREQ (R211) -/

theorem exec_queryFreq (sym : Sym) (s : State) :
    exec (.queryFreq sym) s = .next { s with rdata0 := freqAt s.freq sym, rdata1 := 0, result := .ok } := rfl

/-- Settles O59: the word of format S, and the one equation of QUERY_FREQ. -/
theorem queryFreqCommand : Obligations.QueryFreqCommand := by
  unfold Obligations.QueryFreqCommand
  exact ⟨wordS_eq_or 0x9, exec_queryFreq⟩

/-! ### QUERY_NODE (R213 to R215) -/

/-- The lower of two fields may be or-ed into a word where it is 0. -/
theorem append_eq_or_setWidth {m n : Nat} (hi : BitVec m) (lo : BitVec n) :
    hi ++ lo = (hi ++ 0#n) ||| lo.setWidth (m + n) := by
  have hlo : lo.setWidth (m + n) = 0#m ++ lo := by
    rw [BitVec.setWidth_eq_append (Nat.le_add_left n m)]
    simp
  rw [hlo, BitVec.or_append, BitVec.or_zero, BitVec.zero_or]

/-- A format I word is its OP and its IDX in disjoint bits (R92). -/
theorem wordI_eq_or (op : BitVec 4) (idx : NodeIdx) : wordI op idx = wordI op 0 ||| idx.setWidth 32 :=
  append_eq_or_setWidth (op ++ 0#19) idx

theorem exec_queryNode_count {s : State} (hp : s.phase = .count) (idx : NodeIdx) :
    exec (.queryNode idx) s = .next (s.withResult .phaseError) := by
  simp only [exec, execQueryNode, reject, if_pos hp]

theorem exec_queryNode_beyond {s : State} (hp : s.phase = .built) {idx : NodeIdx} (hi : nnode s ≤ idx.toNat) :
    exec (.queryNode idx) s = .next (s.withResult .badIndex) := by
  simp [exec, execQueryNode, reject, hp, hi]

theorem exec_queryNode_read {s : State} (hp : s.phase = .built) {idx : NodeIdx} (hi : idx.toNat < nnode s) {nd : Node}
    (hnd : s.node[idx.toNat]? = some nd) :
    exec (.queryNode idx) s = .next { s with rdata0 := nd.freq, rdata1 := nodeWord nd, result := .ok } := by
  simp [exec, execQueryNode, finishOk, State.withResult, hp, hnd, Nat.not_le.2 hi]

/-- Below NNODE every entry of a BUILT store holds a value (R40, R215). -/
theorem exists_node_of_lt_nnode {s : State} (hs : Inv s) (hp : s.phase = .built) {n : Nat} (hn : n < nnode s) :
    ∃ nd, s.node[n]? = some nd := by
  obtain ⟨hl, hc, ht, -⟩ := hs
  rw [← node_length hl hc ht hp] at hn
  exact ⟨_, List.getElem?_eq_getElem hn⟩

/-- Settles O60: the two rejects of QUERY_NODE and its read, as equations. -/
theorem queryNodeCommand : Obligations.QueryNodeCommand := by
  unfold Obligations.QueryNodeCommand
  refine ⟨wordI_eq_or 0xA, fun idx s => ⟨fun hp => exec_queryNode_count hp idx, fun hp hi => exec_queryNode_beyond hp hi,
    fun hs hp hleaf hi => ?_⟩⟩
  have hbelow : idx.toNat < nnode s := by rwa [nnode, if_neg hleaf]
  obtain ⟨nd, hnd⟩ := exists_node_of_lt_nnode hs hp hbelow
  exact ⟨nd, hnd, exec_queryNode_read hp hbelow hnd⟩

end Sys2Proof.Machine

/-! SUPPORT. How a command ends: OK, rejected or failed (60_exceptions.md R230 to R234), and the way out of FAILED (R236, R237). -/

namespace Sys2Proof.Machine

open Statements (codeNumber)

/-! ### Rejects and failures (R230, R233, R234) -/

/-- What a command that fails leaves (R234), failure by failure (R230). DEC_BITS that fails at bit `k` leaves what the `k` bits
before it did (R185). -/
inductive Failure (s : State) : Instr → State → Prop
  | unknownSymbol (sym : Sym) : Failure s (.encSym sym) (s.failSession .encoder .unknownSymbol (sym.setWidth 32))
  | malformedEncoding (nbits : BitVec 5) (bits : BitVec 16) (cur : NodeIdx) (syms : List Sym) (k : Nat)
    (hk : k < nbits.toNat) (hbit : bits.getLsbD (15 - k) = true) (hfirst : k = 0 → cur = s.decCursor ∧ syms = [])
    (hbefore : 1 ≤ k → exec (.decBits (BitVec.ofNat 5 k) bits) s = .next ((s.walked cur syms k).withResult .ok)) :
    Failure s (.decBits nbits bits)
      ((s.walked cur syms k).failSession .decoder .malformedEncoding ((s.decPos + BitVec.ofNat 64 k).setWidth 32))
  | truncatedEncoding : Failure s .decEnd (s.failSession .decoder .truncatedEncoding (s.decPos.setWidth 32))
  | emptyTreeDecode (nbits : BitVec 5) (bits : BitVec 16) :
    Failure s (.decBits nbits bits) (s.failSession .decoder .emptyTreeDecode (s.decPos.setWidth 32))

theorem Failure.codeNumber_le {i : Instr} {s t : State} (h : Failure s i t) : codeNumber t.result ≤ 4 := by
  cases h <;> simp [codeNumber]

/-- The chunk of the first `k` bits is the start of the whole chunk (R184). -/
theorem chunkBits_ofNat {nbits : BitVec 5} {k : Nat} (hk : k ≤ nbits.toNat) (bits : BitVec 16) :
    chunkBits (BitVec.ofNat 5 k) bits = (chunkBits nbits bits).take k := by
  have hmod : k % 2 ^ 5 = k := Nat.mod_eq_of_lt (hk.trans_lt nbits.isLt)
  rw [chunkBits, chunkBits, BitVec.toNat_ofNat, hmod, ← List.map_take, List.take_range, Nat.min_eq_left hk]

/-- The walk of DEC_BITS ends OK, or it fails at one of its bits (R185). -/
theorem decChunk_ending {nbits : BitVec 5} {bits : BitVec 16} {s t : State} (hlegal : legalChunkLength nbits)
    (hp : s.phase = .built) (ha : s.decState = .active) (hn : s.nleaf ≠ 0)
    (hroom : nbits.toNat ≤ s.params.decDepth - s.decFifo.length) (h : decChunk (chunkBits nbits bits) s = .next t) :
    t.result = .ok ∨ Failure s (.decBits nbits bits) t := by
  rcases decChunk_cases (chunkBits nbits bits) s with hc | ⟨cur, syms, k, -, hbit, hbefore, hc⟩ | ⟨cur, syms, -, hc⟩ <;>
    rw [hc] at h <;> cases h
  · obtain ⟨hk, hbit⟩ := List.getElem?_eq_some_iff.1 hbit
    rw [chunkBits_getElem] at hbit
    rw [chunkBits_length] at hk
    refine .inr (.malformedEncoding nbits bits cur syms k hk hbit (fun h0 => ?_) fun h1 => ?_)
    · subst h0
      simpa [decChunk, finishOk, State.withResult, eq_comm] using hbefore
    · obtain ⟨-, h16⟩ := hlegal
      have htoNat : (BitVec.ofNat 5 k).toNat = k := Nat.mod_eq_of_lt (hk.trans nbits.isLt)
      rw [exec_decBits_accepted bits hp ha hn (by omega) (by omega), chunkBits_ofNat hk.le]
      exact hbefore
  · exact .inl rfl

/-- A command that ends in a next state ends OK, or is rejected and writes RESULT alone, or fails. -/
theorem exec_ending {i : Instr} {s t : State} (h : exec i s = .next t) :
    t.result = .ok ∨ (∃ c, 5 ≤ codeNumber c ∧ t = s.withResult c) ∨ Failure s i t := by
  cases i with
  | clear => cases h; exact .inl rfl
  | count sym =>
    rcases execCount_next h with ⟨-, rfl⟩ | ⟨-, -, rfl⟩ | ⟨-, -, rfl⟩
    · exact .inr (.inl ⟨_, by decide, rfl⟩)
    · exact .inr (.inl ⟨_, by decide, rfl⟩)
    · exact .inl rfl
  | build =>
    rcases execBuild_next h with ⟨-, rfl⟩ | ⟨-, rfl⟩
    · exact .inr (.inl ⟨_, by decide, rfl⟩)
    · exact .inl rfl
  | encStart =>
    rcases execEncStart_next h with ⟨-, rfl⟩ | ⟨-, rfl⟩
    · exact .inr (.inl ⟨_, by decide, rfl⟩)
    · exact .inl rfl
  | encSym sym =>
    rcases execEncSym_next h with ⟨c, hc, rfl⟩ | ⟨-, -, -, rfl⟩ | ⟨-, -, -, code, -, -, rfl⟩
    · exact .inr (.inl ⟨c, by rcases hc with rfl | rfl | rfl <;> decide, rfl⟩)
    · exact .inr (.inr (.unknownSymbol sym))
    · exact .inl rfl
  | encEnd =>
    rcases execEncEnd_next h with ⟨c, hc, rfl⟩ | ⟨-, -, -, rfl⟩
    · exact .inr (.inl ⟨c, by rcases hc with rfl | rfl | rfl <;> decide, rfl⟩)
    · exact .inl rfl
  | decStart =>
    rcases execDecStart_next h with ⟨-, rfl⟩ | ⟨-, rfl⟩
    · exact .inr (.inl ⟨_, by decide, rfl⟩)
    · exact .inl rfl
  | decBits nbits bits =>
    by_cases hlegal : legalChunkLength nbits
    · rcases execDecBits_next h with ⟨c, hc, rfl⟩ | ⟨-, -, -, rfl⟩ | ⟨hp, ha, hn, hroom, hwalk⟩
      · exact .inr (.inl ⟨c, by rcases hc with rfl | rfl | rfl | rfl <;> decide, rfl⟩)
      · exact .inr (.inr (.emptyTreeDecode nbits bits))
      · exact (decChunk_ending hlegal hp ha hn hroom hwalk).imp_right .inr
    · rw [exec_decBits_illegal bits hlegal] at h
      cases h
      exact .inr (.inl ⟨_, by decide, rfl⟩)
  | decEnd =>
    rcases execDecEnd_next h with ⟨c, hc, rfl⟩ | ⟨-, -, -, rfl⟩ | ⟨-, -, -, rfl⟩
    · exact .inr (.inl ⟨c, by rcases hc with rfl | rfl <;> decide, rfl⟩)
    · exact .inr (.inr .truncatedEncoding)
    · exact .inl rfl
  | queryFreq sym => cases h; exact .inl rfl
  | queryNode idx =>
    rcases execQueryNode_next h with ⟨c, hc, rfl⟩ | ⟨-, -, nd, -, rfl⟩
    · exact .inr (.inl ⟨c, by rcases hc with rfl | rfl <;> decide, rfl⟩)
    · exact .inl rfl

/-- The three ways a word can end, for every word: an illegal one is rejected (R97, R230). -/
theorem execute_ending {w : Word} {s t : State} (h : execute w s = .next t) :
    t.result = .ok ∨ (∃ c, 5 ≤ codeNumber c ∧ t = s.withResult c) ∨ ∃ i, decode w = .ok i ∧ Failure s i t := by
  rcases execute_cases h with rfl | ⟨i, hi, hx⟩
  · exact .inr (.inl ⟨.illegalCommand, by decide, rfl⟩)
  · exact (exec_ending hx).imp_right (.imp_right fun hf => ⟨i, hi, hf⟩)

/-- Settles O22: of the three ways a word can end, only the reject has a code of 5 or more. -/
theorem rejectedCommandsChangeOnlyResult : Obligations.RejectedCommandsChangeOnlyResult := by
  unfold Obligations.RejectedCommandsChangeOnlyResult
  intro w s t h h5 _
  rcases execute_ending h with hok | ⟨c, -, rfl⟩ | ⟨i, -, hf⟩
  · simp [hok, codeNumber] at h5
  · rfl
  · have := hf.codeNumber_le
    omega

/-- A word that ends with one of the codes 1 to 4 is that of a command that fails. -/
theorem failure_of_codeNumber {w : Word} {s t : State} (h : execute w s = .next t) (h1 : 1 ≤ codeNumber t.result)
    (h4 : codeNumber t.result ≤ 4) : ∃ i, decode w = .ok i ∧ Failure s i t := by
  rcases execute_ending h with hok | ⟨c, h5, rfl⟩ | hf
  · simp [hok, codeNumber] at h1
  · exact absurd (h5.trans h4) (by decide)
  · exact hf

/-- Settles O23: each of the codes 1 to 4 belongs to one way of failing. -/
theorem failedCommandsRecordTheFailure : Obligations.FailedCommandsRecordTheFailure := by
  unfold Obligations.FailedCommandsRecordTheFailure
  intro w s t h
  refine ⟨fun hc => ?_, fun hc => ?_, fun hc => ?_, fun hc => ?_⟩ <;>
    obtain ⟨i, hi, hf⟩ := failure_of_codeNumber h (by omega) (by omega)
  · cases hf with
    | unknownSymbol sym => exact ⟨sym, hi, rfl⟩
    | _ => simp [codeNumber] at hc
  · cases hf with
    | malformedEncoding nbits bits cur syms k hk hbit hfirst hbefore =>
      exact ⟨nbits, bits, cur, syms, k, hi, hk, hbit, hfirst, hbefore, rfl⟩
    | _ => simp [codeNumber] at hc
  · cases hf with
    | truncatedEncoding => exact ⟨hi, rfl⟩
    | _ => simp [codeNumber] at hc
  · cases hf with
    | emptyTreeDecode nbits bits => exact ⟨⟨nbits, bits, hi⟩, rfl⟩
    | _ => simp [codeNumber] at hc

/-! ### FAILED sessions (R236, R237) -/

/-- Settles O24: the session check comes before everything else that a data or END command of a legal form looks at. -/
theorem failedSessionsRejectTheirCommands : Obligations.FailedSessionsRejectTheirCommands := by
  unfold Obligations.FailedSessionsRejectTheirCommands
  intro s hp
  refine ⟨fun hx => ?_, fun hx => ?_⟩
  · have hcheck := sessionCheck_failed (u := .encoder) hp hx
    exact ⟨exec_encSym_rejected hcheck, exec_encEnd_rejected hcheck⟩
  · have hcheck := sessionCheck_failed (u := .decoder) hp hx
    exact ⟨fun nbits bits h1 h16 => exec_decBits_rejected bits ⟨h1, h16⟩ hcheck, exec_decEnd_rejected hcheck⟩

/-- An effect on an encoder session that is FAILED is ENC_START's or CLEAR's, or the session stays as it is. -/
theorem Effect.encState_failed {i : Instr} {s t : State} (h : Effect s i t) (hx : s.encState = .failed) :
    t.encState = .failed ∨ i = .encStart ∨ i = .clear := by
  cases h with
  | clear => exact .inr (.inr rfl)
  | encStart hp => exact .inr (.inl rfl)
  | encCode sym code hp ha hroom => simp [hx] at ha
  | encEnd hp ha hroom => simp [hx] at ha
  | encFail sym info hp ha => exact .inl rfl
  | _ => exact .inl hx

/-- An effect on a decoder session that is FAILED is DEC_START's or CLEAR's, or the session stays as it is. -/
theorem Effect.decState_failed {i : Instr} {s t : State} (h : Effect s i t) (hx : s.decState = .failed) :
    t.decState = .failed ∨ i = .decStart ∨ i = .clear := by
  cases h with
  | clear => exact .inr (.inr rfl)
  | decStart hp => exact .inr (.inl rfl)
  | decEmpty nbits bits info hp ha => exact .inl rfl
  | decMalformed nbits bits cur syms n info hp ha hn hroom hcur => exact .inl rfl
  | decTruncated info hp ha => exact .inl rfl
  | decEnd hp ha => simp [hx] at ha
  | encCode sym code hp ha hroom => rw [emitCode_frame]; exact .inl hx
  | encEnd hp ha hroom => rw [flushWord_frame]; exact .inl hx
  | _ => exact .inl hx

/-- A step leaves both session states alone, or it executes a command, or it is a reset. -/
theorem step_sessions {s t : State} (h : step s = .next t) :
    (t.encState = s.encState ∧ t.decState = s.decState) ∨
      (∃ i es u, Executes s i ∧ Effect { s with events := es } i u ∧ t = u.unlatch) ∨ Resets s := by
  rcases step_device h with ⟨d, p, o, e, r, rfl⟩ | ⟨w, ws, d, r, e, -, rfl⟩ | ⟨x, xs, d, r, e, -, rfl⟩ | ⟨e, rfl⟩ |
    ⟨i, es, u, hx, hu, rfl⟩ | ⟨hreset, -⟩
  · exact .inl ⟨rfl, rfl⟩
  · exact .inl ⟨rfl, rfl⟩
  · exact .inl ⟨rfl, rfl⟩
  · exact .inl ⟨rfl, rfl⟩
  · exact .inr (.inl ⟨i, es, u, hx, exec_effect hu, rfl⟩)
  · exact .inr (.inr hreset)

/-- Settles O25: of a FAILED session the effects of its START and of CLEAR alone make another. -/
theorem failedIsLeftOnlyByStartClearOrReset : Obligations.FailedIsLeftOnlyByStartClearOrReset := by
  unfold Obligations.FailedIsLeftOnlyByStartClearOrReset
  intro s t h
  rcases step_sessions h with ⟨henc, hdec⟩ | ⟨i, es, u, hexec, hu, rfl⟩ | hreset
  · exact ⟨fun hx hne => absurd (henc.trans hx) hne, fun hx hne => absurd (hdec.trans hx) hne⟩
  · refine ⟨fun hx hne => ?_, fun hx hne => ?_⟩
    · rcases hu.encState_failed hx with hstay | rfl | rfl
      · exact absurd hstay hne
      · exact .inl hexec
      · exact .inr (.inl hexec)
    · rcases hu.decState_failed hx with hstay | rfl | rfl
      · exact absurd hstay hne
      · exact .inl hexec
      · exact .inr (.inl hexec)
  · exact ⟨fun _ _ => .inr (.inr hreset), fun _ _ => .inr (.inr hreset)⟩

end Sys2Proof.Machine

/-! SUPPORT. That the two sessions do not interact (60_exceptions.md R249): an encoder command commutes with putting another
decoder session into the state, and a decoder command with putting another encoder session into it. -/

namespace Sys2Proof.Machine

/-! ### The session of another state, and what follows a command -/

/-- `s` with the decoder session of `d` (R43). -/
def State.withDecoderOf (s d : State) : State :=
  { s with decState := d.decState, decErr := d.decErr, decCursor := d.decCursor, decPos := d.decPos, decFifo := d.decFifo }

/-- `s` with the encoder session of `d` (R42). -/
def State.withEncoderOf (s d : State) : State :=
  { s with
    encState := d.encState, encErr := d.encErr, encAcc := d.encAcc, encAccn := d.encAccn, encBitcnt := d.encBitcnt
    encFifo := d.encFifo }

/-- An outcome with `f` applied to the next state, where there is one. -/
def mapNext (f : State → State) : Host.Outcome State Fault Refusal → Host.Outcome State Fault Refusal
  | .next s => .next (f s)
  | .fault r => .fault r
  | .refused r => .refused r

/-- A bit's outcome with `f` applied to the state it leaves, where there is one. -/
def BitOutcome.map (f : State → State) : BitOutcome → BitOutcome
  | .more s => .more (f s)
  | .stop s => .stop (f s)
  | .undefinedNode => .undefinedNode

/-! ### Encoder commands, whatever the decoder session is -/

theorem appendBit_withDecoderOf (s d : State) (b : Bool) :
    appendBit (s.withDecoderOf d) b = (appendBit s b).withDecoderOf d := by
  rw [appendBit, appendBit, apply_ite (State.withDecoderOf · d)]
  rfl

theorem appendBits_withDecoderOf (s d : State) (code : List Bool) :
    appendBits (s.withDecoderOf d) code = (appendBits s code).withDecoderOf d := by
  induction code generalizing s with
  | nil => rfl
  | cons b bs ih =>
    rw [appendBits, List.foldl_cons, appendBit_withDecoderOf]
    exact ih (appendBit s b)

theorem emitCode_withDecoderOf (s d : State) (code : List Bool) :
    emitCode (s.withDecoderOf d) code = (emitCode s code).withDecoderOf d := by
  rw [emitCode, appendBits_withDecoderOf]
  rfl

theorem flushWord_withDecoderOf (s d : State) : flushWord (s.withDecoderOf d) = (flushWord s).withDecoderOf d := by
  rw [flushWord, flushWord, apply_ite (State.withDecoderOf · d)]
  rfl

theorem execEncStart_withDecoderOf (s d : State) :
    execEncStart (s.withDecoderOf d) = mapNext (State.withDecoderOf · d) (execEncStart s) := by
  rw [execEncStart, execEncStart, apply_ite (mapNext _)]
  rfl

theorem execEncSym_withDecoderOf (sym : Sym) (s d : State) :
    execEncSym sym (s.withDecoderOf d) = mapNext (State.withDecoderOf · d) (execEncSym sym s) := by
  have hcheck : sessionCheck .encoder (s.withDecoderOf d) = sessionCheck .encoder s := rfl
  have hcodeOf : codeOf (s.withDecoderOf d) sym = codeOf s sym := rfl
  simp only [execEncSym, hcheck, hcodeOf, emitCode_withDecoderOf]
  cases sessionCheck .encoder s with
  | some c => rfl
  | none =>
    rw [apply_ite (mapNext _)]
    cases codeOf s sym with
    | none => rfl
    | some code =>
      dsimp only
      rw [apply_ite (mapNext _)]
      rfl

theorem execEncEnd_withDecoderOf (s d : State) :
    execEncEnd (s.withDecoderOf d) = mapNext (State.withDecoderOf · d) (execEncEnd s) := by
  have hcheck : sessionCheck .encoder (s.withDecoderOf d) = sessionCheck .encoder s := rfl
  simp only [execEncEnd, hcheck, flushWord_withDecoderOf]
  cases sessionCheck .encoder s with
  | some c => rfl
  | none =>
    dsimp only
    rw [apply_ite (mapNext _)]
    rfl

/-! ### Decoder commands, whatever the encoder session is -/

theorem decBit_withEncoderOf (b : Bool) (s d : State) :
    decBit b (s.withEncoderOf d) = (decBit b s).map (State.withEncoderOf · d) := by
  have hnode : (s.withEncoderOf d).node = s.node := rfl
  have hcursor : (s.withEncoderOf d).decCursor = s.decCursor := rfl
  simp only [decBit, hnode, hcursor]
  cases s.node[s.decCursor.toNat]? with
  | none => rfl
  | some c =>
    dsimp only
    rw [apply_ite (BitOutcome.map _), apply_ite (BitOutcome.map _)]
    cases s.node[(if b then c.right else c.left).toNat]? with
    | none => rfl
    | some nd =>
      dsimp only
      rw [apply_ite (BitOutcome.map _)]
      rfl

theorem decChunk_withEncoderOf (bs : List Bool) (s d : State) :
    decChunk bs (s.withEncoderOf d) = mapNext (State.withEncoderOf · d) (decChunk bs s) := by
  induction bs generalizing s with
  | nil => rfl
  | cons b bs ih =>
    rw [decChunk, decChunk, decBit_withEncoderOf]
    cases decBit b s with
    | more u => exact ih u
    | stop u => rfl
    | undefinedNode => rfl

theorem execDecStart_withEncoderOf (s d : State) :
    execDecStart (s.withEncoderOf d) = mapNext (State.withEncoderOf · d) (execDecStart s) := by
  rw [execDecStart, execDecStart, apply_ite (mapNext _)]
  rfl

theorem execDecBits_withEncoderOf (nbits : BitVec 5) (bits : BitVec 16) (s d : State) :
    execDecBits nbits bits (s.withEncoderOf d) = mapNext (State.withEncoderOf · d) (execDecBits nbits bits s) := by
  have hcheck : sessionCheck .decoder (s.withEncoderOf d) = sessionCheck .decoder s := rfl
  simp only [execDecBits, hcheck, decChunk_withEncoderOf]
  rw [apply_ite (mapNext _)]
  cases sessionCheck .decoder s with
  | some c => rfl
  | none =>
    dsimp only
    rw [apply_ite (mapNext _), apply_ite (mapNext _)]
    rfl

theorem execDecEnd_withEncoderOf (s d : State) :
    execDecEnd (s.withEncoderOf d) = mapNext (State.withEncoderOf · d) (execDecEnd s) := by
  have hcheck : sessionCheck .decoder (s.withEncoderOf d) = sessionCheck .decoder s := rfl
  simp only [execDecEnd, hcheck]
  cases sessionCheck .decoder s with
  | some c => rfl
  | none =>
    dsimp only
    rw [apply_ite (mapNext _)]
    rfl

/-! ### The two sessions (R249) -/

theorem exec_withDecoderOf {i : Instr} (hi : i = .encStart ∨ i = .encEnd ∨ ∃ sym, i = .encSym sym) (s d : State) :
    exec i (s.withDecoderOf d) = mapNext (State.withDecoderOf · d) (exec i s) := by
  rcases hi with rfl | rfl | ⟨sym, rfl⟩
  · exact execEncStart_withDecoderOf s d
  · exact execEncEnd_withDecoderOf s d
  · exact execEncSym_withDecoderOf sym s d

theorem exec_withEncoderOf {i : Instr} (hi : i = .decStart ∨ i = .decEnd ∨ ∃ nbits bits, i = .decBits nbits bits)
    (s d : State) : exec i (s.withEncoderOf d) = mapNext (State.withEncoderOf · d) (exec i s) := by
  rcases hi with rfl | rfl | ⟨nbits, bits, rfl⟩
  · exact execDecStart_withEncoderOf s d
  · exact execDecEnd_withEncoderOf s d
  · exact execDecBits_withEncoderOf nbits bits s d

/-- Settles O29: the commands of one unit commute with putting another session of the other unit into the state. -/
theorem sessionsDoNotInteract : Obligations.SessionsDoNotInteract := by
  unfold Obligations.SessionsDoNotInteract
  intro i s t h
  refine ⟨fun hi st er cur pos fifo => ?_, fun hi st er acc accn cnt fifo => ?_⟩
  · have hcommutes := exec_withDecoderOf hi s
      { s with decState := st, decErr := er, decCursor := cur, decPos := pos, decFifo := fifo }
    rwa [h] at hcommutes
  · have hcommutes := exec_withEncoderOf hi s
      { s with encState := st, encErr := er, encAcc := acc, encAccn := accn, encBitcnt := cnt, encFifo := fifo }
    rwa [h] at hcommutes

end Sys2Proof.Machine

/-! SUPPORT. What the model refuses (60_exceptions.md R240): a configuration outside the ranges of R8, and the accesses that R62
and R63 give no meaning. -/

namespace Sys2Proof.Machine

/-! ### Accesses and events (R62, R63) -/

theorem Reg.offset_aligned (r : Reg) : r.offset < 0x40 ∧ r.offset % 4 = 0 := by cases r <;> decide

/-- An access is refused exactly where R62 and R63 give it no meaning (R240). -/
theorem accessedReg_error_iff {off size : Nat} :
    (∃ e, accessedReg off size = .error e) ↔ size ≠ 4 ∨ off % 4 ≠ 0 ∨ 0x40 ≤ off := by
  constructor
  · rintro ⟨e, he⟩
    by_contra hmeaning
    obtain ⟨r, hr, -⟩ := accessedReg_ok (off := off) (by omega) (by omega)
    obtain rfl : size = 4 := by omega
    simp [hr] at he
  · intro hbad
    cases h : accessedReg off size with
    | error e => exact ⟨e, rfl⟩
    | ok r =>
      obtain ⟨rfl, rfl⟩ := accessedReg_inv h
      obtain ⟨hlt, halign⟩ := r.offset_aligned
      omega

theorem complete_ne_refused (s : State) (r : Refusal) : complete s ≠ .refused r := by
  cases hw : s.pending with
  | none => simp [complete, hw]
  | some w =>
    cases hx : execute w s with
    | refused q => exact absurd hx (execute_ne_refused w s q)
    | _ => simp [complete, hw, hx, thenUnlatch]

theorem handleEvent_refused_iff {e : Event} {s : State} : (∃ r, handleEvent e s = .refused r) ↔ e.Refused := by
  cases e with
  | read off size =>
    rw [Event.Refused, ← accessedReg_error_iff, handleEvent, hostRead]
    cases accessedReg off size <;> simp
  | write off size v =>
    rw [Event.Refused, ← accessedReg_error_iff, handleEvent, hostWrite]
    cases accessedReg off size <;> simp
  | complete => simp [handleEvent, complete_ne_refused]
  | reset => simp [handleEvent]

/-! ### Steps (R8, R240) -/

/-- A step of a legal configuration is refused exactly where the first event is an access without a meaning. -/
theorem step_refused_iff {s : State} (hl : s.params.Legal) :
    (∃ r, step s = .refused r) ↔ ∃ e es, s.events = e :: es ∧ e.Refused := by
  cases he : s.events with
  | nil => simp [step_deviceTurn hl (.inl ⟨he, rfl⟩), complete_ne_refused]
  | cons e es => simp [step_event hl he, handleEvent_refused_iff]

/-- The events without a meaning are accesses (R62, R63). -/
theorem refused_event_iff {s : State} :
    (∃ e es, s.events = e :: es ∧ e.Refused) ↔
      ∃ es off size, (s.events = .read off size :: es ∨ ∃ v, s.events = .write off size v :: es) ∧
        (size ≠ 4 ∨ off % 4 ≠ 0 ∨ 0x40 ≤ off) := by
  constructor
  · rintro ⟨e, es, he, hbad⟩
    cases e with
    | read off size => exact ⟨es, off, size, .inl he, hbad⟩
    | write off size v => exact ⟨es, off, size, .inr ⟨v, he⟩, hbad⟩
    | complete => exact hbad.elim
    | reset => exact hbad.elim
  · rintro ⟨es, off, size, he | ⟨v, he⟩, hbad⟩
    · exact ⟨_, es, he, hbad⟩
    · exact ⟨_, es, he, hbad⟩

/-- Settles O14: outside the legal configurations every step is refused; inside, its first event decides. -/
theorem refusalsAreExactlyThoseOfTheSpec : Obligations.RefusalsAreExactlyThoseOfTheSpec := by
  unfold Obligations.RefusalsAreExactlyThoseOfTheSpec
  intro s
  by_cases hl : s.params.Legal
  · rw [step_refused_iff hl, refused_event_iff, or_iff_right (not_not.2 hl)]
  · exact iff_of_true ⟨.illegalConfiguration, by rw [step, if_neg hl]⟩ (.inl hl)

end Sys2Proof.Machine

/-! SUPPORT. The reset state: what the reset input gives, what the registers read right after it, and that it meets the
invariant (70_reset_and_hazards.md R260, R261). -/

namespace Sys2Proof.Machine

/-- Settles O19: the reset state has the values CLEAR gives, and legal parameters. -/
theorem resetStateMeetsTheInvariant : Obligations.ResetStateMeetsTheInvariant := by
  have hcleared : State.reset = State.reset.cleared := rfl
  unfold Obligations.ResetStateMeetsTheInvariant
  rw [hcleared]
  exact inv_cleared (by decide)

theorem step_reset {s : State} {es : List Event} (hl : s.params.Legal) (he : s.events = .reset :: es) :
    step s = .next (resetDevice { s with events := es }) := step_event hl he

theorem freqAt_replicate_zero (sym : Sym) : freqAt (Vector.replicate 256 0) sym = 0 := Vector.getElem_replicate _

/-- Settles O17: the step is `resetDevice`, and the reset state holds the value of R260 in each field. -/
theorem resetInputGivesTheResetState : Obligations.ResetInputGivesTheResetState := by
  unfold Obligations.ResetInputGivesTheResetState
  exact ⟨fun s es hl he => step_reset hl he, rfl, freqAt_replicate_zero, rfl, rfl, rfl, fun i => List.getElem?_nil,
    rfl, rfl, rfl, rfl, rfl, rfl, rfl, rfl, rfl, rfl, rfl, rfl, rfl, rfl, rfl, rfl, rfl, rfl⟩

/-- With both FIFOs empty no register pops (R65). -/
theorem readIdle_state_of_empty {s : State} (he : s.encFifo = []) (hd : s.decFifo = []) (r : Reg) :
    (readIdle r s).2 = s := by
  cases r with
  | encData => rw [readIdle_encData_nil he]
  | decData => rw [readIdle_decData_nil hd]
  | _ => rfl

/-- A read right after reset returns the register's value while BUSY = 0 and changes nothing of the device. -/
theorem step_read_reset {p : Params} (hl : p.Legal) (r : Reg) {off : Nat} {w : Word} (ho : off = r.offset)
    (hw : (readIdle r { State.reset with params := p }).1 = w) :
    step { State.reset with params := p, events := [.read off 4] } =
      .next { State.reset with params := p, reads := [w] } := by
  have hstate : (readIdle r { State.reset with params := p }).2 = { State.reset with params := p } :=
    readIdle_state_of_empty rfl rfl r
  calc step { State.reset with params := p, events := [.read off 4] }
      = .next ((readIdle r { State.reset with params := p }).2.hostGot
          (readIdle r { State.reset with params := p }).1) :=
        step_readIdle (s := { State.reset with params := p, events := [.read off 4] }) hl rfl rfl r ho
    _ = .next { State.reset with params := p, reads := [w] } := by rw [hstate, hw]; rfl

/-- Settles O18: register by register, the value of `readIdle` in the reset state is the table's. -/
theorem registerValuesAfterReset : Obligations.RegisterValuesAfterReset := by
  unfold Obligations.RegisterValuesAfterReset
  refine ⟨fun p hl => ⟨step_read_reset hl .config rfl rfl, step_read_reset hl .depths rfl rfl⟩, ?_⟩
  have hread (r : Reg) {off : Nat} {w : Word} (ho : off = r.offset) (hw : (readIdle r State.reset).1 = w) :
      step { State.reset with events := [.read off 4] } = .next { State.reset with reads := [w] } :=
    step_read_reset (p := Params.default) (by decide) r ho hw
  simp only [List.forall_mem_cons]
  exact ⟨hread .id rfl rfl, hread .config rfl rfl, hread .depths rfl rfl, hread .status rfl rfl,
    hread .errInfo rfl rfl, hread .treeInfo rfl rfl, hread .total rfl rfl, hread .encData rfl rfl,
    hread .encBitcntLo rfl rfl, hread .encBitcntHi rfl rfl, hread .decData rfl rfl, hread .levels rfl rfl,
    hread .rdata0 rfl rfl, hread .rdata1 rfl rfl, List.forall_mem_nil _⟩

end Sys2Proof.Machine

/-! SUPPORT. Why a word does not decode (R97), and the words of the opcode map and the vectors (30_encoding.md,
95_test_vectors.md). -/

namespace Sys2Proof.Machine

/-! ### The three reasons (R97) -/

/-- OP 0xB to 0xF names no command (R94). -/
theorem decode_reservedOpcode {w : Word} (hop : 0xA < (opField w).toNat) : decode w = .error .reservedOpcode := by
  have hnone : Opcode.ofField (opField w) = none := Option.eq_none_iff_forall_ne_some.2 fun op h =>
    absurd (exists_opcode_iff.1 ⟨op, ofField_eq_some_iff.1 h⟩) (by omega)
  simp [decode, hnone]

/-- Outside its operands a word must be its row's `match` (R94, R96). -/
theorem decode_reservedBits {op : Opcode} {w : Word} (hop : opField w = op.field)
    (hmask : w &&& op.format.mask ≠ op.base) : decode w = .error .reservedBits := by
  simp [decode, ofField_eq_some_iff.2 hop, hmask]

/-- A DEC_BITS word with its reserved bits 0 is still rejected for its NBITS (R96). -/
theorem decode_badChunkLength {w : Word} (hop : opField w = Opcode.decBits.field)
    (hmask : w &&& Opcode.decBits.format.mask = Opcode.decBits.base) (hlen : ¬ legalChunkLength (nbitsField w)) :
    decode w = .error .badChunkLength := by
  have hwf : ¬ (Opcode.decBits.operands w).wellFormed = true := fun h => hlen ((operands_wellFormed _ w).1 h rfl)
  simp [decode, ofField_eq_some_iff.2 hop, hmask, hwf]

/-! ### The words -/

/-- A written-out word decodes to the command whose word it is. -/
theorem decode_of_encode_eq {w : Word} {i : Instr} (hwf : i.wellFormed = true) (hw : encode i = w) : decode w = .ok i :=
  hw ▸ decodeOfEncodeIsTheCommand i hwf

/-- Settles O6: each legal word is the word of its command, and each of the others has one of the three faults of R97. -/
theorem wordsOfTheOpcodeMapDecode : Obligations.WordsOfTheOpcodeMapDecode := by
  unfold Obligations.WordsOfTheOpcodeMapDecode
  refine ⟨?clear, ?count, ?encSym, ?decBits, ?queryNode, ?chunkLength, ?opcode, ?bits⟩
  case clear => exact decode_of_encode_eq rfl rfl
  case count => exact decode_of_encode_eq rfl rfl
  case encSym => exact decode_of_encode_eq rfl rfl
  case decBits => exact decode_of_encode_eq rfl rfl
  case queryNode => exact decode_of_encode_eq rfl rfl
  case chunkLength => exact decode_badChunkLength rfl rfl (by decide)
  case opcode => exact decode_reservedOpcode (by decide)
  case bits => exact decode_reservedBits (op := .count) rfl (by decide)

end Sys2Proof.Machine
